-- ==== Sys2Proof/Word.lean ====
section
/-! DEFINITION. The word and byte types of the engine (00_scope.md R12, R13). -/

namespace Sys2Proof

/-- A 32-bit register or command word (00_scope.md R12, register width). -/
abbrev Word := BitVec 32

/-- A byte (00_scope.md R13). -/
abbrev Byte := BitVec 8

/-- A host byte address, 12 bits (00_scope.md R12, host byte-address width). -/
abbrev Addr := BitVec 12

/-- A port index 0..3 (00_scope.md R12, NUM_PORTS). -/
abbrev PortIx := Fin 4

/-- A segment index 0..1 (00_scope.md R12, NUM_SEGMENTS). -/
abbrev SegIx := Fin 2

/-- An I2C device slot 0..7 (00_scope.md R12, MAX_I2C_DEVICES). -/
abbrev SlotIx := Fin 8

end Sys2Proof
end

