-- ==== Sys2Proof/Syntax.lean ====
section
/-! DEFINITION. The instructions: one constructor for each row of spec/opcode_table.json, the fourteen host
commands (30_encoding.md R112) and the five wire messages (30_encoding.md R125). -/

namespace Sys2Proof

/-- The buffer BS_READ reads, its field S (30_encoding.md R110). -/
inductive BufSel where
  | tx
  | rx
deriving DecidableEq, Repr

/-- An instruction: a host command with the fields 30_encoding.md R112 names for it, or a wire message with
its payload bytes after the tag (30_encoding.md R125, R143). -/
inductive Instr where
  | nop
  | bsClear
  /-- byte offset A, bit offset B, width W -/
  | bsWrite (a : Byte) (b : BitVec 3) (w : BitVec 6)
  /-- byte offset A, bit offset B, buffer S, width W -/
  | bsRead (a : Byte) (b : BitVec 3) (sel : BufSel) (w : BitVec 6)
  | bsNeeded
  /-- frame address A -/
  | frameTx (a : Byte)
  | frameRx
  | negotiate
  /-- segment A -/
  | negotiateSeg (a : Byte)
  | update
  /-- segment A -/
  | updateSeg (a : Byte)
  /-- old address A -/
  | changeAddr (a : Byte)
  | estop
  | setTimeout
  /-- tag 1: the new address -/
  | wireChangeAddress (newAddr : Byte)
  /-- tag 2: the two type bytes and the bytes of the I2C sub-block bitstream (30_encoding.md R133) -/
  | wireSetSensorType (typeLo typeHi : Byte) (subBlocks : List Byte)
  /-- tag 3: the bytes of the request bitstream (30_encoding.md R127) -/
  | wireReadValues (request : List Byte)
  /-- tag 4 -/
  | wireEmergencyStop
  /-- tag 5: the millisecond count -/
  | wireSetTimeout (t : Word)
deriving DecidableEq, Repr

end Sys2Proof
end

