-- ==== Sys2Proof/WellFormed.lean ====
section
/-! DEFINITION. The checks a well-formed instruction passes: the widths of 30_encoding.md R114 and the lengths
of 30_encoding.md R124, R126 and R127. -/

namespace Sys2Proof

/-- The largest field width of BS_WRITE and BS_READ (30_encoding.md R110, R114). -/
def maxWidth : Nat := 32

/-- The least number of bytes of an update request's bitstream: two presence bits and two motor words are 22
bits (30_encoding.md R127, R128, R131). -/
def minRequestBytes : Nat := 3

/-- Well-formedness of an instruction. -/
def Instr.wellFormed : Instr → Bool
  | .nop => true
  | .bsClear => true
  | .bsWrite _ _ w => decide (w.toNat ≤ maxWidth)
  | .bsRead _ _ _ w => decide (w.toNat ≤ maxWidth)
  | .bsNeeded => true
  | .frameTx _ => true
  | .frameRx => true
  | .negotiate => true
  | .negotiateSeg _ => true
  | .update => true
  | .updateSeg _ => true
  | .changeAddr _ => true
  | .estop => true
  | .setTimeout => true
  | .wireChangeAddress _ => true
  | .wireSetSensorType _ _ sub => decide (3 + sub.length ≤ 255)
  | .wireReadValues req => decide (minRequestBytes ≤ req.length) && decide (1 + req.length ≤ 255)
  | .wireEmergencyStop => true
  | .wireSetTimeout _ => true

/-- An instruction is a host command (30_encoding.md R112), not a wire message (30_encoding.md R125). -/
def Instr.isCommand : Instr → Bool
  | .nop => true
  | .bsClear => true
  | .bsWrite _ _ _ => true
  | .bsRead _ _ _ _ => true
  | .bsNeeded => true
  | .frameTx _ => true
  | .frameRx => true
  | .negotiate => true
  | .negotiateSeg _ => true
  | .update => true
  | .updateSeg _ => true
  | .changeAddr _ => true
  | .estop => true
  | .setTimeout => true
  | .wireChangeAddress _ => false
  | .wireSetSensorType _ _ _ => false
  | .wireReadValues _ => false
  | .wireEmergencyStop => false
  | .wireSetTimeout _ => false

end Sys2Proof
end

