-- ==== Sys2Proof/Decode.lean ====
section
/-! DEFINITION. The decoder of host command words (30_encoding.md R110 to R115) and of wire messages
(30_encoding.md R125, R133, R127, R143), total and rejecting by name, and after it the encoder. -/

namespace Sys2Proof

/-- What the decoder reads: a command word as written to CMD, or the payload of a transmit frame. -/
inductive Code where
  | command (w : Word)
  | message (payload : List Byte)
deriving DecidableEq, Repr

/-- Why a code is no instruction. -/
inductive DecodeError where
  /-- CMD[7:5] or CMD[31:26] is not 0 (30_encoding.md R114) -/
  | reservedBits
  /-- OP is 0x0E..0x1F (30_encoding.md R114) -/
  | reservedOp
  /-- W above 32 for BS_WRITE or BS_READ (30_encoding.md R114) -/
  | width
  /-- a first payload byte other than 1..5 (30_encoding.md R125) -/
  | unknownTag
  /-- a payload of a length its tag does not have (30_encoding.md R124, R126) -/
  | badLength
deriving DecidableEq, Repr

/-! ## Fields of the command word (30_encoding.md R110) -/

/-- OP, bits 4:0. -/
def fieldOp (w : Word) : Nat := (w.extractLsb' 0 5).toNat

/-- A, bits 15:8. -/
def fieldA (w : Word) : Byte := w.extractLsb' 8 8

/-- B, bits 18:16. -/
def fieldB (w : Word) : BitVec 3 := w.extractLsb' 16 3

/-- S, bit 19: 0 TX_BUF, 1 RX_BUF. -/
def fieldS (w : Word) : BufSel := if w.getLsbD 19 then .rx else .tx

/-- W, bits 25:20. -/
def fieldW (w : Word) : BitVec 6 := w.extractLsb' 20 6

/-- The reserved fields, bits 7:5 and 31:26, are 0. -/
def reservedClear (w : Word) : Bool := w.extractLsb' 5 3 == 0 && w.extractLsb' 26 6 == 0

/-- The width test of BS_WRITE and BS_READ (30_encoding.md R114). -/
def checkWidth (i : Instr) : Except DecodeError Instr := if i.wellFormed then .ok i else .error .width

/-- Decoding a command word; the tests stand in the order of 30_encoding.md R115. -/
def decodeCommand (w : Word) : Except DecodeError Instr :=
  if reservedClear w then
    match fieldOp w with
    | 0x00 => .ok .nop
    | 0x01 => .ok .bsClear
    | 0x02 => checkWidth (.bsWrite (fieldA w) (fieldB w) (fieldW w))
    | 0x03 => checkWidth (.bsRead (fieldA w) (fieldB w) (fieldS w) (fieldW w))
    | 0x04 => .ok .bsNeeded
    | 0x05 => .ok (.frameTx (fieldA w))
    | 0x06 => .ok .frameRx
    | 0x07 => .ok .negotiate
    | 0x08 => .ok (.negotiateSeg (fieldA w))
    | 0x09 => .ok .update
    | 0x0A => .ok (.updateSeg (fieldA w))
    | 0x0B => .ok (.changeAddr (fieldA w))
    | 0x0C => .ok .estop
    | 0x0D => .ok .setTimeout
    | _ => .error .reservedOp
  else .error .reservedBits

/-- The length test of a message: its payload has an encoding (30_encoding.md R124, R127). -/
def checkLength (i : Instr) : Except DecodeError Instr := if i.wellFormed then .ok i else .error .badLength

/-- A 32-bit count from its bytes, the least significant first (30_encoding.md R143). -/
def wordOfBytes (b0 b1 b2 b3 : Byte) : Word := b3 ++ b2 ++ b1 ++ b0

/-- Decoding the bytes of a payload after its tag (30_encoding.md R125, R126). -/
def decodeTagged (tag : Nat) (rest : List Byte) : Except DecodeError Instr :=
  match tag, rest with
  | 1, [n] => .ok (.wireChangeAddress n)
  | 2, lo :: hi :: sub => checkLength (.wireSetSensorType lo hi sub)
  | 3, req => checkLength (.wireReadValues req)
  | 4, [] => .ok .wireEmergencyStop
  | 5, [t0, t1, t2, t3] => .ok (.wireSetTimeout (wordOfBytes t0 t1 t2 t3))
  | t, _ => if 1 ≤ t ∧ t ≤ 5 then .error .badLength else .error .unknownTag

/-- Decoding the payload of a frame by its first byte (30_encoding.md R125). -/
def decodeMessage : List Byte → Except DecodeError Instr
  | [] => .error .badLength
  | tag :: rest => decodeTagged tag.toNat rest

/-- Decoding (30_encoding.md R115: total). -/
def decode : Code → Except DecodeError Instr
  | .command w => decodeCommand w
  | .message p => decodeMessage p

/-! ## The encoder -/

/-- `CMD = OP | A << 8 | B << 16 | S << 19 | W << 20` with the reserved fields 0 (30_encoding.md R110). -/
def commandWord (op : BitVec 5) (a : Byte) (b : BitVec 3) (sel : BufSel) (w : BitVec 6) : Word :=
  0#6 ++ w ++ (match sel with | .tx => 0#1 | .rx => 1#1) ++ b ++ a ++ 0#3 ++ op

/-- The bytes of a 32-bit count, the least significant first (30_encoding.md R143; 20_memory.md R94). -/
def bytesOfWord (t : Word) : List Byte :=
  [t.extractLsb' 0 8, t.extractLsb' 8 8, t.extractLsb' 16 8, t.extractLsb' 24 8]

/-- The code of an instruction; the fields a command does not use are 0 (30_encoding.md R112). -/
def encode : Instr → Code
  | .nop => .command (commandWord 0x00 0 0 .tx 0)
  | .bsClear => .command (commandWord 0x01 0 0 .tx 0)
  | .bsWrite a b w => .command (commandWord 0x02 a b .tx w)
  | .bsRead a b sel w => .command (commandWord 0x03 a b sel w)
  | .bsNeeded => .command (commandWord 0x04 0 0 .tx 0)
  | .frameTx a => .command (commandWord 0x05 a 0 .tx 0)
  | .frameRx => .command (commandWord 0x06 0 0 .tx 0)
  | .negotiate => .command (commandWord 0x07 0 0 .tx 0)
  | .negotiateSeg a => .command (commandWord 0x08 a 0 .tx 0)
  | .update => .command (commandWord 0x09 0 0 .tx 0)
  | .updateSeg a => .command (commandWord 0x0A a 0 .tx 0)
  | .changeAddr a => .command (commandWord 0x0B a 0 .tx 0)
  | .estop => .command (commandWord 0x0C 0 0 .tx 0)
  | .setTimeout => .command (commandWord 0x0D 0 0 .tx 0)
  | .wireChangeAddress n => .message [1, n]
  | .wireSetSensorType lo hi sub => .message (2 :: lo :: hi :: sub)
  | .wireReadValues req => .message (3 :: req)
  | .wireEmergencyStop => .message [4]
  | .wireSetTimeout t => .message (5 :: bytesOfWord t)

/-! ## Table words -/

/-- How many bytes follow the tag in the shortest payload of a message (30_encoding.md R126, R127). -/
def tailLength (tag : Nat) : Nat :=
  match tag with
  | 1 => 1
  | 2 => 2
  | 3 => minRequestBytes
  | 5 => 4
  | _ => 0

/-- The code of a table row's word: a row of more than 8 bits is a command word, a row of 8 bits is a message
tag, its operand bytes being 0 (log 8). -/
def codeOfTableWord (nbits w : Nat) : Code :=
  if nbits ≤ 8 then .message (BitVec.ofNat 8 w :: List.replicate (tailLength (w % 256)) 0)
  else .command (BitVec.ofNat 32 w)

/-- The instruction the decoder reads from a row's word of spec/opcode_table.json. -/
def decodeTableWord (nbits w : Nat) : Option Instr :=
  match decode (codeOfTableWord nbits w) with
  | .ok i => some i
  | .error _ => none

end Sys2Proof
end

