-- ==== Sys2Proof/Config.lean ====
section
/-! DEFINITION. What is fixed for this hardware, the parameters the model takes as an argument with their
defaults (00_scope.md R12), and the free values: the draws of the TRANSPORT (20_memory.md R96) and of a host
read while a command runs (20_memory.md R86). -/

namespace Sys2Proof

/-- The answer to `T.ReadByte()` (20_memory.md R95). -/
inductive ReadAnswer where
  | byte (b : Byte)
  | timeout
  | fail
deriving DecidableEq, Repr, Inhabited

/-- SENSOR_CODE, the table of sensor-type codes (10_state.md R47). -/
structure SensorCode where
  raw : Byte
  lightOff : Byte
  lightOn : Byte
  touch : Byte
  ultrasonicCont : Byte
  ultrasonicSs : Byte
  rcxLight : Byte
  colorFull : Byte
  colorRed : Byte
  colorGreen : Byte
  colorBlue : Byte
  colorNone : Byte
  i2c : Byte
  i2c9v : Byte
deriving DecidableEq, Repr

/-- The parameters a model of this hardware takes as an argument (00_scope.md R12; 92_eei_decisions.md D16,
D36, D37, D43). DESIGN CHOICE (log 19): the timeouts are 32-bit words, values below 2^32 ms; the spec gives them no
width (00_scope.md R13). Unsafe for a claim about every value. -/
structure Params where
  sensorCode : SensorCode
  tNegMs : Word
  tUpdMs : Word
  tAuxMs : Word
  txChecksumIncludesLength : Bool
deriving DecidableEq, Repr

namespace Config

/-- BUF_BITS (00_scope.md R12). -/
def bufBits : Nat := 2048

/-- MAX_PAYLOAD (00_scope.md R12). -/
def maxPayload : Nat := 255

/-- MAX_ATTEMPTS (00_scope.md R12). -/
def maxAttempts : Nat := 2

/-- SPEED_MAX; SPEED_MIN is its negative (00_scope.md R12). -/
def speedMax : Nat := 255

/-- ENC_OFFSET_MAX (00_scope.md R12). -/
def encOffsetMax : Nat := 2 ^ 30 - 1

/-- The limit of the update bitstream in bits (43_update.md R226). -/
def updateLimit : Nat := 2032

/-- The limit of the negotiation bitstream in bits (42_negotiation.md R195). -/
def negotiationLimit : Nat := 2016

/-- The default SENSOR_CODE table (10_state.md R47).
PRESUMED (log 2): the spec marks these numbers as general knowledge, not in its source. Unsafe for a claim
that rests on one of them. -/
def sensorCodeDefault : SensorCode :=
  { raw := 0, lightOff := 0, lightOn := 9, touch := 32, ultrasonicCont := 33, ultrasonicSs := 34,
    rcxLight := 35, colorFull := 36, colorRed := 37, colorGreen := 38, colorBlue := 39, colorNone := 40,
    i2c := 41, i2c9v := 42 }

/-- The parameters' defaults (00_scope.md R12). -/
def paramsDefault : Params :=
  { sensorCode := sensorCodeDefault, tNegMs := 2500, tUpdMs := 7500, tAuxMs := 2500,
    txChecksumIncludesLength := false }

/-- Free value: the answer to `T.IsOpen()` (20_memory.md R96; log 3). -/
opaque isOpenDraw : Nat → Bool

/-- Free value: the answer to `T.Open()`, true for OK (20_memory.md R96; log 3). -/
opaque openDraw : Nat → Bool

/-- Free value: the answer to `T.Write(frame)`, true for OK (20_memory.md R96; log 3). -/
opaque writeDraw : Nat → Bool

/-- Free value: the answer to `T.ReadByte()` (20_memory.md R96; log 3). -/
opaque readDraw : Nat → ReadAnswer

/-- Free value: the word a host read returns while the host must poll (20_memory.md R86; 70_reset_and_hazards.md
R310; log 4). -/
opaque busyReadDraw : Nat → Word

end Config

end Sys2Proof
end

