-- ==== Sys2Proof/Machine/State.lean ====
section
/-! DEFINITION. The state of the engine (10_state.md R30 to R61) with the agents around it as plain data, the
reasons a step can stop, and the state after reset. -/

namespace Sys2Proof.Machine

/-- A byte memory: (host byte address, byte) pairs, addresses strictly rising, no entry 0 (an unlisted address
reads 0, the reset value of every byte array: 10_state.md R61; log 12). -/
abbrev Memory := List Host.Cell

/-- The canonical form of a memory. -/
abbrev Memory.wf (m : Memory) : Prop := m.Pairwise (fun c d => c.1 < d.1) ∧ ∀ c ∈ m, c.2 ≠ 0

/-- The error kinds, in the order of their STATUS.ERR codes 0..6 (60_exceptions.md R270). -/
inductive ErrKind where
  | ok
  | validation
  | checksum
  | comm
  | protocol
  | illegal
  | bounds
deriving DecidableEq, Repr

/-- STATUS (10_state.md R35); its reserved bits hold nothing (RAZ/WI). -/
structure Status where
  busy : Bool
  done : Bool
  verr : Bool
  underrun : Bool
  err : ErrKind
  seg : SegIx
  attempts : BitVec 2
  rxlen : Byte
deriving DecidableEq, Repr

/-- One I2C device slot (10_state.md R51). -/
structure Dev where
  addr : Byte
  mid : Bool
  same : Bool
  wlen : BitVec 4
  rlen : BitVec 4
deriving DecidableEq, Repr

/-- The channel state of one port (10_state.md R42 to R51); its I2C byte arrays are in memory. -/
structure Port where
  en : Bool
  speed : Word
  encOffset : Word
  encoder : Word
  code : Byte
  raw : Word
  color : Vector (BitVec 10) 4
  i2cSpeed : Byte
  devCount : Byte
  dev : Vector Dev 8
deriving DecidableEq, Repr

/-- The sequencer state `fsm` (10_state.md R58). -/
inductive Fsm where
  | idle
  | run
  | opening
  | send
  | rxChk
  | rxLen
  | rxPay
deriving DecidableEq, Repr

/-- The result of an exchange (41_frame.md R173); the length of an OK reply is in `rxLen`. -/
inductive Reply where
  | ok
  | checksum
  | comm
deriving DecidableEq, Repr

/-- The program point `pt` inside `fsm` RUN (10_state.md R57, R59; log 6). -/
inductive Point where
  /-- the command's first internal step -/
  | start
  /-- the begin of the cycle of segment `g` (`NegotiateSegment`, `UpdateSegment`) -/
  | enter (g : SegIx)
  /-- the begin of an attempt: bookkeeping and the build of the request -/
  | build
  /-- before `T.IsOpen()` (41_frame.md R170) -/
  | isOpen
  /-- before `T.SetTimeout` (41_frame.md R173) -/
  | setTimeout
  /-- the transport procedure has returned `r` to the command -/
  | ret (r : Reply)
  /-- the completion with error kind `k` (60_exceptions.md R278, R281) -/
  | finish (k : ErrKind)
deriving DecidableEq, Repr

/-- Which transport procedure is in progress (41_frame.md R171, R173, R178). -/
inductive XferKind where
  /-- `Transmit`: FRAME_TX -/
  | transmit
  /-- `Exchange`: every message -/
  | exchange
  /-- `EnsureOpen`, `SetTimeout`, `Receive`: FRAME_RX -/
  | receive
deriving DecidableEq, Repr

/-- The arguments of the transport procedure in progress, part of the program point (log 7). -/
structure Xfer where
  kind : XferKind
  addr : Byte
  payload : List Byte
  tms : Word
deriving DecidableEq, Repr

/-- A host access (20_memory.md R81): a read or a write of `size` bytes at a byte address. -/
inductive HostAccess where
  | read (a : Addr) (size : Nat)
  | write (a : Addr) (size : Nat) (v : Word)
deriving DecidableEq, Repr

/-- Who moves at a step (00_scope.md R10, R11; 60_exceptions.md R279). An ENGINE turn is one internal step or
one transport request with its answer. -/
inductive Turn where
  | host (x : HostAccess)
  | engine
  | reset
deriving DecidableEq, Repr

/-- An entry of the event history (20_memory.md R101). -/
inductive Event where
  /-- a host read with its value -/
  | hostRead (a : Addr) (v : Word)
  /-- a host write; `stored` is false when the validation rejected it (10_state.md R33) -/
  | hostWrite (a : Addr) (v : Word) (stored : Bool)
  /-- a host access whose result is a fault (60_exceptions.md R276; log 14) -/
  | faulted (x : HostAccess)
  | isOpen (answer : Bool)
  | opened (ok : Bool)
  | setTimeout (ms : Word)
  | wrote (frame : List Byte) (ok : Bool)
  | readByte (answer : ReadAnswer)
  | reset
deriving DecidableEq, Repr

/-- What is around the engine, as plain data: who moves next, the TRANSPORT's coming answers (behind each list
stands a draw of `Config`), the number of draws taken, the history (newest first), the parameters, and the HOST's
duty to poll: `unpolled` is true from a host write to CMD until the host has read STATUS with BUSY = 0
(70_reset_and_hazards.md R310; log 18). None of it is state of the engine (10_state.md R30; log 1 to 5, 14). -/
structure Env where
  turns : List Turn
  isOpenAnswers : List Bool
  openAnswers : List Bool
  writeAnswers : List Bool
  readAnswers : List ReadAnswer
  draws : Nat
  history : List Event
  params : Params
  unpolled : Bool
deriving DecidableEq, Repr

/-- The state. -/
structure State where
  cmd : Word
  status : Status
  arg0 : Word
  result : Word
  cursor : BitVec 12
  ports : Vector Port 4
  mem : Memory
  fsm : Fsm
  seg : SegIx
  attempt : BitVec 2
  rxChk : Byte
  rxLen : Byte
  rxIdx : Byte
  pt : Point
  xfer : Xfer
  auxErr : ErrKind
  auxSeg : SegIx
  env : Env
deriving DecidableEq, Repr

/-- The model faults (60_exceptions.md R276). Both are safe: a claim about a host program must show that the
program reaches none. Each carries the history of the refuted run, its newest entry the faulting access
(20_memory.md R101; log 14). -/
inductive Fault where
  /-- Raised by a host access that is not an aligned 32-bit word access or is to an unmapped address
  (20_memory.md R81, R82). Safe. -/
  | busError (record : List Event)
  /-- Raised by a host write other than to STATUS while BUSY = 1 (20_memory.md R86), or after a write to CMD before
  the host has read STATUS with BUSY = 0 (70_reset_and_hazards.md R310). Safe. -/
  | hostContractViolation (record : List Event)
deriving DecidableEq, Repr

/-- The refusals. No arm of `exec` raises one. -/
inductive Refusal where
  /-- Raised by the dispatch for an instruction without a meaning; none is left. Safe. -/
  | notModelled (mnemonic : String)
deriving DecidableEq, Repr

/-! ## Reset (10_state.md R61; 70_reset_and_hazards.md R300) -/

/-- STATUS after reset. -/
def Status.reset : Status :=
  { busy := false, done := false, verr := false, underrun := false, err := .ok, seg := 0, attempts := 0, rxlen := 0 }

/-- A device slot after reset. -/
def Dev.reset : Dev := { addr := 0, mid := false, same := false, wlen := 0, rlen := 0 }

/-- A port after reset. -/
def Port.reset : Port :=
  { en := false, speed := 0, encOffset := 0, encoder := 0, code := 0, raw := 0, color := Vector.replicate 4 0,
    i2cSpeed := 0, devCount := 0, dev := Vector.replicate 8 Dev.reset }

/-- No transport procedure is in progress. -/
def Xfer.reset : Xfer := { kind := .transmit, addr := 0, payload := [], tms := 0 }

/-- The surroundings at the beginning: nothing scheduled, nothing answered, nothing recorded, nothing to poll for
(log 18), the parameters at the spec's defaults. DESIGN CHOICE (log 1): the spec gives these no reset value, since they
are no state of the engine. -/
def Env.reset : Env :=
  { turns := [], isOpenAnswers := [], openAnswers := [], writeAnswers := [], readAnswers := [], draws := 0,
    history := [], params := Config.paramsDefault, unpolled := false }

/-- The machine right after reset: every register field, buffer byte and hidden register 0, `fsm` IDLE
(10_state.md R61). -/
def State.reset : State :=
  { cmd := 0, status := Status.reset, arg0 := 0, result := 0, cursor := 0, ports := Vector.replicate 4 Port.reset,
    mem := [], fsm := .idle, seg := 0, attempt := 0, rxChk := 0, rxLen := 0, rxIdx := 0, pt := .start,
    xfer := Xfer.reset, auxErr := .ok, auxSeg := 0, env := Env.reset }

end Sys2Proof.Machine
end

