-- ==== Sys2Proof/Machine/Flags.lean ====
section
/-! DEFINITION. Every computation over the STATUS fields (10_state.md R35, R60) and the codes of the error
kinds (60_exceptions.md R270). -/

namespace Sys2Proof.Machine

/-- The STATUS.ERR code of an error kind (60_exceptions.md R270). -/
def ErrKind.code : ErrKind → BitVec 4
  | .ok => 0
  | .validation => 1
  | .checksum => 2
  | .comm => 3
  | .protocol => 4
  | .illegal => 5
  | .bounds => 6

/-- One bit from a flag. -/
def bit (b : Bool) : BitVec 1 := if b then 1 else 0

/-- The word a host read of STATUS returns (10_state.md R35); reserved bits read 0. -/
def Status.toWord (st : Status) : Word :=
  0#8 ++ st.rxlen ++ 0#5 ++ st.attempts ++ BitVec.ofNat 1 st.seg.val ++ st.err.code ++ bit st.underrun ++
    bit st.verr ++ bit st.done ++ bit st.busy

/-- A command starts (60_exceptions.md R280). -/
def Status.started (st : Status) : Status :=
  { st with busy := true, done := false, err := .ok, underrun := false }

/-- A command completes with error kind `k` (60_exceptions.md R281). -/
def Status.completed (k : ErrKind) (st : Status) : Status :=
  { st with err := k, busy := false, done := true }

/-- A host write to STATUS: writing 1 to bit 2 clears VERR, nothing else changes (10_state.md R35; 20_memory.md
R83). -/
def Status.hostWrite (v : Word) (st : Status) : Status :=
  { st with verr := st.verr && !v.getLsbD 2 }

/-- A validated write was rejected (10_state.md R33). -/
def Status.rejected (st : Status) : Status := { st with verr := true }

/-- The error kind of an exchange's result (41_frame.md R172; 60_exceptions.md R272, R273). -/
def Reply.err : Reply → ErrKind
  | .ok => .ok
  | .checksum => .checksum
  | .comm => .comm

end Sys2Proof.Machine
end

