-- ==== Sys2Proof/Machine/Operands.lean ====
section
/-! DEFINITION. Operand forms of the commands (30_encoding.md R111, R112), the ports of a segment, the
classification of sensor types (10_state.md R47) and the arithmetic primitives on field values (40_bitstream.md
R157 to R159). -/

namespace Sys2Proof.Machine

/-! ## Command operands -/

/-- A segment operand: 0 or 1; above 1 there is none (42_negotiation.md R191, 43_update.md R211). -/
def segOperand (a : Byte) : Option SegIx :=
  match a.toNat with
  | 0 => some 0
  | 1 => some 1
  | _ => none

/-- The byte operand in ARG0: a value above 255 is none (41_frame.md R177; 44_aux_messages.md R250). -/
def byteOperand (arg0 : Word) : Option Byte :=
  if arg0.toNat ≤ 255 then some (arg0.setWidth 8) else none

/-- The start bit address `8·A + B + CURSOR` (30_encoding.md R111). -/
def startBit (a : Byte) (b : BitVec 3) (cursor : BitVec 12) : Nat := 8 * a.toNat + b.toNat + cursor.toNat

/-! ## Segments and ports (00_scope.md R12; 10_state.md R46) -/

/-- Port `2s` of segment `s`. -/
def lowPort (g : SegIx) : PortIx := ⟨2 * g.val, by omega⟩

/-- Port `2s+1` of segment `s`. -/
def highPort (g : SegIx) : PortIx := ⟨2 * g.val + 1, by omega⟩

/-- SEG_PORTS(s), in port order. -/
def segPorts (g : SegIx) : List PortIx := [lowPort g, highPort g]

/-- SEG_ADDR(s) = s + 1. -/
def segAddr (g : SegIx) : Byte := BitVec.ofNat 8 (g.val + 1)

/-! ## Sensor classes (10_state.md R47) -/

/-- The decode class of a sensor type. -/
inductive SensorClass where
  | touch
  | ultrasonic
  | colorFull
  | i2c
  | default
deriving DecidableEq, Repr

/-- `Classify(c)`; a code that is in no row is DEFAULT. -/
def classify (t : SensorCode) (c : Byte) : SensorClass :=
  if c = t.touch then .touch
  else if c = t.ultrasonicCont ∨ c = t.ultrasonicSs then .ultrasonic
  else if c = t.colorFull then .colorFull
  else if c = t.i2c ∨ c = t.i2c9v then .i2c
  else .default

/-- The class of a port under the table of the machine. -/
def Port.sensorClass (t : SensorCode) (p : Port) : SensorClass := classify t p.code

/-- The device slots in use, `0..DEVCOUNT-1`; there is no slot above 7. -/
def Port.slots (p : Port) : List SlotIx := (List.finRange 8).filter (fun d => d.val < p.devCount.toNat)

/-- DEVCOUNT is in [1, 8] (43_update.md R225). -/
def Port.devCountInRange (p : Port) : Bool := decide (1 ≤ p.devCount.toNat) && decide (p.devCount.toNat ≤ 8)

/-- `min(max(DEVCOUNT, 1), 8)` (42_negotiation.md R192). -/
def clampDevCount (n : Byte) : Byte := BitVec.ofNat 8 (min (max n.toNat 1) 8)

/-- SETTINGS = MID + 2·SAME (10_state.md R51). -/
def Dev.settings (d : Dev) : Nat := d.mid.toNat + 2 * d.same.toNat

/-! ## Field values -/

/-- `BitsNeeded(v)` (40_bitstream.md R157). -/
def bitsNeeded (v : Nat) : Nat := if v = 0 then 0 else Nat.log2 v + 1

/-- `SMEncode(x)`: the width and the field value (40_bitstream.md R158). -/
def smEncode (x : Int) : Nat × Nat :=
  (bitsNeeded x.natAbs + 1, 2 * x.natAbs + (if x < 0 then 1 else 0))

/-- `SMDecode(v)` (40_bitstream.md R159). -/
def smDecode (v : Nat) : Int := if v % 2 = 1 then -((v / 2 : Nat) : Int) else ((v / 2 : Nat) : Int)

/-- `clamp(x, lo, hi)` on naturals (00_scope.md R13). -/
def clamp (x lo hi : Nat) : Nat := min (max x lo) hi

/-- `ceil8(b)`: the whole bytes that hold `b` bits (00_scope.md R13). -/
def ceil8 (b : Nat) : Nat := (b + 7) / 8

/-- `MotorWord(p)`, 10 bits (30_encoding.md R131). -/
def motorWord (p : Port) : Nat :=
  4 * clamp p.speed.toInt.natAbs 0 Config.speedMax + 2 * (if p.speed.toInt < 0 then 1 else 0) + p.en.toNat

/-- A host write of MOTOR_SPEED is accepted (10_state.md R43). -/
def speedAccepted (v : Word) : Bool := decide (v.toInt.natAbs ≤ Config.speedMax)

/-- A host write of ENC_OFFSET is accepted (10_state.md R44). -/
def offsetAccepted (v : Word) : Bool := decide (v.toInt.natAbs ≤ Config.encOffsetMax)

end Sys2Proof.Machine
end

