-- ==== Sys2Proof/Machine/Ops.lean ====
section
/-! DEFINITION. The named operations over memory, registers and the transport that the meanings share: byte
and bit access, the start and completion of a command (the trap entry and return of this hardware,
60_exceptions.md R278, R280, R281), the bitstream primitives (40_bitstream.md R150 to R152), the frame
checksums (30_encoding.md R120 to R123), the transport requests (20_memory.md R95) and the exchange state
machine (41_frame.md R170 to R176). -/

namespace Sys2Proof.Machine

/-! ## Byte memory (log 12) -/

/-- The byte at an address; an unlisted address reads 0 (10_state.md R61). -/
def Memory.read : Memory → Nat → Byte
  | [], _ => 0
  | c :: m, a => if c.1 = a then c.2 else Memory.read m a

/-- Store a byte, keeping the canonical form. -/
def Memory.write : Memory → Nat → Byte → Memory
  | [], a, b => if b = 0 then [] else [(a, b)]
  | c :: m, a, b =>
    if a < c.1 then (if b = 0 then c :: m else (a, b) :: c :: m)
    else if a = c.1 then (if b = 0 then m else (a, b) :: m)
    else c :: Memory.write m a b

/-- Set the `n` bytes from `lo` to 0. -/
def Memory.clear (m : Memory) (lo n : Nat) : Memory :=
  m.filter (fun c => decide (c.1 < lo) || decide (lo + n ≤ c.1))

/-- Store consecutive bytes from `a`. -/
def Memory.writeBytes (m : Memory) (a : Nat) : List Byte → Memory
  | [] => m
  | b :: bs => Memory.writeBytes (m.write a b) (a + 1) bs

/-- The `n` bytes from `a`. -/
def Memory.readBytes (m : Memory) (a n : Nat) : List Byte := (List.range n).map (fun i => m.read (a + i))

/-- A host word of a byte array, little-endian (20_memory.md R84). -/
def Memory.readWord (m : Memory) (a : Nat) : Word :=
  wordOfBytes (m.read a) (m.read (a + 1)) (m.read (a + 2)) (m.read (a + 3))

/-- Store a host word into a byte array, little-endian (20_memory.md R84). -/
def Memory.writeWord (m : Memory) (a : Nat) (v : Word) : Memory := m.writeBytes a (bytesOfWord v)

/-! ## Where the byte arrays lie (10_state.md R31, R52 to R55) -/

/-- The first address of the byte arrays. -/
def arrayBase : Nat := 0x400

/-- The address after the byte arrays. -/
def arrayEnd : Nat := 0xA00

/-- TX[0]. -/
def txBase : Nat := 0x800

/-- RX[0]. -/
def rxBase : Nat := 0x900

/-- I2C_OUT[p][d][k]. -/
def i2cOutAddr (p : PortIx) (d : SlotIx) (k : Nat) : Nat := 0x400 + 0x80 * p.val + 0x10 * d.val + k

/-- I2C_IN[p][d][k]. -/
def i2cInAddr (p : PortIx) (d : SlotIx) (k : Nat) : Nat := 0x600 + 0x80 * p.val + 0x10 * d.val + k

/-- The base of the buffer S selects (30_encoding.md R110). -/
def bufBase : BufSel → Nat
  | .tx => txBase
  | .rx => rxBase

/-! ## Registers -/

/-- `P[p]`. -/
def State.port (s : State) (p : PortIx) : Port := s.ports[p.val]

/-- `P[p] <- x`. -/
def State.setPort (s : State) (p : PortIx) (x : Port) : State := { s with ports := s.ports.set p.val x }

/-- `R.CURSOR <- c`. -/
def State.setCursor (s : State) (c : BitVec 12) : State := { s with cursor := c }

/-- `R.RESULT <- v`. -/
def State.setResult (s : State) (v : Word) : State := { s with result := v }

/-- The byte arrays become `m`. -/
def State.setMem (s : State) (m : Memory) : State := { s with mem := m }

/-- STATUS becomes `st`. -/
def State.setStatus (s : State) (st : Status) : State := { s with status := st }

/-- The surroundings become `e`. -/
def State.setEnv (s : State) (e : Env) : State := { s with env := e }

/-- `fsm <- f` and the program point becomes `p`. -/
def State.goto (s : State) (f : Fsm) (p : Point) : State := { s with fsm := f, pt := p }

/-- `seg <- g`. -/
def State.setSeg (s : State) (g : SegIx) : State := { s with seg := g }

/-- `attempt <- n` and `R.STATUS.ATTEMPTS <- n`. -/
def State.setAttempts (s : State) (n : BitVec 2) : State :=
  { s with attempt := n, status := { s.status with attempts := n } }

/-- `R.STATUS.SEG <- g`. -/
def State.setStatusSeg (s : State) (g : SegIx) : State := { s with status := { s.status with seg := g } }

/-- TX[i]. -/
def State.tx (s : State) (i : Nat) : Byte := s.mem.read (txBase + i)

/-- RX[i]. -/
def State.rx (s : State) (i : Nat) : Byte := s.mem.read (rxBase + i)

/-- SENSOR_CODE of this machine. -/
def State.sensorCode (s : State) : SensorCode := s.env.params.sensorCode

/-- The class of port `p`. -/
def State.portClass (s : State) (p : PortIx) : SensorClass := (s.port p).sensorClass s.sensorCode

/-! ## Start and completion of a command -/

/-- Command start: a host write of `v` to CMD while BUSY = 0 (60_exceptions.md R280). From here on the host has to
poll (70_reset_and_hazards.md R310). -/
def startCommand (v : Word) (s : State) : State :=
  { s with
    cmd := v, status := s.status.started, fsm := .run, pt := .start, env := { s.env with unpolled := true } }

/-- Command completion with error kind `k`, 0 if nothing was raised (60_exceptions.md R281). `raise Error(k)`
ends the command at once by it (60_exceptions.md R278). -/
def complete (k : ErrKind) (s : State) : State :=
  { s with status := s.status.completed k, fsm := .idle, pt := .start }

/-- The reset event: the engine's state is the reset state; the TRANSPORT, the record and the parameters stay
(70_reset_and_hazards.md R300; log 11). No command is left to poll for (log 18). -/
def resetEvent (s : State) : State :=
  State.reset.setEnv { s.env with history := .reset :: s.env.history, unpolled := false }

/-! ## Bitstream primitives (40_bitstream.md R150 to R152) -/

/-- Bit `q` of the buffer at `base`: bit q mod 8 of byte q div 8 (20_memory.md R90). -/
def Memory.bit (m : Memory) (base q : Nat) : Bool := (m.read (base + q / 8)).getLsbD (q % 8)

/-- A byte with bit `i` assigned. -/
def assignBit (x : Byte) (i : Nat) (b : Bool) : Byte :=
  if b then x ||| BitVec.twoPow 8 i else x &&& ~~~(BitVec.twoPow 8 i)

/-- Assign bit `q` of the buffer at `base` (40_bitstream.md R150). -/
def Memory.setBit (m : Memory) (base q : Nat) (b : Bool) : Memory :=
  m.write (base + q / 8) (assignBit (m.read (base + q / 8)) (q % 8) b)

/-- Assign bits 0..w-1 of `v` to bits q..q+w-1 of the buffer at `base`. -/
def Memory.storeBits (m : Memory) (base q : Nat) (v : Word) : Nat → Memory
  | 0 => m
  | w + 1 => (Memory.storeBits m base q v w).setBit base (q + w) (v.getLsbD w)

/-- The unsigned value of bits q..q+w-1 of the buffer at `base` (40_bitstream.md R151). -/
def Memory.loadBits (m : Memory) (base q : Nat) : Nat → Word
  | 0 => 0
  | w + 1 => Memory.loadBits m base q w ||| (if m.bit base (q + w) then BitVec.twoPow 32 w else 0)

/-- `CheckRange(q0, w)` (40_bitstream.md R152). -/
def inRange (q0 w : Nat) : Bool := decide (q0 + w ≤ Config.bufBits)

/-- The cursor advanced by a width. -/
def advance (c : BitVec 12) (w : Nat) : BitVec 12 := c + BitVec.ofNat 12 w

/-- `WriteBits(buf, byteOff, bitOff, w, v)`; none is the error BOUNDS (40_bitstream.md R150). -/
def writeBits (buf : BufSel) (byteOff : Byte) (bitOff : BitVec 3) (w : Nat) (v : Word) (s : State) : Option State :=
  if inRange (startBit byteOff bitOff s.cursor) w then
    some ((s.setMem (s.mem.storeBits (bufBase buf) (startBit byteOff bitOff s.cursor) v w)).setCursor (advance s.cursor w))
  else none

/-- `ReadBits(buf, byteOff, bitOff, w)`; none is the error BOUNDS (40_bitstream.md R151). -/
def readBits (buf : BufSel) (byteOff : Byte) (bitOff : BitVec 3) (w : Nat) (s : State) : Option (Word × State) :=
  if inRange (startBit byteOff bitOff s.cursor) w then
    some (s.mem.loadBits (bufBase buf) (startBit byteOff bitOff s.cursor) w, s.setCursor (advance s.cursor w))
  else none

/-! ## Request builds (42_negotiation.md R193, R195; 43_update.md R218, R226) -/

/-- A field of a request bitstream: its width and its value. -/
abbrev Field := Nat × Word

/-- `PutN` and `PutU`: write a field at the cursor of the stream that starts at byte `off` of TX_BUF, or fail
with VALIDATION when the stream would pass `limit` bits (42_negotiation.md R195, 43_update.md R226). -/
def putField (limit : Nat) (off : Byte) (f : Field) (s : State) : State × ErrKind :=
  if s.cursor.toNat + f.1 > limit then (s, .validation)
  else match writeBits .tx off 0 f.1 f.2 s with
    | some s' => (s', .ok)
    | none => (s, .bounds)

/-- Write fields in order until one fails; what was written before it stays. -/
def putFields (limit : Nat) (off : Byte) : List Field → State → State × ErrKind
  | [], s => (s, .ok)
  | f :: fs, s =>
    match putField limit off f s with
    | (s', .ok) => putFields limit off fs s'
    | (s', k) => (s', k)

/-- `for i in 0..255: TX[i] <- 0` and `R.CURSOR <- 0`. -/
def clearTx (s : State) : State := (s.setMem (s.mem.clear txBase 256)).setCursor 0

/-- `TX[i] <- b` for the first bytes of a payload. -/
def setHeader (bs : List Byte) (s : State) : State := s.setMem (s.mem.writeBytes txBase bs)

/-- TX[0..L-1]. -/
def txBytes (s : State) (n : Nat) : List Byte := s.mem.readBytes txBase n

/-- Build a request in TX_BUF: clear it, write the header bytes, then the fields from the byte after the
header. Answers the error kind and the payload length (42_negotiation.md R193, 43_update.md R218). -/
def buildRequest (limit : Nat) (header : List Byte) (fields : List Field) (s : State) : State × ErrKind × Nat :=
  let r := putFields limit (BitVec.ofNat 8 header.length) fields (setHeader header (clearTx s))
  (r.1, r.2, header.length + ceil8 r.1.cursor.toNat)

/-! ## Frames (30_encoding.md R120 to R124) -/

/-- The sum of the bytes of a payload. -/
def byteSum (p : List Byte) : Nat := (p.map BitVec.toNat).sum

/-- `TxChecksum(addr, payload)` (30_encoding.md R122). -/
def txChecksum (withLength : Bool) (addr : Byte) (p : List Byte) : Byte :=
  BitVec.ofNat 8 ((addr.toNat + byteSum p + (if withLength then p.length else 0)) % 256)

/-- `FrameEncode(addr, payload)` (30_encoding.md R120). -/
def frameEncode (withLength : Bool) (addr : Byte) (p : List Byte) : List Byte :=
  [addr, txChecksum withLength addr p, BitVec.ofNat 8 p.length] ++ p

/-- The checksum of a reply with length byte `n` and payload `p` (30_encoding.md R123). -/
def rxChecksum (n : Byte) (p : List Byte) : Byte := BitVec.ofNat 8 ((n.toNat + byteSum p) % 256)

/-! ## Transport requests (20_memory.md R95, R96, R101): the answer is the next one of the TRANSPORT's list, or
a draw when the list has run out (log 3) -/

/-- Append an event to the record. -/
def Env.note (e : Env) (x : Event) : Env := { e with history := x :: e.history }

/-- `T.IsOpen()`. -/
def Env.askIsOpen (e : Env) : Bool × Env :=
  match e.isOpenAnswers with
  | a :: rest => (a, { e with isOpenAnswers := rest }.note (.isOpen a))
  | [] => (Config.isOpenDraw e.draws, { e with draws := e.draws + 1 }.note (.isOpen (Config.isOpenDraw e.draws)))

/-- `T.Open()`. -/
def Env.askOpen (e : Env) : Bool × Env :=
  match e.openAnswers with
  | a :: rest => (a, { e with openAnswers := rest }.note (.opened a))
  | [] => (Config.openDraw e.draws, { e with draws := e.draws + 1 }.note (.opened (Config.openDraw e.draws)))

/-- `T.Write(bytes)`. -/
def Env.askWrite (e : Env) (frame : List Byte) : Bool × Env :=
  match e.writeAnswers with
  | a :: rest => (a, { e with writeAnswers := rest }.note (.wrote frame a))
  | [] =>
    (Config.writeDraw e.draws, { e with draws := e.draws + 1 }.note (.wrote frame (Config.writeDraw e.draws)))

/-- `T.ReadByte()`. -/
def Env.askRead (e : Env) : ReadAnswer × Env :=
  match e.readAnswers with
  | a :: rest => (a, { e with readAnswers := rest }.note (.readByte a))
  | [] => (Config.readDraw e.draws, { e with draws := e.draws + 1 }.note (.readByte (Config.readDraw e.draws)))

/-! ## The exchange (41_frame.md R170 to R176) -/

/-- The transport procedure returns `r` to the command: `fsm` RUN. -/
def returnReply (r : Reply) (s : State) : State := s.goto .run (.ret r)

/-- Call a transport procedure with arguments `x`: its first request is `T.IsOpen()` (41_frame.md R170). -/
def callTransport (x : Xfer) (s : State) : State := { s with xfer := x, fsm := .run, pt := .isOpen }

/-- The link is open: `Transmit` writes, the others set the timeout first (41_frame.md R171, R173, R178). -/
def linkOpen (x : Xfer) (s : State) : State :=
  match x.kind with
  | .transmit => s.goto .send .isOpen
  | .exchange => s.goto .run .setTimeout
  | .receive => s.goto .run .setTimeout

/-- The begin of `Receive()`: RX_BUF cleared, `rxIdx` 0, waiting for the checksum byte (41_frame.md R172). -/
def beginReceive (s : State) : State :=
  { s with mem := s.mem.clear rxBase 256, rxIdx := 0, fsm := .rxChk, pt := .setTimeout }

/-- The checksum test of a complete reply (41_frame.md R172). -/
def checkReply (s : State) : State :=
  if rxChecksum s.rxLen (s.mem.readBytes rxBase s.rxLen.toNat) = s.rxChk then returnReply .ok s
  else returnReply .checksum s

/-- The length byte `n` has come (41_frame.md R176). -/
def takeLength (n : Byte) (s : State) : State :=
  let s' := { s with rxLen := n, status := { s.status with rxlen := n } }
  if n = 0 then checkReply s' else s'.goto .rxPay .setTimeout

/-- The payload byte `b` has come (41_frame.md R176). -/
def takePayload (b : Byte) (s : State) : State :=
  let s' := { s with mem := s.mem.write (rxBase + s.rxIdx.toNat) b, rxIdx := s.rxIdx + 1 }
  if s.rxIdx.toNat + 1 < s.rxLen.toNat then s' else checkReply s'

/-- One transport request of the procedure with arguments `x`, with its answer: a row of the table of
41_frame.md R176. At a point that waits for no request it changes nothing. -/
def linkStep (x : Xfer) (s : State) : State :=
  match s.fsm with
  | .idle => s
  | .run =>
    match s.pt with
    | .isOpen =>
      let q := s.env.askIsOpen
      if q.1 then linkOpen x (s.setEnv q.2) else (s.setEnv q.2).goto .opening .isOpen
    | .setTimeout =>
      let s' := s.setEnv (s.env.note (.setTimeout x.tms))
      match x.kind with
      | .receive => beginReceive s'
      | .exchange => s'.goto .send .setTimeout
      | .transmit => s'.goto .send .setTimeout
    | .start => s
    | .enter _ => s
    | .build => s
    | .ret _ => s
    | .finish _ => s
  | .opening =>
    let q := s.env.askOpen
    if q.1 then linkOpen x (s.setEnv q.2) else returnReply .comm (s.setEnv q.2)
  | .send =>
    let q := s.env.askWrite (frameEncode s.env.params.txChecksumIncludesLength x.addr x.payload)
    if q.1 then
      match x.kind with
      | .transmit => returnReply .ok (s.setEnv q.2)
      | .exchange => beginReceive (s.setEnv q.2)
      | .receive => beginReceive (s.setEnv q.2)
    else returnReply .comm (s.setEnv q.2)
  | .rxChk =>
    let q := s.env.askRead
    match q.1 with
    | .byte c => { s.setEnv q.2 with rxChk := c, fsm := .rxLen }
    | .timeout => returnReply .comm (s.setEnv q.2)
    | .fail => returnReply .comm (s.setEnv q.2)
  | .rxLen =>
    let q := s.env.askRead
    match q.1 with
    | .byte n => takeLength n (s.setEnv q.2)
    | .timeout => returnReply .comm (s.setEnv q.2)
    | .fail => returnReply .comm (s.setEnv q.2)
  | .rxPay =>
    let q := s.env.askRead
    match q.1 with
    | .byte b => takePayload b (s.setEnv q.2)
    | .timeout => returnReply .comm (s.setEnv q.2)
    | .fail => returnReply .comm (s.setEnv q.2)

/-! ## The sequencer of a command -/

/-- One step of a command at its program point: its own internal steps at `start`, `enter`, `build` and `ret`,
the completion at `finish`, and one request of the transport procedure in progress elsewhere (10_state.md R57,
R58). An idle engine runs no command. -/
def atPoint (onStart : State → State) (onEnter : SegIx → State → State) (onBuild : State → State)
    (onRet : Reply → State → State) (s : State) : State :=
  match s.fsm with
  | .idle => s
  | .run =>
    match s.pt with
    | .start => onStart s
    | .enter g => onEnter g s
    | .build => onBuild s
    | .isOpen => linkStep s.xfer s
    | .setTimeout => linkStep s.xfer s
    | .ret r => onRet r s
    | .finish k => complete k s
  | .opening => linkStep s.xfer s
  | .send => linkStep s.xfer s
  | .rxChk => linkStep s.xfer s
  | .rxLen => linkStep s.xfer s
  | .rxPay => linkStep s.xfer s

/-- A command that has no such program point (log 16). -/
def noEnter (_ : SegIx) (s : State) : State := s

/-- A command that builds no request has no `build` point (log 16). -/
def noBuild (s : State) : State := s

/-- A reply is exactly one byte equal to the tag (30_encoding.md R136, R144). -/
def isAck (tag : Byte) (s : State) : Bool := decide (s.rxLen = 1) && decide (s.rx 0 = tag)

/-- The error kind of an acknowledged message: the exchange's error, or PROTOCOL for a reply of another shape
(42_negotiation.md R196, 44_aux_messages.md R253). -/
def ackErr (tag : Byte) (r : Reply) (s : State) : ErrKind :=
  match r with
  | .ok => if isAck tag s then .ok else .protocol
  | .checksum => .checksum
  | .comm => .comm

end Sys2Proof.Machine
end

