-- ==== Sys2Proof/Machine/Auxiliary.lean ====
section
/-! DEFINITION. The auxiliary message family: CHANGE_ADDR, ESTOP and SET_TIMEOUT (44_aux_messages.md R250 to
R255). -/

namespace Sys2Proof.Machine

/-- `AuxExchange(addr, payload)` up to the exchange: attempt 1, timeout T_AUX_MS (44_aux_messages.md R253). -/
def auxCall (addr : Byte) (payload : List Byte) (s : State) : State :=
  callTransport { kind := .exchange, addr := addr, payload := payload, tms := s.env.params.tAuxMs } (s.setAttempts 1)

/-- CHANGE_ADDR at its start: the operand check, then the message `[1, ARG0[7:0]]` to address A
(44_aux_messages.md R250). -/
def changeAddrStart (a : Byte) (s : State) : State :=
  match byteOperand s.arg0 with
  | none => complete .validation s
  | some n => auxCall a [1, n] s

/-- CHANGE_ADDR after the exchange (44_aux_messages.md R250). -/
def changeAddrRet (r : Reply) (s : State) : State := complete (ackErr 1 r s) s

/-- CHANGE_ADDR (44_aux_messages.md R250). -/
def execChangeAddr (a : Byte) (s : State) : Host.Outcome State Fault Refusal :=
  .next (atPoint (changeAddrStart a) noEnter noBuild changeAddrRet s)

/-- `AuxExchange(s + 1, payload)` of segment g in a broadcast (44_aux_messages.md R251, R252). -/
def broadcastEnter (payload : List Byte) (g : SegIx) (s : State) : State := auxCall (segAddr g) payload (s.setSeg g)

/-- The begin of a broadcast: `err <- OK; fseg <- 1`, then segment 0 (44_aux_messages.md R251, R252). -/
def broadcastStart (payload : List Byte) (s : State) : State :=
  broadcastEnter payload 0 { s with auxErr := .ok, auxSeg := 1 }

/-- Record the first segment's error (44_aux_messages.md R251, R252). -/
def noteAuxErr (k : ErrKind) (s : State) : State :=
  if k ≠ .ok ∧ s.auxErr = .ok then { s with auxErr := k, auxSeg := s.seg } else s

/-- The end of a broadcast: STATUS.SEG names the segment whose error is reported, else 1 (44_aux_messages.md
R251, R252). -/
def broadcastEnd (s : State) : State := (s.setStatusSeg s.auxSeg).goto .run (.finish s.auxErr)

/-- A broadcast after the exchange of a segment: segment 1 gets the message whatever became of segment 0
(44_aux_messages.md R251, R252). -/
def broadcastRet (tag : Byte) (payload : List Byte) (r : Reply) (s : State) : State :=
  let s' := noteAuxErr (ackErr tag r s) s
  if s.seg = 0 then broadcastEnter payload 1 s' else broadcastEnd s'

/-- The emergency-stop payload (30_encoding.md R143). -/
def estopPayload : List Byte := [4]

/-- ESTOP (44_aux_messages.md R251). -/
def execEstop (s : State) : Host.Outcome State Fault Refusal :=
  .next (atPoint (broadcastStart estopPayload) (broadcastEnter estopPayload) noBuild (broadcastRet 4 estopPayload) s)

/-- The set-timeout payload (44_aux_messages.md R254). -/
def setTimeoutPayload (t : Word) : List Byte := 5 :: bytesOfWord t

/-- SET_TIMEOUT (44_aux_messages.md R252). -/
def execSetTimeout (s : State) : Host.Outcome State Fault Refusal :=
  .next (atPoint (broadcastStart (setTimeoutPayload s.arg0)) (broadcastEnter (setTimeoutPayload s.arg0)) noBuild
    (broadcastRet 5 (setTimeoutPayload s.arg0)) s)

end Sys2Proof.Machine
end

