-- ==== Sys2Proof/Machine/Bitstream.lean ====
section
/-! DEFINITION. The bitstream family: NOP, BS_CLEAR, BS_WRITE, BS_READ, BS_NEEDED (40_bitstream.md R153 to R162).
Each runs and completes in one internal step. -/

namespace Sys2Proof.Machine

/-- NOP (40_bitstream.md R153). -/
def execNop (s : State) : Host.Outcome State Fault Refusal := .next (complete .ok s)

/-- BS_CLEAR (40_bitstream.md R154). -/
def execBsClear (s : State) : Host.Outcome State Fault Refusal := .next (complete .ok (clearTx s))

/-- The body of BS_WRITE; a width above 32 is ILLEGAL (30_encoding.md R114). -/
def bsWrite (a : Byte) (b : BitVec 3) (w : BitVec 6) (s : State) : State :=
  if w.toNat ≤ maxWidth then
    match writeBits .tx a b w.toNat s.arg0 s with
    | some s' => complete .ok s'
    | none => complete .bounds s
  else complete .illegal s

/-- BS_WRITE (40_bitstream.md R155). -/
def execBsWrite (a : Byte) (b : BitVec 3) (w : BitVec 6) (s : State) : Host.Outcome State Fault Refusal :=
  .next (bsWrite a b w s)

/-- The body of BS_READ; a width above 32 is ILLEGAL (30_encoding.md R114). -/
def bsRead (a : Byte) (b : BitVec 3) (sel : BufSel) (w : BitVec 6) (s : State) : State :=
  if w.toNat ≤ maxWidth then
    match readBits sel a b w.toNat s with
    | some (v, s') => complete .ok (s'.setResult v)
    | none => complete .bounds s
  else complete .illegal s

/-- BS_READ (40_bitstream.md R156). -/
def execBsRead (a : Byte) (b : BitVec 3) (sel : BufSel) (w : BitVec 6) (s : State) :
    Host.Outcome State Fault Refusal := .next (bsRead a b sel w s)

/-- BS_NEEDED (40_bitstream.md R160). -/
def execBsNeeded (s : State) : Host.Outcome State Fault Refusal :=
  .next (complete .ok (s.setResult (BitVec.ofNat 32 (bitsNeeded s.arg0.toNat))))

end Sys2Proof.Machine
end

