-- ==== Sys2Proof/Machine/Frame.lean ====
section
/-! DEFINITION. The frame family: FRAME_TX and FRAME_RX (41_frame.md R177, R178). -/

namespace Sys2Proof.Machine

/-- FRAME_TX at its start: the length check, then `Transmit(A, TX[0..L-1])` (41_frame.md R177). -/
def frameTxStart (a : Byte) (s : State) : State :=
  match byteOperand s.arg0 with
  | none => complete .validation s
  | some n => callTransport { kind := .transmit, addr := a, payload := txBytes s n.toNat, tms := 0 } s

/-- FRAME_TX after `Transmit` (41_frame.md R177). -/
def frameTxRet (r : Reply) (s : State) : State := complete r.err s

/-- FRAME_TX (41_frame.md R177). -/
def execFrameTx (a : Byte) (s : State) : Host.Outcome State Fault Refusal :=
  .next (atPoint (frameTxStart a) noEnter noBuild frameTxRet s)

/-- FRAME_RX at its start: `EnsureOpen`, `SetTimeout(ARG0)`, `Receive` (41_frame.md R178). -/
def frameRxStart (s : State) : State :=
  callTransport { kind := .receive, addr := 0, payload := [], tms := s.arg0 } s

/-- FRAME_RX after `Receive`: RESULT is the payload length on success only (41_frame.md R178). -/
def frameRxRet (r : Reply) (s : State) : State :=
  match r with
  | .ok => complete .ok (s.setResult (s.rxLen.setWidth 32))
  | .checksum => complete .checksum s
  | .comm => complete .comm s

/-- FRAME_RX (41_frame.md R178). -/
def execFrameRx (s : State) : Host.Outcome State Fault Refusal :=
  .next (atPoint frameRxStart noEnter noBuild frameRxRet s)

end Sys2Proof.Machine
end

