-- ==== Sys2Proof/Machine/Negotiation.lean ====
section
/-! DEFINITION. The sensor type negotiation family: NEGOTIATE and NEGOTIATE_SEG (42_negotiation.md R190 to
R199). -/

namespace Sys2Proof.Machine

/-- The clamp of one port (42_negotiation.md R192). -/
def clampPort (p : PortIx) (s : State) : State :=
  if s.portClass p = .i2c then s.setPort p { s.port p with devCount := clampDevCount (s.port p).devCount } else s

/-- `Clamp(s)`: the two ports of the segment (42_negotiation.md R192). -/
def clampSegment (g : SegIx) (s : State) : State := clampPort (highPort g) (clampPort (lowPort g) s)

/-- The first `n` bytes of I2C_OUT[p][d] as 8-bit fields. -/
def outFields (m : Memory) (p : PortIx) (d : SlotIx) (n : Nat) : List Field :=
  (List.range n).map (fun k => (8, (m.read (i2cOutAddr p d k)).setWidth 32))

/-- The device entry of slot (p, d) (30_encoding.md R135; 42_negotiation.md R194). -/
def deviceEntry (m : Memory) (p : PortIx) (x : Port) (d : SlotIx) : List Field :=
  let v := x.dev[d.val]
  [(7, (v.addr >>> 1).setWidth 32), (2, BitVec.ofNat 32 v.settings)] ++
    (if v.same then [(4, v.wlen.setWidth 32), (4, v.rlen.setWidth 32)] ++ outFields m p d v.wlen.toNat else [])

/-- The I2C sub-block of port p (30_encoding.md R134; 42_negotiation.md R194). -/
def i2cSubBlock (m : Memory) (p : PortIx) (x : Port) : List Field :=
  [(8, x.i2cSpeed.setWidth 32), (3, (x.devCount - 1).setWidth 32)] ++ x.slots.flatMap (deviceEntry m p x)

/-- The bitstream fields of the negotiation request of segment g, in stream order (30_encoding.md R133). -/
def negotiationFields (g : SegIx) (s : State) : List Field :=
  (segPorts g).flatMap (fun p => if s.portClass p = .i2c then i2cSubBlock s.mem p (s.port p) else [])

/-- The header bytes of the negotiation request (30_encoding.md R133). -/
def negotiationHeader (g : SegIx) (s : State) : List Byte := [2, (s.port (lowPort g)).code, (s.port (highPort g)).code]

/-- `BuildNegotiation(s)` (42_negotiation.md R193). -/
def buildNegotiation (g : SegIx) (s : State) : State × ErrKind × Nat :=
  buildRequest Config.negotiationLimit (negotiationHeader g s) (negotiationFields g s) s

/-- The begin of `NegotiateSegment(g)`: `seg` and STATUS.SEG (42_negotiation.md R196). -/
def negotiateEnter (g : SegIx) (s : State) : State := ((s.setSeg g).setStatusSeg g).goto .run .build

/-- The attempt of `NegotiateSegment`: bookkeeping, clamp, build, then the exchange or VALIDATION
(42_negotiation.md R195, R196). -/
def negotiateBuild (s : State) : State :=
  let r := buildNegotiation s.seg (clampSegment s.seg (s.setAttempts 1))
  match r.2.1 with
  | .ok =>
    callTransport
      { kind := .exchange, addr := segAddr s.seg, payload := txBytes r.1 r.2.2, tms := s.env.params.tNegMs } r.1
  | k => r.1.goto .run (.finish k)

/-- `NegotiateSegment` after the exchange: the error ends the command, else `after` goes on (42_negotiation.md
R196 to R198). -/
def negotiateRet (after : State → State) (r : Reply) (s : State) : State :=
  match ackErr 2 r s with
  | .ok => after s
  | k => complete k s

/-- NEGOTIATE after a segment succeeded: segment 0 is followed by segment 1 (42_negotiation.md R190). -/
def negotiateAfter (s : State) : State := if s.seg = 0 then negotiateEnter 1 s else complete .ok s

/-- NEGOTIATE (42_negotiation.md R190). -/
def execNegotiate (s : State) : Host.Outcome State Fault Refusal :=
  .next (atPoint (negotiateEnter 0) negotiateEnter negotiateBuild (negotiateRet negotiateAfter) s)

/-- NEGOTIATE_SEG at its start: the segment check (42_negotiation.md R191). -/
def negotiateSegStart (a : Byte) (s : State) : State :=
  match segOperand a with
  | none => complete .validation s
  | some g => negotiateEnter g s

/-- NEGOTIATE_SEG (42_negotiation.md R191). -/
def execNegotiateSeg (a : Byte) (s : State) : Host.Outcome State Fault Refusal :=
  .next (atPoint (negotiateSegStart a) negotiateEnter negotiateBuild (negotiateRet (complete .ok)) s)

end Sys2Proof.Machine
end

