-- ==== Sys2Proof/Machine/Update.lean ====
section
/-! DEFINITION. The update cycle family: UPDATE and UPDATE_SEG (43_update.md R210 to R236). -/

namespace Sys2Proof.Machine

/-! ## Request build (43_update.md R218 to R221, R225) -/

/-- Group (a), the encoder-offset field of a port (43_update.md R219). -/
def encoderField (x : Port) : List Field :=
  if x.encOffset.toInt = 0 then [(1, 0)]
  else
    [(1, 1), (5, BitVec.ofNat 32 (smEncode x.encOffset.toInt).1),
      ((smEncode x.encOffset.toInt).1, BitVec.ofNat 32 (smEncode x.encOffset.toInt).2)]

/-- Group (b), the motor command of a port (43_update.md R220). -/
def motorField (x : Port) : List Field := [(10, BitVec.ofNat 32 (motorWord x))]

/-- The per-cycle sub-request of slot (p, d): nothing for a device with SAME = 1 (30_encoding.md R132). -/
def deviceRequest (m : Memory) (p : PortIx) (x : Port) (d : SlotIx) : List Field :=
  let v := x.dev[d.val]
  if v.same then [] else [(4, v.wlen.setWidth 32), (4, v.rlen.setWidth 32)] ++ outFields m p d v.wlen.toNat

/-- Group (c), the per-cycle I2C sub-requests of a port (43_update.md R221). -/
def i2cSubRequest (s : State) (p : PortIx) : List Field :=
  if s.portClass p = .i2c then (s.port p).slots.flatMap (deviceRequest s.mem p (s.port p)) else []

/-- The bitstream fields of the update request of segment g: group (a), then (b), then (c) (30_encoding.md
R127). -/
def updateFields (g : SegIx) (s : State) : List Field :=
  (segPorts g).flatMap (fun p => encoderField (s.port p)) ++
    (segPorts g).flatMap (fun p => motorField (s.port p)) ++ (segPorts g).flatMap (i2cSubRequest s)

/-- `CheckDevCount(s)` passes (43_update.md R225). -/
def devCountsOk (g : SegIx) (s : State) : Bool :=
  (segPorts g).all (fun p => decide (s.portClass p ≠ .i2c) || (s.port p).devCountInRange)

/-- `BuildUpdate(s)` (43_update.md R218). -/
def buildUpdate (g : SegIx) (s : State) : State × ErrKind × Nat :=
  if devCountsOk g s then buildRequest Config.updateLimit [3] (updateFields g s) s else (s, .validation, 0)

/-! ## Reply parse (43_update.md R228 to R232) -/

/-- The parse in progress: the machine and the local variable `under`. -/
structure Parse where
  st : State
  under : Bool

/-- `GetU(w)` for a reply of `n` payload bytes: `ReadBits(RX, 1, 0, w)` with the underrun test (43_update.md
R228, R232). It never raises BOUNDS (43_update.md R232; log 13). -/
def getU (n w : Nat) (c : Parse) : Word × Parse :=
  (c.st.mem.loadBits rxBase (8 + c.st.cursor.toNat) w,
    { st := c.st.setCursor (advance c.st.cursor w),
      under := c.under || (decide (0 < w) && decide (8 * n < 8 + c.st.cursor.toNat + w)) })

/-- Change a port inside a parse. -/
def Parse.setPort (c : Parse) (p : PortIx) (f : Port → Port) : Parse :=
  { c with st := c.st.setPort p (f (c.st.port p)) }

/-- `P[p].ENCODER <- SMDecode(GetU(u))`, as a 32-bit two's-complement value (43_update.md R228). -/
def parseEncoder (n : Nat) (p : PortIx) (u : Nat) (c : Parse) : Parse :=
  let r := getU n u c
  r.2.setPort p (fun x => { x with encoder := BitVec.ofInt 32 (smDecode r.1.toNat) })

/-- `P[p].RAW_VALUE <- GetU(w)` (43_update.md R229). -/
def parseRaw (n : Nat) (p : PortIx) (w : Nat) (c : Parse) : Parse :=
  let r := getU n w c
  r.2.setPort p (fun x => { x with raw := r.1 })

/-- The four colour components blank, red, green, blue of the wire into the slots red, green, blue, blank
(43_update.md R230). -/
def parseColors (n : Nat) (p : PortIx) (c : Parse) : Parse :=
  let blank := getU n 10 c
  let red := getU n 10 blank.2
  let green := getU n 10 red.2
  let blue := getU n 10 green.2
  blue.2.setPort p (fun x =>
    { x with color := #v[red.1.setWidth 10, green.1.setWidth 10, blue.1.setWidth 10, blank.1.setWidth 10] })

/-- `for k in 0..r-1: I2C_IN[p][d][k] <- GetU(8)`, the bytes from index `k` on. -/
def parseBytes (n : Nat) (p : PortIx) (d : SlotIx) : Nat → Nat → Parse → Parse
  | _, 0, c => c
  | k, r + 1, c =>
    let q := getU n 8 c
    parseBytes n p d (k + 1) r
      { q.2 with st := q.2.st.setMem (q.2.st.mem.write (i2cInAddr p d k) (q.1.setWidth 8)) }

/-- The input bytes of every present slot of a list (43_update.md R231). -/
def parseSlots (n : Nat) (p : PortIx) (mask : Word) : List SlotIx → Parse → Parse
  | [], c => c
  | d :: ds, c =>
    parseSlots n p mask ds
      (if mask.getLsbD d.val then parseBytes n p d 0 ((c.st.port p).dev[d.val]).rlen.toNat c else c)

/-- The I2C field: the presence mask, then the bytes of the present devices (43_update.md R231). -/
def parseI2c (n : Nat) (p : PortIx) (c : Parse) : Parse :=
  let m := getU n (c.st.port p).devCount.toNat c
  parseSlots n p m.1 (c.st.port p).slots (m.2.setPort p (fun x => { x with raw := m.1 }))

/-- `SensorField(p)` (43_update.md R229 to R231). -/
def sensorField (n : Nat) (p : PortIx) (c : Parse) : Parse :=
  match c.st.portClass p with
  | .touch => parseRaw n p 1 c
  | .ultrasonic => parseRaw n p 8 c
  | .colorFull => parseColors n p (parseRaw n p 3 c)
  | .i2c => parseI2c n p c
  | .default => parseRaw n p 10 c

/-- The fields of a reply of `n` payload bytes, in stream order (43_update.md R228). -/
def parseFields (n : Nat) (g : SegIx) (c : Parse) : Parse :=
  let u0 := getU n 5 c
  let u1 := getU n 5 u0.2
  sensorField n (highPort g)
    (sensorField n (lowPort g) (parseEncoder n (highPort g) u1.1.toNat (parseEncoder n (lowPort g) u0.1.toNat u1.2)))

/-- `ParseReply(s, n)` (43_update.md R228). -/
def parseReply (n : Nat) (g : SegIx) (s : State) : State :=
  let c := parseFields n g { st := s.setCursor 0, under := false }
  c.st.setStatus { c.st.status with underrun := c.under }

/-! ## The cycle of a segment (43_update.md R212) -/

/-- The begin of `UpdateSegment(g)`: `seg`, STATUS.SEG and no attempt yet (43_update.md R212). -/
def updateEnter (g : SegIx) (s : State) : State :=
  { (s.setSeg g).setStatusSeg g with attempt := 0, fsm := .run, pt := .build }

/-- One pass of the loop up to the exchange: the attempt, the build, then the exchange or VALIDATION
(43_update.md R212, R225, R226). -/
def updateBuild (s : State) : State :=
  let r := buildUpdate s.seg (s.setAttempts (s.attempt + 1))
  match r.2.1 with
  | .ok =>
    callTransport
      { kind := .exchange, addr := segAddr s.seg, payload := txBytes r.1 r.2.2, tms := s.env.params.tUpdMs } r.1
  | k => r.1.goto .run (.finish k)

/-- `P[p].ENC_OFFSET <- 0`. -/
def clearOffset (p : PortIx) (s : State) : State := s.setPort p { s.port p with encOffset := 0 }

/-- The pending offsets of the segment's two ports are cleared (43_update.md R222). -/
def clearOffsets (g : SegIx) (s : State) : State := clearOffset (highPort g) (clearOffset (lowPort g) s)

/-- A failed attempt: rebuild and resend, or the error after the last attempt (43_update.md R223, R224). -/
def updateFail (k : ErrKind) (s : State) : State :=
  if s.attempt.toNat < Config.maxAttempts then s.goto .run .build else complete k s

/-- The tag check of an update reply: not empty and its first byte is 3 (43_update.md R227). -/
def isValuesReply (s : State) : Bool := decide (s.rxLen ≠ 0) && decide (s.rx 0 = 3)

/-- `UpdateSegment` after the exchange (43_update.md R212, R222 to R227); `after` goes on when the segment's
cycle has succeeded. -/
def updateRet (after : State → State) (r : Reply) (s : State) : State :=
  match r with
  | .comm => updateFail .comm s
  | .checksum => updateFail .checksum (clearOffsets s.seg s)
  | .ok =>
    if isValuesReply s then after (parseReply s.rxLen.toNat s.seg (clearOffsets s.seg s))
    else updateFail .protocol (clearOffsets s.seg s)

/-- UPDATE after a segment succeeded: segment 0 is followed by segment 1 (43_update.md R210). -/
def updateAfter (s : State) : State :=
  if s.seg = 0 then s.goto .run (.enter 1) else s.goto .run (.finish .ok)

/-- UPDATE (43_update.md R210). -/
def execUpdate (s : State) : Host.Outcome State Fault Refusal :=
  .next (atPoint (updateEnter 0) updateEnter updateBuild (updateRet updateAfter) s)

/-- UPDATE_SEG at its start: the segment check (43_update.md R211). -/
def updateSegStart (a : Byte) (s : State) : State :=
  match segOperand a with
  | none => complete .validation s
  | some g => updateEnter g s

/-- UPDATE_SEG after its segment succeeded (43_update.md R211). -/
def updateSegAfter (s : State) : State := s.goto .run (.finish .ok)

/-- UPDATE_SEG (43_update.md R211). -/
def execUpdateSeg (a : Byte) (s : State) : Host.Outcome State Fault Refusal :=
  .next (atPoint (updateSegStart a) updateEnter updateBuild (updateRet updateSegAfter) s)

end Sys2Proof.Machine
end

