-- ==== Sys2Proof/Machine/Wire.lean ====
section
/-! DEFINITION. The wire messages (30_encoding.md R125): the exchange of a message in flight, one transport
request a step (41_frame.md R173, R176). -/

namespace Sys2Proof.Machine

/-- One step of the exchange of the message with payload `p`: the request at which the exchange stands; where
no request is waited for, the message is handed to the exchange, whose first request is `T.IsOpen()`
(41_frame.md R173; log 8). The address and the timeout are those of the exchange in progress. -/
def messageStep (p : List Byte) (s : State) : State :=
  let x : Xfer := { s.xfer with kind := .exchange, payload := p }
  match s.fsm with
  | .idle => callTransport x s
  | .run =>
    match s.pt with
    | .isOpen => linkStep x s
    | .setTimeout => linkStep x s
    | .start => callTransport x s
    | .enter _ => callTransport x s
    | .build => callTransport x s
    | .ret _ => callTransport x s
    | .finish _ => callTransport x s
  | .opening => linkStep x s
  | .send => linkStep x s
  | .rxChk => linkStep x s
  | .rxLen => linkStep x s
  | .rxPay => linkStep x s

/-- WIRE_CHANGE_ADDRESS, payload `[1, n]` (30_encoding.md R125, R143). -/
def execWireChangeAddress (n : Byte) (s : State) : Host.Outcome State Fault Refusal := .next (messageStep [1, n] s)

/-- WIRE_SET_SENSOR_TYPE (30_encoding.md R125, R133). -/
def execWireSetSensorType (lo hi : Byte) (sub : List Byte) (s : State) : Host.Outcome State Fault Refusal :=
  .next (messageStep (2 :: lo :: hi :: sub) s)

/-- WIRE_READ_VALUES (30_encoding.md R125, R127). -/
def execWireReadValues (req : List Byte) (s : State) : Host.Outcome State Fault Refusal :=
  .next (messageStep (3 :: req) s)

/-- WIRE_EMERGENCY_STOP, payload `[4]` (30_encoding.md R125, R143). -/
def execWireEmergencyStop (s : State) : Host.Outcome State Fault Refusal := .next (messageStep [4] s)

/-- WIRE_SET_TIMEOUT, payload `[5, t little-endian]` (30_encoding.md R125, R143). -/
def execWireSetTimeout (t : Word) (s : State) : Host.Outcome State Fault Refusal :=
  .next (messageStep (5 :: bytesOfWord t) s)

end Sys2Proof.Machine
end

