-- ==== Sys2Proof/Machine/Dispatch.lean ====
section
/-! DEFINITION. The dispatch: one arm per instruction. -/

namespace Sys2Proof.Machine

def exec (i : Instr) (s : State) : Host.Outcome State Fault Refusal :=
  match i with
  | .nop => Sys2Proof.Machine.execNop s
  | .bsClear => Sys2Proof.Machine.execBsClear s
  | .bsWrite a b w => Sys2Proof.Machine.execBsWrite a b w s
  | .bsRead a b sel w => Sys2Proof.Machine.execBsRead a b sel w s
  | .bsNeeded => Sys2Proof.Machine.execBsNeeded s
  | .frameTx a => Sys2Proof.Machine.execFrameTx a s
  | .frameRx => Sys2Proof.Machine.execFrameRx s
  | .negotiate => Sys2Proof.Machine.execNegotiate s
  | .negotiateSeg a => Sys2Proof.Machine.execNegotiateSeg a s
  | .update => Sys2Proof.Machine.execUpdate s
  | .updateSeg a => Sys2Proof.Machine.execUpdateSeg a s
  | .changeAddr a => Sys2Proof.Machine.execChangeAddr a s
  | .estop => Sys2Proof.Machine.execEstop s
  | .setTimeout => Sys2Proof.Machine.execSetTimeout s
  | .wireChangeAddress newAddr => Sys2Proof.Machine.execWireChangeAddress newAddr s
  | .wireSetSensorType typeLo typeHi subBlocks => Sys2Proof.Machine.execWireSetSensorType typeLo typeHi subBlocks s
  | .wireReadValues request => Sys2Proof.Machine.execWireReadValues request s
  | .wireEmergencyStop => Sys2Proof.Machine.execWireEmergencyStop s
  | .wireSetTimeout t => Sys2Proof.Machine.execWireSetTimeout t s

end Sys2Proof.Machine
end

