-- ==== Sys2Proof/Machine/Fetch.lean ====
section
/-! DEFINITION. What the engine runs at its turn: the message in flight while an exchange waits for a transport
request, else the command latched in CMD (10_state.md R57; log 8), and how a given code comes to be the next
one it runs (log 9). -/

namespace Sys2Proof.Machine

/-- The engine stands at a transport request (10_state.md R58; 41_frame.md R176). -/
def atRequest (s : State) : Bool :=
  match s.fsm with
  | .idle => false
  | .run =>
    match s.pt with
    | .isOpen => true
    | .setTimeout => true
    | .start => false
    | .enter _ => false
    | .build => false
    | .ret _ => false
    | .finish _ => false
  | .opening => true
  | .send => true
  | .rxChk => true
  | .rxLen => true
  | .rxPay => true

/-- The message in flight: the payload of the exchange in progress, when it is a message (30_encoding.md R125). -/
def messageInFlight (s : State) : Option Instr :=
  if atRequest s && decide (s.xfer.kind = .exchange) then (decode (.message s.xfer.payload)).toOption else none

/-- The instruction the engine runs at its turn; none is an ILLEGAL command word (30_encoding.md R114). -/
def fetch (s : State) : Option Instr :=
  match messageInFlight s with
  | some i => some i
  | none => (decode (.command s.cmd)).toOption

/-- The command word of the command that builds a message of a tag (30_encoding.md R125). -/
def carrierWord (p : List Byte) : Word :=
  match (p.headD 0).toNat with
  | 1 => commandWord 0x0B 0 0 .tx 0
  | 2 => commandWord 0x08 0 0 .tx 0
  | 3 => commandWord 0x0A 0 0 .tx 0
  | 4 => commandWord 0x0C 0 0 .tx 0
  | _ => commandWord 0x0D 0 0 .tx 0

/-- The timeout of the exchange that carries a message of a tag (41_frame.md R173). -/
def carrierTimeout (q : Params) (p : List Byte) : Word :=
  match (p.headD 0).toNat with
  | 2 => q.tNegMs
  | 3 => q.tUpdMs
  | _ => q.tAuxMs

/-- The machine with a code loaded as what the engine runs next (log 9): a command word as the host's write to
CMD leaves it (60_exceptions.md R280); a message as the payload of the exchange of segment 0 of the command that
builds such messages, standing at its first request. -/
def loadCode (c : Code) (s : State) : State :=
  match c with
  | .command w => startCommand w s
  | .message p =>
    callTransport
      { kind := .exchange, addr := segAddr 0, payload := p, tms := carrierTimeout s.env.params p }
      (startCommand (carrierWord p) s)

/-- The next turn is the engine's. -/
def scheduleEngine (s : State) : State := s.setEnv { s.env with turns := .engine :: s.env.turns }

end Sys2Proof.Machine
end

