-- ==== Sys2Proof/Machine/HostBus.lean ====
section
/-! DEFINITION. The host bus: the register map (10_state.md R31), the value a host read returns and the effect
of a host write (10_state.md R32 to R55; 20_memory.md R81 to R86; 70_reset_and_hazards.md R310). -/

namespace Sys2Proof.Machine

/-- A mapped word of the register map (10_state.md R31). -/
inductive Reg where
  | cmd
  | status
  | arg0
  | result
  | cursor
  | motorEn (p : PortIx)
  | motorSpeed (p : PortIx)
  | encOffset (p : PortIx)
  | encoder (p : PortIx)
  | sensorType (p : PortIx)
  | rawValue (p : PortIx)
  | color (p : PortIx) (i : Fin 4)
  | i2cCfg (p : PortIx)
  | i2cDev (p : PortIx) (d : SlotIx)
  | i2cOut (p : PortIx) (d : SlotIx) (j : Fin 4)
  | i2cIn (p : PortIx) (d : SlotIx) (j : Fin 4)
  | txBuf (j : Fin 64)
  | rxBuf (j : Fin 64)
deriving DecidableEq, Repr

/-- The byte address of a mapped word (10_state.md R31). -/
def Reg.offset : Reg → Nat
  | .cmd => 0x000
  | .status => 0x004
  | .arg0 => 0x008
  | .result => 0x00C
  | .cursor => 0x010
  | .motorEn p => 0x100 + 0x80 * p.val + 0x00
  | .motorSpeed p => 0x100 + 0x80 * p.val + 0x04
  | .encOffset p => 0x100 + 0x80 * p.val + 0x08
  | .encoder p => 0x100 + 0x80 * p.val + 0x0C
  | .sensorType p => 0x100 + 0x80 * p.val + 0x10
  | .rawValue p => 0x100 + 0x80 * p.val + 0x14
  | .color p i => 0x100 + 0x80 * p.val + 0x18 + 4 * i.val
  | .i2cCfg p => 0x100 + 0x80 * p.val + 0x28
  | .i2cDev p d => 0x100 + 0x80 * p.val + 0x30 + 4 * d.val
  | .i2cOut p d j => 0x400 + 0x80 * p.val + 0x10 * d.val + 4 * j.val
  | .i2cIn p d j => 0x600 + 0x80 * p.val + 0x10 * d.val + 4 * j.val
  | .txBuf j => 0x800 + 4 * j.val
  | .rxBuf j => 0x900 + 4 * j.val

/-- The host address of a mapped word. -/
def Reg.addr (r : Reg) : Addr := BitVec.ofNat 12 r.offset

/-- The word at offset `o` of the block of port `p`; none is unmapped (10_state.md R31). -/
def portReg (p : PortIx) (o : Nat) : Option Reg :=
  if o = 0x00 then some (.motorEn p)
  else if o = 0x04 then some (.motorSpeed p)
  else if o = 0x08 then some (.encOffset p)
  else if o = 0x0C then some (.encoder p)
  else if o = 0x10 then some (.sensorType p)
  else if o = 0x14 then some (.rawValue p)
  else if 0x18 ≤ o ∧ o < 0x28 then some (.color p (Fin.ofNat 4 ((o - 0x18) / 4)))
  else if o = 0x28 then some (.i2cCfg p)
  else if 0x30 ≤ o ∧ o < 0x50 then some (.i2cDev p (Fin.ofNat 8 ((o - 0x30) / 4)))
  else none

/-- The word at an aligned byte address; none is unmapped (10_state.md R31). -/
def decodeReg (a : Nat) : Option Reg :=
  if a = 0x000 then some .cmd
  else if a = 0x004 then some .status
  else if a = 0x008 then some .arg0
  else if a = 0x00C then some .result
  else if a = 0x010 then some .cursor
  else if a < 0x100 then none
  else if a < 0x300 then portReg (Fin.ofNat 4 ((a - 0x100) / 0x80)) ((a - 0x100) % 0x80)
  else if a < 0x400 then none
  else if a < 0x600 then
    some (.i2cOut (Fin.ofNat 4 ((a - 0x400) / 0x80)) (Fin.ofNat 8 ((a - 0x400) / 0x10)) (Fin.ofNat 4 ((a - 0x400) / 4)))
  else if a < 0x800 then
    some (.i2cIn (Fin.ofNat 4 ((a - 0x600) / 0x80)) (Fin.ofNat 8 ((a - 0x600) / 0x10)) (Fin.ofNat 4 ((a - 0x600) / 4)))
  else if a < 0x900 then some (.txBuf (Fin.ofNat 64 ((a - 0x800) / 4)))
  else if a < 0xA00 then some (.rxBuf (Fin.ofNat 64 ((a - 0x900) / 4)))
  else none

/-- The word an access reaches: only an aligned access of 4 bytes to a mapped address (20_memory.md R81, R82). -/
def busReg (a : Addr) (size : Nat) : Option Reg :=
  if size = 4 ∧ a.toNat % 4 = 0 then decodeReg a.toNat else none

/-- The word I2C_DEV reads (10_state.md R51). -/
def Dev.toWord (d : Dev) : Word := 0#8 ++ d.rlen ++ d.wlen ++ 0#6 ++ bit d.same ++ bit d.mid ++ d.addr

/-- The device slot a written word stores; reserved bits are ignored (10_state.md R51). -/
def Dev.ofWord (v : Word) : Dev :=
  { addr := v.extractLsb' 0 8, mid := v.getLsbD 8, same := v.getLsbD 9, wlen := v.extractLsb' 16 4,
    rlen := v.extractLsb' 20 4 }

/-- The word of a register, reserved bits 0 (10_state.md R32). -/
def readReg (s : State) : Reg → Word
  | .cmd => s.cmd
  | .status => s.status.toWord
  | .arg0 => s.arg0
  | .result => s.result
  | .cursor => s.cursor.setWidth 32
  | .motorEn p => (bit (s.port p).en).setWidth 32
  | .motorSpeed p => (s.port p).speed
  | .encOffset p => (s.port p).encOffset
  | .encoder p => (s.port p).encoder
  | .sensorType p => (s.port p).code.setWidth 32
  | .rawValue p => (s.port p).raw
  | .color p i => ((s.port p).color[i.val]).setWidth 32
  | .i2cCfg p => 0#16 ++ (s.port p).devCount ++ (s.port p).i2cSpeed
  | .i2cDev p d => ((s.port p).dev[d.val]).toWord
  | .i2cOut p d j => s.mem.readWord (i2cOutAddr p d (4 * j.val))
  | .i2cIn p d j => s.mem.readWord (i2cInAddr p d (4 * j.val))
  | .txBuf j => s.mem.readWord (txBase + 4 * j.val)
  | .rxBuf j => s.mem.readWord (rxBase + 4 * j.val)

/-- The validation of a host write passes (10_state.md R33, R43, R44). -/
def writeAccepted : Reg → Word → Bool
  | .motorSpeed _, v => speedAccepted v
  | .encOffset _, v => offsetAccepted v
  | _, _ => true

/-- The effect of an accepted host write: a write to a read-only word has none (10_state.md
R32). -/
def storeReg (s : State) (v : Word) : Reg → State
  | .cmd => startCommand v s
  | .status => s.setStatus (s.status.hostWrite v)
  | .arg0 => { s with arg0 := v }
  | .result => s
  | .cursor => s.setCursor (v.setWidth 12)
  | .motorEn p => s.setPort p { s.port p with en := v.getLsbD 0 }
  | .motorSpeed p => s.setPort p { s.port p with speed := v }
  | .encOffset p => s.setPort p { s.port p with encOffset := v }
  | .encoder _ => s
  | .sensorType p => s.setPort p { s.port p with code := v.setWidth 8 }
  | .rawValue _ => s
  | .color _ _ => s
  | .i2cCfg p => s.setPort p { s.port p with i2cSpeed := v.extractLsb' 0 8, devCount := v.extractLsb' 8 8 }
  | .i2cDev p d => s.setPort p { s.port p with dev := (s.port p).dev.set d.val (Dev.ofWord v) }
  | .i2cOut p d j => s.setMem (s.mem.writeWord (i2cOutAddr p d (4 * j.val)) v)
  | .i2cIn _ _ _ => s
  | .txBuf j => s.setMem (s.mem.writeWord (txBase + 4 * j.val) v)
  | .rxBuf _ => s

/-- A host write that is no fault: stored, or rejected with STATUS.VERR set (10_state.md R33). -/
def writeReg (r : Reg) (v : Word) (s : State) : State :=
  if writeAccepted r v then storeReg s v r else s.setStatus s.status.rejected

/-- Record a host access or a transport request (20_memory.md R101). -/
def State.note (s : State) (x : Event) : State := s.setEnv (s.env.note x)

/-- The host may access STATUS only: a command runs (20_memory.md R86), or one was started and the host has not yet
read STATUS with BUSY = 0 (70_reset_and_hazards.md R310). -/
def mustPoll (s : State) : Bool := s.status.busy || s.env.unpolled

/-- The word a host read returns: exact for STATUS, and for the other words while the host need not poll; else a
draw (20_memory.md R86; 70_reset_and_hazards.md R310; log 4). -/
def busValue (r : Reg) (s : State) : Word :=
  if mustPoll s = true ∧ r ≠ .status then Config.busyReadDraw s.env.draws else readReg s r

/-- A read takes a draw when its value is one. -/
def takeBusyDraw (r : Reg) (s : State) : State :=
  if mustPoll s = true ∧ r ≠ .status then s.setEnv { s.env with draws := s.env.draws + 1 } else s

/-- A read of STATUS with BUSY = 0 ends the duty to poll (70_reset_and_hazards.md R310). -/
def takePoll (r : Reg) (s : State) : State :=
  if r = .status then s.setEnv { s.env with unpolled := s.env.unpolled && s.status.busy } else s

/-- The history a fault carries: the faulting access is its newest entry (20_memory.md R101; 60_exceptions.md
R276). -/
def faultRecord (x : HostAccess) (s : State) : List Event := .faulted x :: s.env.history

/-- `MemRead(a, size)` (20_memory.md R81, R82, R86; 70_reset_and_hazards.md R310). -/
def hostRead (a : Addr) (size : Nat) (s : State) : Host.Outcome State Fault Refusal :=
  match busReg a size with
  | none => .fault (.busError (faultRecord (.read a size) s))
  | some r => .next ((takePoll r (takeBusyDraw r s)).note (.hostRead a (busValue r s)))

/-- `MemWrite(a, size, v)` (20_memory.md R81 to R83, R86; 70_reset_and_hazards.md R310; log 10). -/
def hostWrite (a : Addr) (size : Nat) (v : Word) (s : State) : Host.Outcome State Fault Refusal :=
  match busReg a size with
  | none => .fault (.busError (faultRecord (.write a size v) s))
  | some r =>
    if mustPoll s = true ∧ r ≠ .status then .fault (.hostContractViolation (faultRecord (.write a size v) s))
    else .next ((writeReg r v s).note (.hostWrite a v (writeAccepted r v)))

/-- A host access. -/
def hostStep (x : HostAccess) (s : State) : Host.Outcome State Fault Refusal :=
  match x with
  | .read a size => hostRead a size s
  | .write a size v => hostWrite a size v s

end Sys2Proof.Machine
end

