-- ==== Sys2Proof/Machine/Step.lean ====
section
/-! DEFINITION. One step of the machine: the turn of one agent (00_scope.md R10, R11; 60_exceptions.md R279). -/

namespace Sys2Proof.Machine

/-- The ENGINE's turn: an idle engine does nothing (70_reset_and_hazards.md R301); a running one runs the
instruction it fetches; a command word that does not decode completes with ILLEGAL and changes nothing else
(60_exceptions.md R275). -/
def engineStep (s : State) : Host.Outcome State Fault Refusal :=
  if s.status.busy then
    match fetch s with
    | some i => exec i s
    | none => .next (complete .illegal s)
  else .next s

/-- The machine after its first scheduled turn is taken from the list. -/
def popTurn (s : State) : State := s.setEnv { s.env with turns := s.env.turns.tail }

/-- One step: the turn scheduled next; with none scheduled the engine moves (log 5). -/
def step (s : State) : Host.Outcome State Fault Refusal :=
  match s.env.turns with
  | [] => engineStep s
  | .engine :: _ => engineStep (popTurn s)
  | .host x :: _ => hostStep x (popTurn s)
  | .reset :: _ => .next (resetEvent (popTurn s))

/-- The machine with a table word stored where the next step fetches its instruction (log 9). -/
def State.withFetchWord (s : State) (nbits w : Nat) : State := scheduleEngine (loadCode (codeOfTableWord nbits w) s)

end Sys2Proof.Machine
end

