-- ==== Sys2Proof/Safety.lean ====
section
/-! DEFINITION. What counts as a safe state, in the terms the statements use: the invariants of the machine, the
program points a command can stand at, and the bit streams of the requests as 30_encoding.md lays them out. -/

namespace Sys2Proof.Machine

/-! ## Situations -/

/-- Command `i` has just been started and the engine moves next (60_exceptions.md R280). -/
def Started (i : Instr) (s : State) : Prop :=
  s.status.busy = true ∧ decode (.command s.cmd) = .ok i ∧ s.fsm = .run ∧ s.pt = .start ∧ s.env.turns = []

/-- STATUS after completion with error kind `k` (60_exceptions.md R281). -/
def doneStatus (k : ErrKind) (st : Status) : Status := { st with err := k, busy := false, done := true }

/-- `s` after completion with error kind `k`: STATUS, `fsm` and the program point only (60_exceptions.md R281). -/
def doneState (k : ErrKind) (s : State) : State := { s with status := doneStatus k s.status, fsm := .idle, pt := .start }

/-- The reply a TRANSPORT answers with: a checksum byte, a length byte, the payload. -/
def replyAnswers (c n : Byte) (p : List Byte) : List ReadAnswer := .byte c :: .byte n :: p.map .byte

/-- The answers that make an exchange succeed with the one-byte reply `[tag]` (30_encoding.md R123, R136, R144). -/
def ackAnswers (tag : Byte) : List ReadAnswer := replyAnswers (1 + tag) 1 [tag]

/-- A command word is ILLEGAL (30_encoding.md R114). -/
def illegalWord (w : Word) : Prop :=
  0x0E ≤ (w.extractLsb' 0 5).toNat ∨ w.extractLsb' 5 3 ≠ 0 ∨ w.extractLsb' 26 6 ≠ 0 ∨
    (((w.extractLsb' 0 5).toNat = 2 ∨ (w.extractLsb' 0 5).toNat = 3) ∧ 32 < (w.extractLsb' 20 6).toNat)

/-- The error kind of an acknowledged message: the exchange's error, or PROTOCOL unless the reply is exactly one
byte equal to the tag (30_encoding.md R136, R144). -/
def ackOutcome (tag : Byte) (r : Reply) (s : State) : ErrKind :=
  match r with
  | .comm => .comm
  | .checksum => .checksum
  | .ok => if s.rxLen.toNat = 1 ∧ s.mem.read 0x900 = tag then .ok else .protocol

/-- The word addresses 10_state.md R31 lists as unmapped. -/
def unmapped (a : Nat) : Prop :=
  (0x014 ≤ a ∧ a < 0x100) ∨
    (0x100 ≤ a ∧ a < 0x300 ∧ ((0x2C ≤ a % 0x80 ∧ a % 0x80 < 0x30) ∨ 0x50 ≤ a % 0x80)) ∨
    (0x300 ≤ a ∧ a < 0x400) ∨ 0xA00 ≤ a

/-! ## The words a host read returns (10_state.md sections 2 to 5) -/

/-- The number of an error kind (60_exceptions.md R270). -/
def errNumber : ErrKind → Nat
  | .ok => 0
  | .validation => 1
  | .checksum => 2
  | .comm => 3
  | .protocol => 4
  | .illegal => 5
  | .bounds => 6

/-- `w` is the word of STATUS, field by field (10_state.md R35). -/
def statusWord (st : Status) (w : Word) : Prop :=
  w.getLsbD 0 = st.busy ∧ w.getLsbD 1 = st.done ∧ w.getLsbD 2 = st.verr ∧ w.getLsbD 3 = st.underrun ∧
    (w.extractLsb' 4 4).toNat = errNumber st.err ∧ (w.extractLsb' 8 1).toNat = st.seg.val ∧
    w.extractLsb' 9 2 = st.attempts ∧ w.extractLsb' 11 5 = 0 ∧ w.extractLsb' 16 8 = st.rxlen ∧ w.extractLsb' 24 8 = 0

/-- `w` is the word of four bytes of a byte array, the lowest first (20_memory.md R84). -/
def arrayWord (m : Memory) (a : Nat) (w : Word) : Prop := ∀ i : Fin 4, w.extractLsb' (8 * i.val) 8 = m.read (a + i.val)

/-- `w` is the word of a register: the field that names it, reserved bits 0 (10_state.md R31, R32, R34 to R51). -/
def registerWord (s : State) (w : Word) : Reg → Prop
  | .cmd => w = s.cmd
  | .status => statusWord s.status w
  | .arg0 => w = s.arg0
  | .result => w = s.result
  | .cursor => w.toNat = s.cursor.toNat
  | .motorEn p => w.toNat = if (s.port p).en then 1 else 0
  | .motorSpeed p => w = (s.port p).speed
  | .encOffset p => w = (s.port p).encOffset
  | .encoder p => w = (s.port p).encoder
  | .sensorType p => w.toNat = (s.port p).code.toNat
  | .rawValue p => w = (s.port p).raw
  | .color p i => w.toNat = ((s.port p).color[i.val]).toNat
  | .i2cCfg p => w.toNat = (s.port p).i2cSpeed.toNat + 2 ^ 8 * (s.port p).devCount.toNat
  | .i2cDev p d =>
    w.toNat = (s.port p).dev[d.val].addr.toNat + 2 ^ 8 * (if (s.port p).dev[d.val].mid then 1 else 0) +
      2 ^ 9 * (if (s.port p).dev[d.val].same then 1 else 0) + 2 ^ 16 * (s.port p).dev[d.val].wlen.toNat +
      2 ^ 20 * (s.port p).dev[d.val].rlen.toNat
  | .i2cOut p d j => arrayWord s.mem (0x400 + 0x80 * p.val + 0x10 * d.val + 4 * j.val) w
  | .i2cIn p d j => arrayWord s.mem (0x600 + 0x80 * p.val + 0x10 * d.val + 4 * j.val) w
  | .txBuf j => arrayWord s.mem (0x800 + 4 * j.val) w
  | .rxBuf j => arrayWord s.mem (0x900 + 4 * j.val) w

/-- The slots 0..n-1. -/
def slotsBelow (n : Nat) : List SlotIx := (List.finRange 8).filter (fun d => d.val < n)

/-! ## The fields of an update reply (30_encoding.md R138 to R142), as bit positions of RX_BUF -/

/-- The value of `w` bits of RX_BUF from bit address `q`. -/
def rxBits (s : State) (q w : Nat) : Nat := (s.mem.loadBits 0x900 q w).toNat

/-- The two "bits used" fields (30_encoding.md R138). -/
def usedBits (s : State) (j : Fin 2) : Nat := rxBits s (8 + 5 * j.val) 5

/-- RLEN of the slots below `d` whose mask bit at `q` is set, in sum. -/
def presentBytes (s : State) (p : PortIx) (q d : Nat) : Nat :=
  ((slotsBelow d).map (fun e => if s.mem.bit 0x900 (q + e.val) then ((s.port p).dev[e.val]).rlen.toNat else 0)).sum

/-- The width of the sensor field of port p that starts at bit address `q` (30_encoding.md R140). -/
def sensorWidth (s : State) (p : PortIx) (q : Nat) : Nat :=
  match s.portClass p with
  | .touch => 1
  | .ultrasonic => 8
  | .colorFull => 43
  | .i2c => (s.port p).devCount.toNat + 8 * presentBytes s p q (s.port p).devCount.toNat
  | .default => 10

/-- Where the sensor field of the segment's first port starts. -/
def lowField (s : State) : Nat := 18 + usedBits s 0 + usedBits s 1

/-- Where the sensor field of the segment's second port starts. -/
def highField (g : SegIx) (s : State) : Nat := lowField s + sensorWidth s (lowPort g) (lowField s)

/-- Where the sensor field of port p of segment g starts. -/
def fieldStart (g : SegIx) (s : State) (p : PortIx) : Nat := if p = lowPort g then lowField s else highField g s

/-- The bit address after the last field of the reply. -/
def replyEnd (g : SegIx) (s : State) : Nat := highField g s + sensorWidth s (highPort g) (highField g s)

/-- An update exchange of the segment has ended with a valid reply: a checked payload with tag 3, device counts
in range (43_update.md R225, R227). -/
def ValidReply (s : State) : Prop :=
  s.fsm = .run ∧ s.pt = .ret .ok ∧ s.rxLen ≠ 0 ∧ s.mem.read 0x900 = 3 ∧ devCountsOk s.seg s = true

/-! ## Request bit streams (30_encoding.md R127 to R135) -/

/-- The low `w` bits of `v`, the least significant first (20_memory.md R91). -/
def natBits (w v : Nat) : List Bool := (List.range w).map (fun i => v.testBit i)

/-- The encoder-offset field of a pending offset `x` (30_encoding.md R128). -/
def encoderBits (x : Int) : List Bool :=
  if x = 0 then [false]
  else
    [true] ++ natBits 5 (bitsNeeded x.natAbs + 1) ++
      natBits (bitsNeeded x.natAbs + 1) (2 * x.natAbs + (if x < 0 then 1 else 0))

/-- The motor command: EN, then the direction, then the magnitude (30_encoding.md R131). -/
def motorBits (x : Port) : List Bool :=
  [x.en, decide (x.speed.toInt < 0)] ++ natBits 8 (min x.speed.toInt.natAbs 255)

/-- The first `n` bytes of I2C_OUT[p][d], 8 bits each. -/
def outBits (m : Memory) (p : PortIx) (d : SlotIx) (n : Nat) : List Bool :=
  (List.range n).flatMap (fun k => natBits 8 (m.read (0x400 + 0x80 * p.val + 0x10 * d.val + k)).toNat)

/-- WLEN, RLEN and the output bytes of a slot. -/
def lengthsAndBytes (m : Memory) (p : PortIx) (d : SlotIx) (v : Dev) : List Bool :=
  natBits 4 v.wlen.toNat ++ natBits 4 v.rlen.toNat ++ outBits m p d v.wlen.toNat

/-- The per-cycle I2C sub-request of port p (30_encoding.md R132). -/
def subRequestBits (s : State) (p : PortIx) : List Bool :=
  if s.portClass p = .i2c then
    (slotsBelow (s.port p).devCount.toNat).flatMap (fun d =>
      if (s.port p).dev[d.val].same then [] else lengthsAndBytes s.mem p d (s.port p).dev[d.val])
  else []

/-- The bitstream of the update request of segment g (30_encoding.md R127). -/
def updateBits (g : SegIx) (s : State) : List Bool :=
  encoderBits (s.port (lowPort g)).encOffset.toInt ++ encoderBits (s.port (highPort g)).encOffset.toInt ++
    motorBits (s.port (lowPort g)) ++ motorBits (s.port (highPort g)) ++
    subRequestBits s (lowPort g) ++ subRequestBits s (highPort g)

/-- The device entry of slot (p, d) (30_encoding.md R135). -/
def entryBits (m : Memory) (p : PortIx) (d : SlotIx) (v : Dev) : List Bool :=
  natBits 7 (v.addr.toNat / 2) ++ [v.mid, v.same] ++ (if v.same then lengthsAndBytes m p d v else [])

/-- The I2C sub-block of port p with device count `n` (30_encoding.md R134). -/
def subBlockBits (s : State) (p : PortIx) (n : Nat) : List Bool :=
  if s.portClass p = .i2c then
    natBits 8 (s.port p).i2cSpeed.toNat ++ natBits 3 (n - 1) ++
      (slotsBelow n).flatMap (fun d => entryBits s.mem p d (s.port p).dev[d.val])
  else []

/-- DEVCOUNT clamped to [1, 8] (42_negotiation.md R192). -/
def clampedCount (s : State) (p : PortIx) : Nat := min (max (s.port p).devCount.toNat 1) 8

/-- The bitstream of the negotiation request of segment g, the device counts clamped (30_encoding.md R133). -/
def negotiationBits (g : SegIx) (s : State) : List Bool :=
  subBlockBits s (lowPort g) (clampedCount s (lowPort g)) ++ subBlockBits s (highPort g) (clampedCount s (highPort g))

/-! ## The kinds of commands and the points they stand at -/

/-- How a command uses the sequencer. -/
inductive CommandKind where
  /-- one internal step -/
  | single
  /-- FRAME_TX -/
  | transmit
  /-- FRAME_RX -/
  | receive
  /-- NEGOTIATE, NEGOTIATE_SEG -/
  | negotiation
  /-- UPDATE, UPDATE_SEG -/
  | update
  /-- CHANGE_ADDR -/
  | acknowledged
  /-- ESTOP, SET_TIMEOUT -/
  | broadcast
deriving DecidableEq, Repr

/-- The kind of an instruction; a wire message is no command and has no points of its own. -/
def commandKind : Instr → CommandKind
  | .nop => .single
  | .bsClear => .single
  | .bsWrite _ _ _ => .single
  | .bsRead _ _ _ _ => .single
  | .bsNeeded => .single
  | .frameTx _ => .transmit
  | .frameRx => .receive
  | .negotiate => .negotiation
  | .negotiateSeg _ => .negotiation
  | .update => .update
  | .updateSeg _ => .update
  | .changeAddr _ => .acknowledged
  | .estop => .broadcast
  | .setTimeout => .broadcast
  | .wireChangeAddress _ => .single
  | .wireSetSensorType _ _ _ => .single
  | .wireReadValues _ => .single
  | .wireEmergencyStop => .single
  | .wireSetTimeout _ => .single

/-- The kind of the command latched in CMD; an ILLEGAL word completes in one step. -/
def runningKind (s : State) : CommandKind :=
  match decode (.command s.cmd) with
  | .ok i => commandKind i
  | .error _ => .single

/-- The transport procedure a kind of command uses. -/
def CommandKind.xferKind : CommandKind → Option XferKind
  | .single => none
  | .transmit => some .transmit
  | .receive => some .receive
  | .negotiation => some .exchange
  | .update => some .exchange
  | .acknowledged => some .exchange
  | .broadcast => some .exchange

/-- The procedure in progress is the one the command uses. -/
def xferOk (s : State) : Prop := (runningKind s).xferKind = some s.xfer.kind

/-- The program points a running command can stand at. -/
def pointOk (s : State) : Prop :=
  match s.fsm with
  | .idle => False
  | .run =>
    match s.pt with
    | .start => True
    | .enter _ => runningKind s = .update
    | .build => runningKind s = .negotiation ∨ (runningKind s = .update ∧ s.attempt.toNat ≤ 1)
    | .isOpen => xferOk s
    | .setTimeout => xferOk s ∧ s.xfer.kind ≠ .transmit
    | .ret _ => runningKind s ≠ .single
    | .finish _ => runningKind s = .negotiation ∨ runningKind s = .update ∨ runningKind s = .broadcast
  | .opening => xferOk s
  | .send => xferOk s ∧ s.xfer.kind ≠ .receive
  | .rxChk => xferOk s ∧ s.xfer.kind ≠ .transmit ∧ s.rxIdx = 0
  | .rxLen => xferOk s ∧ s.xfer.kind ≠ .transmit ∧ s.rxIdx = 0
  | .rxPay => xferOk s ∧ s.xfer.kind ≠ .transmit ∧ s.rxIdx.toNat < s.rxLen.toNat

/-! ## The invariants -/

/-- The byte memory is in canonical form and lists byte-array addresses only (log 12). -/
def memoryOk (s : State) : Prop := s.mem.wf ∧ ∀ c ∈ s.mem, arrayBase ≤ c.1 ∧ c.1 < arrayEnd

/-- STATUS and `fsm` agree: never BUSY and DONE, IDLE exactly when not BUSY, no error while a command runs
(10_state.md R35, R36, R58). -/
def statusOk (s : State) : Prop :=
  ¬(s.status.busy = true ∧ s.status.done = true) ∧ (s.fsm = .idle ↔ s.status.busy = false) ∧
    (s.status.busy = true → s.status.err = .ok)

/-- The values a port can hold (10_state.md R43, R44, R45, R48). -/
def Port.valuesOk (x : Port) : Prop :=
  x.speed.toInt.natAbs ≤ 255 ∧ x.encOffset.toInt.natAbs ≤ 2 ^ 30 - 1 ∧ x.encoder.toInt.natAbs ≤ 2 ^ 30 - 1 ∧
    x.raw.toNat < 2 ^ 10

/-- The attempt counters count at most two attempts (10_state.md R35, R59). -/
def attemptsOk (s : State) : Prop := s.attempt.toNat ≤ 2 ∧ s.status.attempts.toNat ≤ 2

/-- The exchange of a segment's update has been built in its first or second attempt, with device counts in range
(43_update.md R212, R225). -/
def updateConfigOk (s : State) : Prop :=
  runningKind s = .update → (atRequest s = true ∨ (s.fsm = .run ∧ ∃ r, s.pt = .ret r)) →
    devCountsOk s.seg s = true ∧ 1 ≤ s.attempt.toNat

/-- The message in flight has a tag 1..5 and a payload its tag allows (30_encoding.md R124, R125). -/
def messageOk (s : State) : Prop :=
  s.status.busy = true → atRequest s = true → s.xfer.payload.length ≤ 255 ∧
    (s.xfer.kind = .exchange → ∃ i, decode (.message s.xfer.payload) = .ok i)

/-- While a command runs the host has not read STATUS with BUSY = 0 since it started it (70_reset_and_hazards.md
R310). -/
def pollOk (s : State) : Prop := s.status.busy = true → s.env.unpolled = true

/-- The invariant of the machine. -/
structure Inv (s : State) : Prop where
  memory : memoryOk s
  status : statusOk s
  point : s.status.busy = true → pointOk s
  values : ∀ p, (s.port p).valuesOk
  attempts : attemptsOk s
  rxlen : s.status.rxlen = s.rxLen
  rxTail : s.rx 255 = 0
  config : s.status.busy = true → updateConfigOk s
  message : messageOk s
  poll : pollOk s

end Sys2Proof.Machine
end

