-- ==== Sys2Proof/Certificates/Slice0/Obligations.lean ====
section
/-! DEFINITION. The statements for the provers: what the rules of spec/ say an instruction or the machine does. -/

open Sys2Proof Sys2Proof.Machine

/-! ## Encoding -/

/-- Decoding the code of a well-formed instruction gives it back, with every operand at every value the encoding
admits (30_encoding.md parts A and B). -/
def Obligations.EveryWellFormedInstructionDecodesFromItsCode : Prop :=
  ∀ i : Instr, i.wellFormed = true → decode (encode i) = .ok i

/-- A payload that decodes is the payload of the instruction it decodes to, so no message has two meanings
(30_encoding.md part B). -/
def Obligations.MessagePayloadsHaveOneMeaning : Prop :=
  ∀ (p : List Byte) (i : Instr), decode (.message p) = .ok i → encode i = .message p ∧ i.wellFormed = true

/-- Exactly the words 30_encoding.md part A lists do not decode, and such a word completes with ERR = ILLEGAL, every
other register as it was (60_exceptions.md section 1). That it does so at the engine's next turn is the model's
reading of "at once" (log 15). -/
def Obligations.IllegalWordsCompleteWithIllegal : Prop :=
  (∀ w : Word, (∃ e, decode (.command w) = .error e) ↔ illegalWord w) ∧
  ∀ s : State, illegalWord s.cmd → s.status.busy = true → s.fsm = .run → s.pt = .start →
    (s.env.turns = [] ∨ ∃ ts, s.env.turns = .engine :: ts) →
    step s = .next (doneState .illegal { s with env := { s.env with turns := s.env.turns.tail } })

/-- 30_encoding.md R112, R113: the opcode map; the fields a command does not name are ignored. -/
def Obligations.OpcodeMapIgnoresUnnamedFields : Prop :=
  ∀ w : Word, w.extractLsb' 5 3 = 0 → w.extractLsb' 26 6 = 0 →
    let op := (w.extractLsb' 0 5).toNat
    let a := w.extractLsb' 8 8
    let b := w.extractLsb' 16 3
    let sel := if w.getLsbD 19 then BufSel.rx else BufSel.tx
    let wd := w.extractLsb' 20 6
    (op = 0x00 → decode (.command w) = .ok .nop) ∧
    (op = 0x01 → decode (.command w) = .ok .bsClear) ∧
    (op = 0x02 → wd.toNat ≤ 32 → decode (.command w) = .ok (.bsWrite a b wd)) ∧
    (op = 0x03 → wd.toNat ≤ 32 → decode (.command w) = .ok (.bsRead a b sel wd)) ∧
    (op = 0x04 → decode (.command w) = .ok .bsNeeded) ∧
    (op = 0x05 → decode (.command w) = .ok (.frameTx a)) ∧
    (op = 0x06 → decode (.command w) = .ok .frameRx) ∧
    (op = 0x07 → decode (.command w) = .ok .negotiate) ∧
    (op = 0x08 → decode (.command w) = .ok (.negotiateSeg a)) ∧
    (op = 0x09 → decode (.command w) = .ok .update) ∧
    (op = 0x0A → decode (.command w) = .ok (.updateSeg a)) ∧
    (op = 0x0B → decode (.command w) = .ok (.changeAddr a)) ∧
    (op = 0x0C → decode (.command w) = .ok .estop) ∧
    (op = 0x0D → decode (.command w) = .ok .setTimeout)

/-- The command words of 30_encoding.md R117 (95_test_vectors.md section 2.1), and one payload of each message by
30_encoding.md part B (R125, R127, R133, R143), as 95_test_vectors.md sections 2.7, 2.9 and program 3 of section 3 have
them. -/
def Obligations.WorkedWordsDecode : Prop :=
  decode (.command 0x00500102) = .ok (.bsWrite 1 0 5) ∧
  decode (.command 0x00A80103) = .ok (.bsRead 1 0 .rx 10) ∧
  decode (.command 0x0000010A) = .ok (.updateSeg 1) ∧
  decode (.command 0x00000205) = .ok (.frameTx 2) ∧
  decode (.command 0x00000009) = .ok .update ∧
  decode (.command 0x0000000E) = .error .reservedOp ∧
  decode (.command 0x00000020) = .error .reservedBits ∧
  decode (.command 0x02100002) = .error .width ∧
  decode (.message [1, 3]) = .ok (.wireChangeAddress 3) ∧
  decode (.message [2, 0x20, 0x29, 0x0A, 0x81, 0x12, 0x00]) =
    .ok (.wireSetSensorType 0x20 0x29 [0x0A, 0x81, 0x12, 0x00]) ∧
  decode (.message [3, 0x00, 0x50, 0x00]) = .ok (.wireReadValues [0x00, 0x50, 0x00]) ∧
  decode (.message [4]) = .ok .wireEmergencyStop ∧
  decode (.message [5, 0x78, 0x56, 0x34, 0x12]) = .ok (.wireSetTimeout 0x12345678)

/-- The register map of 10_state.md section 2: every mapped word is reached at its address by an access of 4
bytes, and at no other address or size. -/
def Obligations.RegisterMapReachesEachWordAtItsAddress : Prop :=
  (∀ r : Reg, busReg r.addr 4 = some r) ∧
  ∀ (a : Addr) (n : Nat) (r : Reg), busReg a n = some r → a = r.addr ∧ n = 4

/-! ## Steps, start and completion, reset -/

/-- At the engine's turn a step is `exec` of the instruction it fetches: the message in flight while an exchange
waits for a transport request, the command in CMD at every other point. At the turn of an idle engine nothing happens
(70_reset_and_hazards.md R301). Turns and messages in flight
are the model's (log 5, log 8). -/
def Obligations.StepRunsTheFetchedInstruction : Prop :=
  (∀ s : State, s.status.busy = false → (s.env.turns = [] ∨ ∃ ts, s.env.turns = .engine :: ts) →
    step s = .next { s with env := { s.env with turns := s.env.turns.tail } }) ∧
  (∀ (s : State) (i : Instr), s.status.busy = true →
    (s.env.turns = [] ∨ ∃ ts, s.env.turns = .engine :: ts) → fetch s = some i →
    step s = exec i { s with env := { s.env with turns := s.env.turns.tail } }) ∧
  (∀ (s : State) (i : Instr), (s.fsm = .idle ∨ (s.fsm = .run ∧ s.pt ≠ .isOpen ∧ s.pt ≠ .setTimeout)) →
    decode (.command s.cmd) = .ok i → fetch s = some i) ∧
  (∀ (s : State) (i : Instr), s.xfer.kind ≠ .exchange → decode (.command s.cmd) = .ok i → fetch s = some i) ∧
  (∀ (s : State) (i : Instr), (s.fsm ≠ .idle ∧ (s.fsm = .run → s.pt = .isOpen ∨ s.pt = .setTimeout)) →
    s.xfer.kind = .exchange → decode (.message s.xfer.payload) = .ok i → fetch s = some i)

/-- 60_exceptions.md R280: a host write of `v` to CMD while BUSY = 0 latches `v`, sets BUSY, clears DONE, ERR and
UNDERRUN, leaves SEG, ATTEMPTS, RXLEN and VERR, and the engine then runs the command `v` encodes. The host has read
STATUS with BUSY = 0 since its last command, and from here on it has to again (70_reset_and_hazards.md section 3). -/
def Obligations.HostWriteToCmdStartsTheCommand : Prop :=
  ∀ (s : State) (v : Word) (ts : List Turn), s.status.busy = false → s.env.unpolled = false →
    s.env.turns = .host (.write 0x000 4 v) :: ts →
    let t : State :=
      { s with
        cmd := v, status := { s.status with busy := true, done := false, err := .ok, underrun := false }, fsm := .run,
        pt := .start,
        env := { s.env with turns := ts, history := .hostWrite 0x000 v true :: s.env.history, unpolled := true } }
    step s = .next t ∧ fetch t = (decode (.command v)).toOption

/-- 60_exceptions.md R281: the completion with error kind `k` writes ERR, BUSY and DONE, makes the engine IDLE and
keeps every other register. -/
def Obligations.FinishCompletesTheCommand : Prop :=
  ∀ (i : Instr) (s : State) (k : ErrKind), commandKind i ≠ .single → s.fsm = .run → s.pt = .finish k →
    exec i s = .next (doneState k s)

/-- The reset event, at any state, sets every register to 0 and the engine to IDLE (10_state.md section 8). That it
issues no transport request and takes no answer is 70_reset_and_hazards.md section 1 in the model's reading, in which
a request and its answer are one step (log 11), and that the host need not poll after it the model's too (log 18). -/
def Obligations.ResetClearsTheEngineAndNotTheTransport : Prop :=
  ∀ (s : State) (ts : List Turn), s.env.turns = .reset :: ts →
    ∃ t, step s = .next t ∧ (∀ r : Reg, readReg t r = 0) ∧ (∀ a, t.mem.read a = 0) ∧ t.fsm = .idle ∧ t.seg = 0 ∧
      t.attempt = 0 ∧ t.rxChk = 0 ∧ t.rxLen = 0 ∧ t.rxIdx = 0 ∧ t.pt = .start ∧
      t.env = { s.env with turns := ts, history := .reset :: s.env.history, unpolled := false }

/-! ## The bitstream family -/

/-- 40_bitstream.md R153: NOP changes STATUS only and completes with ERR = 0. -/
def Obligations.NopCompletesChangingStatusOnly : Prop :=
  ∀ s : State, exec .nop s = .next (doneState .ok s)

/-- 40_bitstream.md R154: BS_CLEAR sets TX_BUF and CURSOR to 0 and nothing else. -/
def Obligations.BsClearZeroesTxBufAndCursor : Prop :=
  ∀ s : State, ∃ m : Memory, exec .bsClear s = .next (doneState .ok { s with mem := m, cursor := 0 }) ∧
    ∀ a, m.read a = if 0x800 ≤ a ∧ a < 0x900 then 0 else s.mem.read a

/-- 40_bitstream.md R150, R152, R155: BS_WRITE assigns the low W bits of ARG0 at bit address 8·A + B + CURSOR of
TX_BUF and advances CURSOR by W; it is BOUNDS past bit 2048 and ILLEGAL for W above 32, with STATUS changed only. -/
def Obligations.BsWriteAssignsExactlyTheField : Prop :=
  ∀ (s : State) (a : Byte) (b : BitVec 3) (w : BitVec 6), s.mem.wf →
    let q := 8 * a.toNat + b.toNat + s.cursor.toNat
    (32 < w.toNat → exec (.bsWrite a b w) s = .next (doneState .illegal s)) ∧
    (w.toNat ≤ 32 → 2048 < q + w.toNat → exec (.bsWrite a b w) s = .next (doneState .bounds s)) ∧
    (w.toNat ≤ 32 → q + w.toNat ≤ 2048 → ∃ (m : Memory) (c : BitVec 12),
      exec (.bsWrite a b w) s = .next (doneState .ok { s with mem := m, cursor := c }) ∧
      c.toNat = s.cursor.toNat + w.toNat ∧
      (∀ i, i < 2048 → m.bit 0x800 i = if q ≤ i ∧ i < q + w.toNat then s.arg0.getLsbD (i - q) else s.mem.bit 0x800 i) ∧
      ∀ x, x < 0x800 ∨ 0x900 ≤ x → m.read x = s.mem.read x)

/-- 40_bitstream.md R151, R152, R156: BS_READ puts the unsigned value of the W bits into RESULT and advances CURSOR
by W; no memory byte changes. -/
def Obligations.BsReadReturnsExactlyTheField : Prop :=
  ∀ (s : State) (a : Byte) (b : BitVec 3) (sel : BufSel) (w : BitVec 6),
    let q := 8 * a.toNat + b.toNat + s.cursor.toNat
    let base := match sel with | .tx => 0x800 | .rx => 0x900
    (32 < w.toNat → exec (.bsRead a b sel w) s = .next (doneState .illegal s)) ∧
    (w.toNat ≤ 32 → 2048 < q + w.toNat → exec (.bsRead a b sel w) s = .next (doneState .bounds s)) ∧
    (w.toNat ≤ 32 → q + w.toNat ≤ 2048 → ∃ (v : Word) (c : BitVec 12),
      exec (.bsRead a b sel w) s = .next (doneState .ok { s with result := v, cursor := c }) ∧
      c.toNat = s.cursor.toNat + w.toNat ∧
      ∀ i, i < 32 → v.getLsbD i = (decide (i < w.toNat) && s.mem.bit base (q + i)))

/-- 40_bitstream.md R157, R160: BS_NEEDED puts the smallest width that represents ARG0 into RESULT and changes
nothing else. -/
def Obligations.BsNeededReturnsTheSmallestWidth : Prop :=
  ∀ s : State, ∃ r : Word, exec .bsNeeded s = .next (doneState .ok { s with result := r }) ∧
    (s.arg0.toNat = 0 → r.toNat = 0) ∧
    (0 < s.arg0.toNat → 1 ≤ r.toNat ∧ 2 ^ (r.toNat - 1) ≤ s.arg0.toNat ∧ s.arg0.toNat < 2 ^ r.toNat)

/-- 40_bitstream.md R158, R159: the sign-magnitude encoding of an offset and its decoding. -/
def Obligations.SignMagnitudeEncodesAndDecodes : Prop :=
  (∀ x : Int, x.natAbs ≤ 2 ^ 30 - 1 →
    1 ≤ (smEncode x).1 ∧ (smEncode x).1 ≤ 31 ∧ x.natAbs < 2 ^ ((smEncode x).1 - 1) ∧
    (x ≠ 0 → 2 ^ ((smEncode x).1 - 2) ≤ x.natAbs) ∧
    (smEncode x).2 = 2 * x.natAbs + (if x < 0 then 1 else 0) ∧ (smEncode x).2 < 2 ^ (smEncode x).1 ∧
    smDecode (smEncode x).2 = x) ∧
  smEncode 0 = (1, 0) ∧
  ∀ v : Nat, (smDecode v = if v.testBit 0 then -((v >>> 1 : Nat) : Int) else ((v >>> 1 : Nat) : Int)) ∧
    (v < 2 ^ 31 → (smDecode v).natAbs ≤ 2 ^ 30 - 1)

/-- The round-trip law of 40_bitstream.md section 1: a sign-magnitude field written anywhere in a buffer and read
from the same cursor gives the number back. -/
def Obligations.SignMagnitudeFieldsRoundTripThroughABuffer : Prop :=
  ∀ (s : State) (buf : BufSel) (a : Byte) (b : BitVec 3) (x : Int), s.mem.wf → x.natAbs < 2 ^ 30 →
    8 * a.toNat + b.toNat + s.cursor.toNat + (smEncode x).1 ≤ 2048 →
    ∃ s' s'' : State, ∃ v : Word,
      writeBits buf a b (smEncode x).1 (BitVec.ofNat 32 (smEncode x).2) s = some s' ∧
      readBits buf a b (smEncode x).1 { s' with cursor := s.cursor } = some (v, s'') ∧
      v.toNat = (smEncode x).2 ∧ smDecode v.toNat = x

/-! ## Frames and the exchange -/

/-- 41_frame.md sections 1 and 2 (the step counts are the model's: log 6): FRAME_TX rejects a length above 255 before
any transport request; otherwise it opens the link if it is not open and writes the frame `[A, checksum, L] ++
TX[0..L-1]` in one call. A failed open or write is COMM. Nothing but STATUS, the procedure's arguments and the record
changes. -/
def Obligations.FrameTxWritesTheFrame : Prop :=
  ∀ (s : State) (a : Byte), Started (.frameTx a) s →
    let n := s.arg0.toNat
    let p := (List.range n).map (fun i => s.mem.read (0x800 + i))
    let x : Xfer := { kind := .transmit, addr := a, payload := p, tms := 0 }
    let sum := a.toNat + (p.map BitVec.toNat).sum + (if s.env.params.txChecksumIncludesLength then n else 0)
    let frame := [a, BitVec.ofNat 8 (sum % 256), BitVec.ofNat 8 n] ++ p
    (255 < n → core.run 1 s = .next (doneState .validation s)) ∧
    (∀ (ok : Bool) (is ws : List Bool), n ≤ 255 → s.env.isOpenAnswers = true :: is → s.env.writeAnswers = ok :: ws →
      core.run 4 s = .next (doneState (if ok then .ok else .comm)
        { s with
          xfer := x,
          env := { s.env with
            isOpenAnswers := is, writeAnswers := ws,
            history := .wrote frame ok :: .isOpen true :: s.env.history } })) ∧
    (∀ (ok : Bool) (is os ws : List Bool), n ≤ 255 → s.env.isOpenAnswers = false :: is → s.env.openAnswers = true :: os →
      s.env.writeAnswers = ok :: ws →
      core.run 5 s = .next (doneState (if ok then .ok else .comm)
        { s with
          xfer := x,
          env := { s.env with
            isOpenAnswers := is, openAnswers := os, writeAnswers := ws,
            history := .wrote frame ok :: .opened true :: .isOpen false :: s.env.history } })) ∧
    (∀ is os : List Bool, n ≤ 255 → s.env.isOpenAnswers = false :: is → s.env.openAnswers = false :: os →
      core.run 4 s = .next (doneState .comm
        { s with
          xfer := x,
          env := { s.env with
            isOpenAnswers := is, openAnswers := os,
            history := .opened false :: .isOpen false :: s.env.history } }))

/-- 41_frame.md R177, R178 and 44_aux_messages.md R250, step by step: FRAME_TX with a length up to 255 calls
`Transmit` with its first bytes of TX_BUF, and ends with VALIDATION above; FRAME_RX calls its receive with the
timeout ARG0; at the return FRAME_TX, FRAME_RX and CHANGE_ADDR complete with the procedure's error, FRAME_RX writing
RESULT on success only and CHANGE_ADDR checking the acknowledgement. -/
def Obligations.FrameCommandsCallTheTransportAndCompleteAtItsReturn : Prop :=
  ∀ (s : State) (a : Byte), s.fsm = .run →
    (s.pt = .start →
      (255 < s.arg0.toNat → exec (.frameTx a) s = .next (doneState .validation s)) ∧
      (s.arg0.toNat ≤ 255 → exec (.frameTx a) s = .next { s with
        pt := .isOpen,
        xfer := {
          kind := .transmit, addr := a, payload := (List.range s.arg0.toNat).map (fun i => s.mem.read (0x800 + i)),
          tms := 0 } }) ∧
      exec .frameRx s = .next { s with
        pt := .isOpen, xfer := { kind := .receive, addr := 0, payload := [], tms := s.arg0 } }) ∧
    (s.pt = .ret .ok →
      exec (.frameTx a) s = .next (doneState .ok s) ∧
      exec .frameRx s = .next (doneState .ok { s with result := s.rxLen.setWidth 32 }) ∧
      exec (.changeAddr a) s = .next (doneState (ackOutcome 1 .ok s) s)) ∧
    (s.pt = .ret .checksum →
      exec (.frameTx a) s = .next (doneState .checksum s) ∧ exec .frameRx s = .next (doneState .checksum s) ∧
      exec (.changeAddr a) s = .next (doneState .checksum s)) ∧
    (s.pt = .ret .comm →
      exec (.frameTx a) s = .next (doneState .comm s) ∧ exec .frameRx s = .next (doneState .comm s) ∧
      exec (.changeAddr a) s = .next (doneState .comm s))

/-- 41_frame.md sections 1 and 2 (`EnsureOpen`, `Receive` and FRAME_RX; the step counts are the model's: log 6), the
link being open or closed. Fed a checksum byte `c`, a length byte `n` and `n` payload bytes, FRAME_RX opens the link if
it is not open, sets the timeout ARG0, puts the payload into RX_BUF with 0 after it, and completes with RESULT = n, or
with CHECKSUM and RESULT as it was. A read that fails after the bytes `got` is COMM, with the payload bytes received in
RX_BUF and 0 after them, and RXLEN the length byte if it was received. A failed open is COMM, with nothing received. -/
def Obligations.FrameRxReceivesAReply : Prop :=
  ∀ (s : State) (link : Bool) (is os : List Bool),
    Started .frameRx s → s.mem.wf → s.env.isOpenAnswers = link :: is →
    let x : Xfer := { kind := .receive, addr := 0, payload := [], tms := s.arg0 }
    let asked : List Event := if link then [.isOpen true] else [.opened true, .isOpen false]
    let opening : Nat := if link then 0 else 1
    let rxHolds (t : State) (p : List Byte) : Prop :=
      ∀ a, t.mem.read a = if 0x900 ≤ a ∧ a < 0xA00 then p.getD (a - 0x900) 0 else s.mem.read a
    let same (t : State) : Prop :=
      t.ports = s.ports ∧ t.cursor = s.cursor ∧ t.arg0 = s.arg0 ∧ t.cmd = s.cmd ∧ t.seg = s.seg ∧
        t.attempt = s.attempt ∧ t.fsm = .idle
    let surroundings (reads rest : List ReadAnswer) : Env := { s.env with
      isOpenAnswers := is, openAnswers := if link then s.env.openAnswers else os, readAnswers := rest,
      history := (reads.map Event.readByte).reverse ++ [.setTimeout s.arg0] ++ asked ++ s.env.history }
    ((link = false → s.env.openAnswers = true :: os) →
      (∀ (c n : Byte) (p : List Byte) (rest : List ReadAnswer), p.length = n.toNat →
        s.env.readAnswers = replyAnswers c n p ++ rest →
        let good := decide (c.toNat = (n.toNat + (p.map BitVec.toNat).sum) % 256)
        ∃ t : State, core.run (6 + opening + n.toNat) s = .next t ∧
          t.status = { doneStatus (if good then .ok else .checksum) s.status with rxlen := n } ∧
          t.result = (if good then n.setWidth 32 else s.result) ∧ rxHolds t p ∧ same t ∧
          t.env = surroundings (replyAnswers c n p) rest) ∧
      (∀ (got : List Byte) (bad : ReadAnswer) (rest : List ReadAnswer), (bad = .timeout ∨ bad = .fail) →
        (∀ c n q, got = c :: n :: q → q.length < n.toNat) → s.env.readAnswers = got.map .byte ++ bad :: rest →
        ∃ t : State, core.run (5 + opening + got.length) s = .next t ∧
          t.status = { doneStatus .comm s.status with rxlen := got.getD 1 s.status.rxlen } ∧ t.result = s.result ∧
          rxHolds t (got.drop 2) ∧ same t ∧ t.env = surroundings (got.map .byte ++ [bad]) rest)) ∧
    (link = false → s.env.openAnswers = false :: os →
      core.run 4 s = .next (doneState .comm
        { s with
          xfer := x,
          env := { s.env with
            isOpenAnswers := is, openAnswers := os,
            history := .opened false :: .isOpen false :: s.env.history } }))

/-- 41_frame.md R172 (law 2 of its round-trip property): an exchange of a message fed a checksum byte, a length
byte and that many payload bytes returns OK exactly when the checksum agrees, with the payload in RX_BUF, 0 after
it, and RXLEN the length. -/
def Obligations.ExchangeReceivesAReply : Prop :=
  ∀ (s : State) (i : Instr) (c n : Byte) (p : List Byte) (rest : List ReadAnswer),
    s.status.busy = true → s.env.turns = [] → s.fsm = .rxChk → s.rxIdx = 0 → s.xfer.kind = .exchange →
    decode (.message s.xfer.payload) = .ok i → s.mem.wf → (∀ k, k < 256 → s.mem.read (0x900 + k) = 0) →
    p.length = n.toNat → s.env.readAnswers = replyAnswers c n p ++ rest →
    ∃ t : State, core.run (2 + n.toNat) s = .next t ∧ t.fsm = .run ∧
      t.pt = .ret (if c.toNat = (n.toNat + (p.map BitVec.toNat).sum) % 256 then .ok else .checksum) ∧
      t.rxLen = n ∧ t.status = { s.status with rxlen := n } ∧
      (∀ a, t.mem.read a = if 0x900 ≤ a ∧ a < 0xA00 then p.getD (a - 0x900) 0 else s.mem.read a) ∧
      t.ports = s.ports ∧ t.cursor = s.cursor ∧ t.result = s.result ∧ t.env.readAnswers = rest

/-- 41_frame.md section 1 (receive buffer contents after COMM), in the exchange of a message and in the receive of
FRAME_RX: a read that fails after `q` payload bytes returns COMM with those bytes in RX_BUF and 0 after them, RXLEN
being the length byte. -/
def Obligations.FailedReceiveKeepsTheBytesReceived : Prop :=
  ∀ (s : State) (i : Instr) (c n : Byte) (q : List Byte) (bad : ReadAnswer) (rest : List ReadAnswer),
    s.status.busy = true → s.env.turns = [] → s.fsm = .rxChk → s.rxIdx = 0 →
    ((s.xfer.kind = .exchange ∧ decode (.message s.xfer.payload) = .ok i) ∨
      (s.xfer.kind = .receive ∧ decode (.command s.cmd) = .ok .frameRx)) → s.mem.wf → (∀ k, k < 256 → s.mem.read (0x900 + k) = 0) →
    q.length < n.toNat → (bad = .timeout ∨ bad = .fail) → s.env.readAnswers = replyAnswers c n q ++ bad :: rest →
    ∃ t : State, core.run (3 + q.length) s = .next t ∧ t.fsm = .run ∧ t.pt = .ret .comm ∧
      t.status = { s.status with rxlen := n } ∧
      (∀ a, t.mem.read a = if 0x900 ≤ a ∧ a < 0xA00 then q.getD (a - 0x900) 0 else s.mem.read a) ∧
      t.ports = s.ports ∧ t.env.readAnswers = rest

/-- The exchange state machine of 41_frame.md section 1, for each of the five wire messages: what `exec` of the
message does at each transport request, with the TRANSPORT's answer. The frame written is
`[address, checksum, length] ++ payload` (30_encoding.md R120, R122). -/
def Obligations.WireMessagesFollowTheExchangeStateMachine : Prop :=
  ∀ (i : Instr) (p : List Byte) (s : State), encode i = .message p → s.mem.wf →
    let back (r : Reply) (e : Env) : Host.Outcome State Fault Refusal := .next { s with fsm := .run, pt := .ret r, env := e }
    let sum := s.xfer.addr.toNat + (p.map BitVec.toNat).sum + (if s.env.params.txChecksumIncludesLength then p.length else 0)
    let frame := [s.xfer.addr, BitVec.ofNat 8 (sum % 256), BitVec.ofNat 8 p.length] ++ p
    (s.fsm = .run → s.pt = .isOpen →
      exec i s = .next { s with
        fsm := if s.env.askIsOpen.1 then .run else .opening, pt := if s.env.askIsOpen.1 then .setTimeout else .isOpen,
        env := s.env.askIsOpen.2 }) ∧
    (s.fsm = .opening →
      exec i s = if s.env.askOpen.1 then .next { s with fsm := .run, pt := .setTimeout, env := s.env.askOpen.2 }
        else back .comm s.env.askOpen.2) ∧
    (s.fsm = .run → s.pt = .setTimeout →
      exec i s = .next { s with
        fsm := .send, env := { s.env with history := .setTimeout s.xfer.tms :: s.env.history } }) ∧
    (s.fsm = .send → (s.env.askWrite frame).1 = false → exec i s = back .comm (s.env.askWrite frame).2) ∧
    (s.fsm = .send → (s.env.askWrite frame).1 = true → ∃ m : Memory,
      exec i s = .next { s with mem := m, rxIdx := 0, fsm := .rxChk, pt := .setTimeout, env := (s.env.askWrite frame).2 } ∧
      ∀ a, m.read a = if 0x900 ≤ a ∧ a < 0xA00 then 0 else s.mem.read a) ∧
    (s.fsm = .rxChk ∨ s.fsm = .rxLen ∨ s.fsm = .rxPay → (s.env.askRead.1 = .timeout ∨ s.env.askRead.1 = .fail) →
      exec i s = back .comm s.env.askRead.2) ∧
    (∀ c, s.fsm = .rxChk → s.env.askRead.1 = .byte c →
      exec i s = .next { s with rxChk := c, fsm := .rxLen, env := s.env.askRead.2 }) ∧
    (∀ n : Byte, s.fsm = .rxLen → s.env.askRead.1 = .byte n → 0 < n.toNat →
      exec i s = .next { s with
        rxLen := n, status := { s.status with rxlen := n }, fsm := .rxPay, pt := .setTimeout, env := s.env.askRead.2 }) ∧
    (s.fsm = .rxLen → s.env.askRead.1 = .byte 0 →
      exec i s = .next { s with
        rxLen := 0, status := { s.status with rxlen := 0 }, fsm := .run,
        pt := .ret (if s.rxChk = 0 then .ok else .checksum), env := s.env.askRead.2 }) ∧
    (∀ b, s.fsm = .rxPay → s.env.askRead.1 = .byte b → ∃ m : Memory,
      (∀ a, m.read a = if a = 0x900 + s.rxIdx.toNat then b else s.mem.read a) ∧
      (s.rxIdx.toNat + 1 < s.rxLen.toNat →
        exec i s = .next { s with mem := m, rxIdx := s.rxIdx + 1, env := s.env.askRead.2 }) ∧
      (s.rxLen.toNat ≤ s.rxIdx.toNat + 1 →
        let total := s.rxLen.toNat + ((List.range s.rxLen.toNat).map (fun k => (m.read (0x900 + k)).toNat)).sum
        exec i s = .next { s with
          mem := m, rxIdx := s.rxIdx + 1, fsm := .run,
          pt := .ret (if total % 256 = s.rxChk.toNat then .ok else .checksum), env := s.env.askRead.2 }))

/-- At a transport request of an exchange the running command and the message in flight do the same (41_frame.md
section 1): a command reaches the wire through its messages only. -/
def Obligations.MessageStepIsTheCommandsExchangeStep : Prop :=
  ∀ (i m : Instr) (s : State), commandKind i ≠ .single → atRequest s = true → s.xfer.kind = .exchange →
    decode (.message s.xfer.payload) = .ok m → exec i s = exec m s

/-! ## The negotiation family -/

/-- 42_negotiation.md R191 and 43_update.md R211 (the operand check) with the begin of a segment's cycle: a segment
operand above 1 is VALIDATION with STATUS changed only; else the command enters that segment. NEGOTIATE and UPDATE
begin with segment 0. -/
def Obligations.SegmentOperandsAreCheckedAtTheStart : Prop :=
  ∀ (s : State) (a : Byte), s.fsm = .run → s.pt = .start →
    let enter (g : SegIx) : State := { s with seg := g, status := { s.status with seg := g }, pt := .build }
    (1 < a.toNat → exec (.negotiateSeg a) s = .next (doneState .validation s) ∧
      exec (.updateSeg a) s = .next (doneState .validation s)) ∧
    (∀ g : SegIx, a.toNat = g.val → exec (.negotiateSeg a) s = .next (enter g) ∧
      exec (.updateSeg a) s = .next { enter g with attempt := 0 }) ∧
    exec .negotiate s = .next (enter 0) ∧ exec .update s = .next { enter 0 with attempt := 0 }

/-- 30_encoding.md R133, R134, R135 and 42_negotiation.md R192, R193: a negotiation request that fits is built in
TX_BUF as tag 2, the two type bytes and the bitstream from byte 3, with the device counts clamped; the exchange
goes to the segment's address with timeout T_NEG_MS. -/
def Obligations.NegotiationBuildsTheRequest : Prop :=
  ∀ (s : State) (i : Instr), (i = .negotiate ∨ ∃ a, i = .negotiateSeg a) → s.fsm = .run → s.pt = .build → s.mem.wf →
    (negotiationBits s.seg s).length ≤ 2016 →
    ∃ t : State, exec i s = .next t ∧ t.fsm = .run ∧ t.pt = .isOpen ∧
      t.cursor.toNat = (negotiationBits s.seg s).length ∧
      t.xfer = {
        kind := .exchange, addr := BitVec.ofNat 8 (s.seg.val + 1),
        payload := (List.range (3 + ((negotiationBits s.seg s).length + 7) / 8)).map (fun k => t.mem.read (0x800 + k)),
        tms := s.env.params.tNegMs } ∧
      t.mem.read 0x800 = 2 ∧ t.mem.read 0x801 = (s.port (lowPort s.seg)).code ∧
      t.mem.read 0x802 = (s.port (highPort s.seg)).code ∧
      (∀ k, 24 + k < 2048 → t.mem.bit 0x800 (24 + k) = (negotiationBits s.seg s).getD k false) ∧
      (∀ a, a < 0x800 ∨ 0x900 ≤ a → t.mem.read a = s.mem.read a) ∧
      t.status = { s.status with attempts := 1 } ∧ t.env = s.env

/-- 42_negotiation.md R195: a negotiation request of more than 2016 bits ends with VALIDATION before any transport
request. -/
def Obligations.NegotiationTooLongIsRejectedBeforeAnyRequest : Prop :=
  ∀ (s : State) (i : Instr), (i = .negotiate ∨ ∃ a, i = .negotiateSeg a) → s.fsm = .run → s.pt = .build →
    2016 < (negotiationBits s.seg s).length →
    ∃ t : State, exec i s = .next t ∧ t.fsm = .run ∧ t.pt = .finish .validation ∧ t.cursor.toNat ≤ 2016 ∧
      t.status = { s.status with attempts := 1 } ∧ t.env = s.env

/-- 42_negotiation.md R192: the clamp is written back whatever becomes of the build, for the segment's I2C ports
only. -/
def Obligations.NegotiationClampsDeviceCounts : Prop :=
  ∀ (s t : State) (i : Instr), (i = .negotiate ∨ ∃ a, i = .negotiateSeg a) → s.fsm = .run → s.pt = .build →
    exec i s = .next t →
    ∀ p, t.port p =
      if (p = lowPort s.seg ∨ p = highPort s.seg) ∧ s.portClass p = .i2c then
        { s.port p with devCount := BitVec.ofNat 8 (min (max (s.port p).devCount.toNat 1) 8) }
      else s.port p

/-- 42_negotiation.md R190, R197, R198: after the exchange a negotiation ends with the exchange's error or with
PROTOCOL, with no retry; on success NEGOTIATE goes from segment 0 to segment 1 and otherwise the command completes. -/
def Obligations.NegotiationReplyIsCheckedWithoutRetry : Prop :=
  ∀ (s : State) (r : Reply) (a : Byte), s.fsm = .run → s.pt = .ret r →
    exec (.negotiateSeg a) s = .next (doneState (ackOutcome 2 r s) s) ∧
    (ackOutcome 2 r s = .ok ∧ s.seg = 0 →
      exec .negotiate s = .next { s with seg := 1, status := { s.status with seg := 1 }, pt := .build }) ∧
    (ackOutcome 2 r s ≠ .ok ∨ s.seg = 1 → exec .negotiate s = .next (doneState (ackOutcome 2 r s) s))

/-- The state a negotiation leaves (42_negotiation.md section 1): of the channel state only DEVCOUNT of the
segment's ports can change, of memory only TX_BUF and RX_BUF; ARG0, RESULT and CMD never do. -/
def Obligations.NegotiationFrame : Prop :=
  ∀ (s t : State) (i : Instr), (i = .negotiate ∨ ∃ a, i = .negotiateSeg a) → s.mem.wf → exec i s = .next t →
    (∀ p, t.port p = { s.port p with devCount := (t.port p).devCount }) ∧
    (∀ p, p ≠ lowPort s.seg → p ≠ highPort s.seg → t.port p = s.port p) ∧
    (∀ a, a < 0x800 ∨ 0xA00 ≤ a → t.mem.read a = s.mem.read a) ∧
    t.arg0 = s.arg0 ∧ t.result = s.result ∧ t.cmd = s.cmd

/-- The whole run of NEGOTIATE (42_negotiation.md section 2): with both requests in range, both segments
acknowledging and the link open, 17 engine steps after its start the command has completed with ERR = OK, SEG = 1,
ATTEMPTS = 1 and RXLEN = 1, and has written two frames, to addresses 1 and 2. The step counts are the model's (log 6). -/
def Obligations.NegotiateCompletesWhenBothSegmentsAcknowledge : Prop :=
  ∀ (s : State) (is ws : List Bool) (rest : List ReadAnswer), Started .negotiate s → s.mem.wf →
    (negotiationBits 0 s).length ≤ 2016 → (negotiationBits 1 s).length ≤ 2016 →
    s.env.isOpenAnswers = true :: true :: is → s.env.writeAnswers = true :: true :: ws →
    s.env.readAnswers = ackAnswers 2 ++ ackAnswers 2 ++ rest →
    ∃ (t : State) (f0 f1 : List Byte), core.run 17 s = .next t ∧
      t.status = { doneStatus .ok s.status with seg := 1, attempts := 1, rxlen := 1 } ∧ t.fsm = .idle ∧
      f0.head? = some 1 ∧ f1.head? = some 2 ∧
      t.env.history.filter (fun e => match e with | .wrote _ _ => true | _ => false) =
        [.wrote f1 true, .wrote f0 true] ++ s.env.history.filter (fun e => match e with | .wrote _ _ => true | _ => false)

/-! ## The update family -/

/-- 30_encoding.md R127, R128, R131, R132 and 43_update.md R218: an update request that fits is built in TX_BUF as
tag 3 and the bitstream from byte 1: the encoder-offset fields, the motor commands and the per-cycle I2C
sub-requests; the exchange goes to the segment's address with timeout T_UPD_MS. The channel state is as it was. -/
def Obligations.UpdateBuildsTheRequest : Prop :=
  ∀ (s : State) (i : Instr), (i = .update ∨ ∃ a, i = .updateSeg a) → s.fsm = .run → s.pt = .build → s.mem.wf →
    devCountsOk s.seg s = true → (∀ p, (s.port p).encOffset.toInt.natAbs ≤ 2 ^ 30 - 1) →
    (updateBits s.seg s).length ≤ 2032 →
    ∃ t : State, exec i s = .next t ∧ t.fsm = .run ∧ t.pt = .isOpen ∧
      t.cursor.toNat = (updateBits s.seg s).length ∧
      t.xfer = {
        kind := .exchange, addr := BitVec.ofNat 8 (s.seg.val + 1),
        payload := (List.range (1 + ((updateBits s.seg s).length + 7) / 8)).map (fun k => t.mem.read (0x800 + k)),
        tms := s.env.params.tUpdMs } ∧
      t.mem.read 0x800 = 3 ∧
      (∀ k, 8 + k < 2048 → t.mem.bit 0x800 (8 + k) = (updateBits s.seg s).getD k false) ∧
      (∀ a, a < 0x800 ∨ 0x900 ≤ a → t.mem.read a = s.mem.read a) ∧
      t.attempt = s.attempt + 1 ∧ t.status = { s.status with attempts := s.attempt + 1 } ∧ t.ports = s.ports ∧
      t.env = s.env

/-- 43_update.md R225: an I2C port of the segment whose DEVCOUNT is outside [1, 8] makes the build VALIDATION before
TX_BUF or CURSOR changes. -/
def Obligations.UpdateRejectsDeviceCountsOutOfRange : Prop :=
  ∀ (s : State) (i : Instr) (p : PortIx), (i = .update ∨ ∃ a, i = .updateSeg a) → s.fsm = .run → s.pt = .build →
    (p = lowPort s.seg ∨ p = highPort s.seg) → s.portClass p = .i2c →
    ((s.port p).devCount.toNat < 1 ∨ 8 < (s.port p).devCount.toNat) →
    exec i s = .next { s with
      attempt := s.attempt + 1, status := { s.status with attempts := s.attempt + 1 }, pt := .finish .validation }

/-- 43_update.md R226: an update request of more than 2032 bits ends with VALIDATION with no transport request and
no offset cleared. -/
def Obligations.UpdateTooLongIsRejectedBeforeAnyRequest : Prop :=
  ∀ (s : State) (i : Instr), (i = .update ∨ ∃ a, i = .updateSeg a) → s.fsm = .run → s.pt = .build →
    devCountsOk s.seg s = true → (∀ p, (s.port p).encOffset.toInt.natAbs ≤ 2 ^ 30 - 1) →
    2032 < (updateBits s.seg s).length →
    ∃ t : State, exec i s = .next t ∧ t.fsm = .run ∧ t.pt = .finish .validation ∧ t.cursor.toNat ≤ 2032 ∧
      t.ports = s.ports ∧ t.env = s.env

/-- 43_update.md R222, R223, R224, R227: after a failed attempt COMM keeps the offsets, CHECKSUM and PROTOCOL clear
those of the segment's two ports; the request is rebuilt and resent while fewer than two attempts were made, and
after the second attempt the command ends with that attempt's error, for UPDATE without the other segment. -/
def Obligations.UpdateFailuresClassifyAndRetry : Prop :=
  ∀ (s : State) (i : Instr) (r : Reply), (i = .update ∨ ∃ a, i = .updateSeg a) → s.fsm = .run → s.pt = .ret r →
    (r = .ok → s.rxLen.toNat = 0 ∨ s.mem.read 0x900 ≠ 3) →
    let k : ErrKind := match r with | .comm => .comm | .checksum => .checksum | .ok => .protocol
    ∃ ps : Vector Port 4,
      (∀ p : PortIx, ps[p.val] =
        if r ≠ .comm ∧ (p = lowPort s.seg ∨ p = highPort s.seg) then { s.port p with encOffset := 0 } else s.port p) ∧
      (s.attempt.toNat < 2 → exec i s = .next { s with ports := ps, pt := .build }) ∧
      (2 ≤ s.attempt.toNat → exec i s = .next (doneState k { s with ports := ps }))

/-- 43_update.md R210, R212, R222: a valid reply clears the offsets of the segment's two ports and ends its cycle:
UPDATE goes from segment 0 to segment 1, otherwise the command ends with OK. -/
def Obligations.UpdateSucceedsOnAValidReply : Prop :=
  ∀ (s : State) (a : Byte), ValidReply s →
    (∃ t, exec (.updateSeg a) s = .next t ∧ t.fsm = .run ∧ t.pt = .finish .ok ∧
      (∀ p, (t.port p).encOffset =
        if p = lowPort s.seg ∨ p = highPort s.seg then 0 else (s.port p).encOffset)) ∧
    (∃ t, exec .update s = .next t ∧ t.fsm = .run ∧ t.pt = (if s.seg = 0 then .enter 1 else .finish .ok) ∧
      (∀ p, (t.port p).encOffset =
        if p = lowPort s.seg ∨ p = highPort s.seg then 0 else (s.port p).encOffset)) ∧
    ∀ (u : State) (g : SegIx), u.fsm = .run → u.pt = .enter g →
      exec .update u = .next { u with seg := g, status := { u.status with seg := g }, attempt := 0, pt := .build }

/-- 30_encoding.md R138, R139 and 43_update.md R228: the two encoder readings are replaced by the sign-magnitude
values of the widths the two 5-bit fields give; the readings of the other segment stay. -/
def Obligations.UpdateParsesTheEncoders : Prop :=
  ∀ (s : State) (i : Instr), (i = .update ∨ ∃ a, i = .updateSeg a) → ValidReply s →
    ∃ t, exec i s = .next t ∧
      (t.port (lowPort s.seg)).encoder = BitVec.ofInt 32 (smDecode (rxBits s 18 (usedBits s 0))) ∧
      (t.port (highPort s.seg)).encoder =
        BitVec.ofInt 32 (smDecode (rxBits s (18 + usedBits s 0) (usedBits s 1))) ∧
      ∀ p, p ≠ lowPort s.seg → p ≠ highPort s.seg → t.port p = s.port p

/-- 43_update.md R229, R230: the sensor field of each port of the segment by its class: 1, 8 or 10 bits into
RAW_VALUE, or 3 bits and the components blank, red, green, blue of a colour sensor into its slots; the slots of a
port of another class keep their values. -/
def Obligations.UpdateParsesTheSensorFields : Prop :=
  ∀ (s : State) (i : Instr), (i = .update ∨ ∃ a, i = .updateSeg a) → ValidReply s →
    ∃ t, exec i s = .next t ∧ ∀ p, p = lowPort s.seg ∨ p = highPort s.seg →
      let q := fieldStart s.seg s p
      (s.portClass p = .touch → (t.port p).raw.toNat = rxBits s q 1) ∧
      (s.portClass p = .ultrasonic → (t.port p).raw.toNat = rxBits s q 8) ∧
      (s.portClass p = .default → (t.port p).raw.toNat = rxBits s q 10) ∧
      (s.portClass p = .colorFull → (t.port p).raw.toNat = rxBits s q 3 ∧
        ((t.port p).color[3]).toNat = rxBits s (q + 3) 10 ∧ ((t.port p).color[0]).toNat = rxBits s (q + 13) 10 ∧
        ((t.port p).color[1]).toNat = rxBits s (q + 23) 10 ∧ ((t.port p).color[2]).toNat = rxBits s (q + 33) 10) ∧
      (s.portClass p = .i2c → (t.port p).raw.toNat = rxBits s q (s.port p).devCount.toNat) ∧
      (s.portClass p ≠ .colorFull → (t.port p).color = (s.port p).color)

/-- 43_update.md R231: the input bytes 0..RLEN-1 of every device whose presence bit is set are replaced, in slot
order, by the bytes after the mask; every other byte of memory keeps its value. -/
def Obligations.UpdateParsesTheI2cBytes : Prop :=
  ∀ (s : State) (i : Instr), (i = .update ∨ ∃ a, i = .updateSeg a) → ValidReply s → s.mem.wf →
    let present (p : PortIx) (d : SlotIx) : Bool :=
      (decide (p = lowPort s.seg) || decide (p = highPort s.seg)) && decide (s.portClass p = .i2c) &&
        decide (d.val < (s.port p).devCount.toNat) && s.mem.bit 0x900 (fieldStart s.seg s p + d.val)
    let len (p : PortIx) (d : SlotIx) : Nat := ((s.port p).dev[d.val]).rlen.toNat
    let addr (p : PortIx) (d : SlotIx) (k : Nat) : Nat := 0x600 + 0x80 * p.val + 0x10 * d.val + k
    ∃ t, exec i s = .next t ∧
      (∀ p d k, present p d = true → k < len p d →
        (t.mem.read (addr p d k)).toNat =
          rxBits s (fieldStart s.seg s p + (s.port p).devCount.toNat +
            8 * presentBytes s p (fieldStart s.seg s p) d.val + 8 * k) 8) ∧
      ∀ a, (∀ p d k, present p d = true → k < len p d → a ≠ addr p d k) → t.mem.read a = s.mem.read a

/-- 43_update.md R232: at the end of a parse CURSOR is the number of bits read, and UNDERRUN is set exactly when
they reach past the last received payload byte. -/
def Obligations.UpdateFlagsUnderrun : Prop :=
  ∀ (s : State) (i : Instr), (i = .update ∨ ∃ a, i = .updateSeg a) → ValidReply s →
    ∃ t, exec i s = .next t ∧ t.cursor.toNat + 8 = replyEnd s.seg s ∧
      t.status = { s.status with underrun := decide (8 * s.rxLen.toNat < replyEnd s.seg s) }

/-- What the update family never writes (43_update.md section 5): SENSOR_TYPE, I2C_CFG, I2C_DEV, I2C_OUT, MOTOR_EN,
MOTOR_SPEED, ARG0, RESULT and CMD, and no register of the ports of the other segment. -/
def Obligations.UpdateFrame : Prop :=
  ∀ (s t : State) (i : Instr), (i = .update ∨ ∃ a, i = .updateSeg a) → s.mem.wf → exec i s = .next t →
    (∀ p, (t.port p).code = (s.port p).code ∧ (t.port p).i2cSpeed = (s.port p).i2cSpeed ∧
      (t.port p).devCount = (s.port p).devCount ∧ (t.port p).dev = (s.port p).dev ∧ (t.port p).en = (s.port p).en ∧
      (t.port p).speed = (s.port p).speed) ∧
    (∀ p, p ≠ lowPort s.seg → p ≠ highPort s.seg → t.port p = s.port p) ∧
    (∀ a, a < 0x600 ∨ 0xA00 ≤ a → t.mem.read a = s.mem.read a) ∧
    t.arg0 = s.arg0 ∧ t.result = s.result ∧ t.cmd = s.cmd

/-- The whole run of UPDATE_SEG on a valid first reply (43_update.md sections 1 and 5): with a request in range and
the link open, the command completes with ERR = OK and ATTEMPTS = 1 after one frame to the segment's address, the
offsets of its two ports being cleared. The step counts are the model's (log 6). -/
def Obligations.UpdateSegCompletesOnAValidFirstReply : Prop :=
  ∀ (s : State) (a : Byte) (g : SegIx) (c n : Byte) (p : List Byte) (is ws : List Bool) (rest : List ReadAnswer),
    Started (.updateSeg a) s → s.mem.wf → a.toNat = g.val → devCountsOk g s = true →
    (∀ q, (s.port q).encOffset.toInt.natAbs ≤ 2 ^ 30 - 1) → (updateBits g s).length ≤ 2032 →
    p.length = n.toNat → p.head? = some 3 → c.toNat = (n.toNat + (p.map BitVec.toNat).sum) % 256 →
    s.env.isOpenAnswers = true :: is → s.env.writeAnswers = true :: ws →
    s.env.readAnswers = replyAnswers c n p ++ rest →
    ∃ (t : State) (f : List Byte), core.run (9 + n.toNat) s = .next t ∧ t.fsm = .idle ∧
      t.status.busy = false ∧ t.status.done = true ∧ t.status.err = .ok ∧ t.status.seg = g ∧ t.status.attempts = 1 ∧
      t.status.rxlen = n ∧ (t.port (lowPort g)).encOffset = 0 ∧ (t.port (highPort g)).encOffset = 0 ∧
      f.head? = some (BitVec.ofNat 8 (g.val + 1)) ∧
      t.env.history =
        ((replyAnswers c n p).map Event.readByte).reverse ++
          [.wrote f true, .setTimeout s.env.params.tUpdMs, .isOpen true] ++ s.env.history

/-! ## The auxiliary family -/

/-- 44_aux_messages.md R250, R253: CHANGE_ADDR rejects a new address above 255 before any request; else it sends
`[1, ARG0[7:0]]` to address A in one attempt, and on the acknowledgement `[1]` it completes with OK. The step counts
are the model's (log 6). -/
def Obligations.ChangeAddrSendsTheNewAddress : Prop :=
  (∀ (s : State) (a : Byte), s.fsm = .run → s.pt = .start →
    (255 < s.arg0.toNat → exec (.changeAddr a) s = .next (doneState .validation s)) ∧
    (s.arg0.toNat ≤ 255 → exec (.changeAddr a) s = .next { s with
      attempt := 1, status := { s.status with attempts := 1 }, pt := .isOpen,
      xfer := {
        kind := .exchange, addr := a, payload := [1, BitVec.ofNat 8 s.arg0.toNat], tms := s.env.params.tAuxMs } })) ∧
  ∀ (s : State) (a : Byte) (is ws : List Bool) (rest : List ReadAnswer), Started (.changeAddr a) s → s.mem.wf →
    s.arg0.toNat ≤ 255 → s.env.isOpenAnswers = true :: is → s.env.writeAnswers = true :: ws →
    s.env.readAnswers = ackAnswers 1 ++ rest →
    ∃ t, core.run 8 s = .next t ∧ t.status = { doneStatus .ok s.status with attempts := 1, rxlen := 1 } ∧
      t.fsm = .idle ∧ t.ports = s.ports

/-- 44_aux_messages.md R251, R252, R254: ESTOP sends `[4]` and SET_TIMEOUT `[5, ARG0 little-endian]` to segment 0 and
then to segment 1 whatever became of segment 0; the first error and its segment are reported, else OK and segment
1. -/
def Obligations.BroadcastsReachBothSegments : Prop :=
  ∀ (s : State) (i : Instr) (tag : Byte) (p : List Byte),
    ((i = .estop ∧ tag = 4 ∧ p = [4]) ∨
      (i = .setTimeout ∧ tag = 5 ∧
        p = [5, s.arg0.extractLsb' 0 8, s.arg0.extractLsb' 8 8, s.arg0.extractLsb' 16 8, s.arg0.extractLsb' 24 8])) →
    s.fsm = .run →
    let send (g : SegIx) (u : State) : State :=
      { u with
        seg := g, attempt := 1, status := { u.status with attempts := 1 }, pt := .isOpen,
        xfer := { kind := .exchange, addr := BitVec.ofNat 8 (g.val + 1), payload := p, tms := s.env.params.tAuxMs } }
    (s.pt = .start → exec i s = .next (send 0 { s with auxErr := .ok, auxSeg := 1 })) ∧
    ∀ r : Reply, s.pt = .ret r →
      let k := ackOutcome tag r s
      let u : State := if k ≠ .ok ∧ s.auxErr = .ok then { s with auxErr := k, auxSeg := s.seg } else s
      (s.seg = 0 → exec i s = .next (send 1 u)) ∧
      (s.seg = 1 → exec i s = .next { u with status := { u.status with seg := u.auxSeg }, pt := .finish u.auxErr })

/-- Whole runs of ESTOP and SET_TIMEOUT (44_aux_messages.md section 2): when both segments acknowledge they complete
with OK and SEG = 1 in 16 engine steps; when segment 0 does not answer, segment 1 still gets the message and the
command completes with COMM and SEG = 0 in 14. The step counts are the
model's (log 6). -/
def Obligations.BroadcastsCompleteOnEitherOutcome : Prop :=
  ∀ (s : State) (i : Instr) (tag : Byte) (is ws : List Bool) (rest : List ReadAnswer),
    (i = .estop ∧ tag = 4) ∨ (i = .setTimeout ∧ tag = 5) → Started i s → s.mem.wf →
    s.env.isOpenAnswers = true :: true :: is → s.env.writeAnswers = true :: true :: ws →
    (s.env.readAnswers = ackAnswers tag ++ ackAnswers tag ++ rest →
      ∃ t, core.run 16 s = .next t ∧
        t.status = { doneStatus .ok s.status with seg := 1, attempts := 1, rxlen := 1 } ∧ t.fsm = .idle ∧
        t.ports = s.ports) ∧
    (s.env.readAnswers = .timeout :: ackAnswers tag ++ rest →
      ∃ t, core.run 14 s = .next t ∧
        t.status = { doneStatus .comm s.status with seg := 0, attempts := 1, rxlen := 1 } ∧ t.fsm = .idle ∧
        t.ports = s.ports ∧ t.env.writeAnswers = ws)

/-! ## Frames over all instructions -/

/-- The bitstream, frame and auxiliary families and the wire messages change no channel state: no port register and
no I2C byte; and only the bitstream commands change TX_BUF or CURSOR (40_bitstream.md section 2, 41_frame.md section
2, 44_aux_messages.md section 1). -/
def Obligations.OtherFamiliesLeaveTheChannelState : Prop :=
  ∀ (s t : State) (i : Instr), commandKind i ≠ .negotiation → commandKind i ≠ .update → s.mem.wf → exec i s = .next t →
    t.ports = s.ports ∧ (∀ a, a < 0x800 ∨ 0xA00 ≤ a → t.mem.read a = s.mem.read a) ∧
    (i ≠ .bsClear → (∀ a b w, i ≠ .bsWrite a b w) → ∀ a, a < 0x900 → t.mem.read a = s.mem.read a) ∧
    (i ≠ .bsClear → (∀ a b w, i ≠ .bsWrite a b w) → (∀ a b sel w, i ≠ .bsRead a b sel w) → t.cursor = s.cursor)

/-- 10_state.md section 3: no instruction writes CMD or ARG0, and only BS_READ, BS_NEEDED and FRAME_RX write RESULT;
VERR and the parameters are never written by the engine, and it never takes the duty to poll from the host
(70_reset_and_hazards.md section 3). -/
def Obligations.CommandOperandRegistersAreNotWritten : Prop :=
  ∀ (s t : State) (i : Instr), exec i s = .next t →
    t.cmd = s.cmd ∧ t.arg0 = s.arg0 ∧ t.status.verr = s.status.verr ∧ t.env.params = s.env.params ∧
    t.env.turns = s.env.turns ∧ t.env.unpolled = s.env.unpolled ∧
    (i ≠ .bsNeeded → i ≠ .frameRx → (∀ a b sel w, i ≠ .bsRead a b sel w) → t.result = s.result)

/-! ## The host bus -/

/-- 10_state.md R33, R43, R44 (the validation of a host write): MOTOR_SPEED stores −255..255 and ENC_OFFSET
magnitudes up to 2^30 − 1; any other value leaves the register and sets VERR. -/
def Obligations.ValidatedWritesStoreOrSetVerr : Prop :=
  ∀ (s : State) (p : PortIx) (v : Word) (ts : List Turn), s.status.busy = false → s.env.unpolled = false →
    let put (a : Addr) (x : Port) : State :=
      { s with
        ports := s.ports.set p.val x,
        env := { s.env with turns := ts, history := .hostWrite a v true :: s.env.history } }
    let reject (a : Addr) : State :=
      { s with
        status := { s.status with verr := true },
        env := { s.env with turns := ts, history := .hostWrite a v false :: s.env.history } }
    (∀ a : Addr, a = BitVec.ofNat 12 (0x104 + 0x80 * p.val) → s.env.turns = .host (.write a 4 v) :: ts →
      (-255 ≤ v.toInt ∧ v.toInt ≤ 255 → step s = .next (put a { s.port p with speed := v })) ∧
      (v.toInt < -255 ∨ 255 < v.toInt → step s = .next (reject a))) ∧
    (∀ a : Addr, a = BitVec.ofNat 12 (0x108 + 0x80 * p.val) → s.env.turns = .host (.write a 4 v) :: ts →
      (v.toInt.natAbs ≤ 2 ^ 30 - 1 → step s = .next (put a { s.port p with encOffset := v })) ∧
      (2 ^ 30 - 1 < v.toInt.natAbs → step s = .next (reject a)))

/-- 20_memory.md section 2 and 60_exceptions.md section 2: an access of another size than 4, to a misaligned or to an
unmapped address is the fault BusError, which carries the history with the access (20_memory.md R101; log 14). An
aligned read of 4 bytes of a mapped address is never a fault, and such a write is none when no command runs and the host
has read STATUS with BUSY = 0 since the last one (70_reset_and_hazards.md section 3). That a write which is unmapped or
misaligned is BusError also while a command runs is the model's choice (log 10). -/
def Obligations.BusErrorsAreExactlyTheUnmappedAccesses : Prop :=
  ∀ (s : State) (x : HostAccess) (ts : List Turn) (a : Addr) (n : Nat), s.env.turns = .host x :: ts →
    (x = .read a n ∨ ∃ v, x = .write a n v) →
    ((n ≠ 4 ∨ a.toNat % 4 ≠ 0 ∨ unmapped a.toNat) → step s = .fault (.busError (.faulted x :: s.env.history))) ∧
    (n = 4 → a.toNat % 4 = 0 → ¬ unmapped a.toNat →
      (x = .read a n ∨ s.status.busy = false ∧ s.env.unpolled = false) → ∃ t, step s = .next t)

/-- 20_memory.md section 2, 10_state.md section 3 and 70_reset_and_hazards.md section 3: a read of STATUS returns its
word and, with BUSY = 0, ends the host's duty to poll; a write to STATUS only clears VERR; both whatever BUSY is. While
a command runs, and after a write to CMD until the host has read STATUS with BUSY = 0, any other write is the fault
HostContractViolation, which carries the history with the access as its newest entry (the form is the model's: log 14),
and any other read returns a draw and changes nothing (the counted draw is the model's: log 4). -/
def Obligations.AccessesWhileBusy : Prop :=
  ∀ (s : State) (r : Reg) (v : Word) (ts : List Turn),
    (s.env.turns = .host (.read 0x004 4) :: ts → ∃ w, statusWord s.status w ∧
      step s = .next { s with
        env := { s.env with
          turns := ts, history := .hostRead 0x004 w :: s.env.history,
          unpolled := s.env.unpolled && s.status.busy } }) ∧
    (s.env.turns = .host (.write 0x004 4 v) :: ts →
      step s = .next { s with
        status := { s.status with verr := s.status.verr && !v.getLsbD 2 },
        env := { s.env with turns := ts, history := .hostWrite 0x004 v true :: s.env.history } }) ∧
    (s.status.busy = true ∨ s.env.unpolled = true → r ≠ .status → s.env.turns = .host (.write r.addr 4 v) :: ts →
      step s = .fault (.hostContractViolation (.faulted (.write r.addr 4 v) :: s.env.history))) ∧
    (s.status.busy = true ∨ s.env.unpolled = true → r ≠ .status → s.env.turns = .host (.read r.addr 4) :: ts →
      step s = .next { s with
        env := { s.env with
          turns := ts, draws := s.env.draws + 1,
          history := .hostRead r.addr (Config.busyReadDraw s.env.draws) :: s.env.history } })

/-- 10_state.md sections 2 to 5 and 20_memory.md R83, R87: each register reads as the word its fields make, reserved
bits 0. When no command runs and the host has read STATUS with BUSY = 0 since the last one, a host read returns that
word and changes nothing but the record; repeated reads return the same. -/
def Obligations.HostReadsHaveNoSideEffect : Prop :=
  (∀ (s : State) (r : Reg), registerWord s (readReg s r) r) ∧
  ∀ (s : State) (r : Reg) (ts : List Turn), s.status.busy = false → s.env.unpolled = false →
    s.env.turns = .host (.read r.addr 4) :: ts →
    ∃ (w : Word) (t : State), registerWord s w r ∧ step s = .next t ∧
      t = { s with env := { s.env with turns := ts, history := .hostRead r.addr w :: s.env.history } } ∧
      ∀ r', readReg t r' = readReg s r'

/-- 10_state.md R32: a host write to a read-only word has no effect and is no error. -/
def Obligations.WritesToReadOnlyWordsAreIgnored : Prop :=
  ∀ (s : State) (r : Reg) (v : Word) (ts : List Turn) (p : PortIx) (d : SlotIx) (j : Fin 4) (k : Fin 64),
    s.status.busy = false → s.env.unpolled = false →
    (r = .result ∨ r = .encoder p ∨ r = .rawValue p ∨ r = .color p j ∨ r = .i2cIn p d j ∨ r = .rxBuf k) →
    s.env.turns = .host (.write r.addr 4 v) :: ts →
    step s = .next { s with env := { s.env with turns := ts, history := .hostWrite r.addr v true :: s.env.history } }

/-- 10_state.md R32, R39, R42, R47, R50, R51: a host write to a read/write register of an idle engine is recorded, the
word reads back with its reserved bits 0, and no other word and no hidden register changes. -/
def Obligations.WrittenRegistersReadBackMasked : Prop :=
  ∀ (s : State) (v : Word) (p : PortIx) (d : SlotIx) (j : Fin 4) (k : Fin 64) (r : Reg) (mask : Word) (ts : List Turn),
    s.mem.wf → s.status.busy = false → s.env.unpolled = false →
    ((r = .arg0 ∧ mask = 0xFFFFFFFF) ∨ (r = .cursor ∧ mask = 0x00000FFF) ∨ (r = .motorEn p ∧ mask = 0x00000001) ∨
      (r = .sensorType p ∧ mask = 0x000000FF) ∨ (r = .i2cCfg p ∧ mask = 0x0000FFFF) ∨
      (r = .i2cDev p d ∧ mask = 0x00FF03FF) ∨ (r = .i2cOut p d j ∧ mask = 0xFFFFFFFF) ∨
      (r = .txBuf k ∧ mask = 0xFFFFFFFF)) →
    s.env.turns = .host (.write r.addr 4 v) :: ts →
    ∃ t, step s = .next t ∧ readReg t r = v &&& mask ∧ (∀ r', r' ≠ r → readReg t r' = readReg s r') ∧
      t.fsm = s.fsm ∧ t.seg = s.seg ∧ t.attempt = s.attempt ∧ t.rxChk = s.rxChk ∧ t.rxLen = s.rxLen ∧
      t.rxIdx = s.rxIdx ∧ t.pt = s.pt ∧
      t.env = { s.env with turns := ts, history := .hostWrite r.addr v true :: s.env.history }

/-- 20_memory.md R84: byte 4j + i of a byte array is bits 8i+7 : 8i of its word j. -/
def Obligations.ByteArraysAreLittleEndian : Prop :=
  ∀ (s : State) (p : PortIx) (d : SlotIx) (j i : Fin 4) (k : Fin 64),
    (readReg s (.txBuf k)).extractLsb' (8 * i.val) 8 = s.mem.read (0x800 + 4 * k.val + i.val) ∧
    (readReg s (.rxBuf k)).extractLsb' (8 * i.val) 8 = s.mem.read (0x900 + 4 * k.val + i.val) ∧
    (readReg s (.i2cOut p d j)).extractLsb' (8 * i.val) 8 =
      s.mem.read (0x400 + 0x80 * p.val + 0x10 * d.val + 4 * j.val + i.val) ∧
    (readReg s (.i2cIn p d j)).extractLsb' (8 * i.val) 8 =
      s.mem.read (0x600 + 0x80 * p.val + 0x10 * d.val + 4 * j.val + i.val)

/-! ## Invariants and termination -/

/-- Every step keeps the byte memory in canonical form (the model's own representation: log 12). -/
def Obligations.EveryStepKeepsMemoryCanonical : Prop :=
  ∀ s t : State, memoryOk s → step s = .next t → memoryOk t

/-- 10_state.md section 3: BUSY and DONE are never both 1, the engine is IDLE exactly when BUSY = 0, and ERR is 0
while a command runs. -/
def Obligations.EveryStepKeepsStatusConsistent : Prop :=
  ∀ s t : State, statusOk s → step s = .next t → statusOk t

/-- Every step keeps the invariant of the machine: canonical memory, consistent STATUS, the program points of the
running command, register values in range, RX[255] = 0, at most two attempts, a message with a legal tag and
length in flight, and a running command not yet polled for (10_state.md sections 3 to 7, 30_encoding.md B.1,
70_reset_and_hazards.md section 3). -/
def Obligations.EveryStepKeepsTheInvariant : Prop :=
  ∀ s t : State, Inv s → step s = .next t → Inv t

/-- The reset state meets the invariant. -/
def Obligations.ResetMeetsTheInvariant : Prop := Inv State.reset

/-- 70_reset_and_hazards.md section 4: with the TRANSPORT answering every request, every command completes, within
1055 engine steps. The step counts are the model's (log 6). -/
def Obligations.EveryCommandCompletes : Prop :=
  ∀ s : State, Inv s → s.status.busy = true → s.env.turns = [] →
    ∃ n, n ≤ 1055 ∧ ∃ t, core.run n s = .next t ∧ t.status.busy = false ∧ t.status.done = true ∧ t.fsm = .idle

/-- 30_encoding.md R120, R122, R124: every frame the engine writes is an address, the checksum, the length byte and
at most 255 payload bytes. -/
def Obligations.EveryFrameWrittenIsWellFormed : Prop :=
  ∀ (s t : State) (f : List Byte) (ok : Bool), Inv s → step s = .next t →
    t.env.history = .wrote f ok :: s.env.history →
    ∃ (addr : Byte) (p : List Byte), p.length ≤ 255 ∧
      f = [addr, BitVec.ofNat 8 ((addr.toNat + (p.map BitVec.toNat).sum +
        (if s.env.params.txChecksumIncludesLength then p.length else 0)) % 256), BitVec.ofNat 8 p.length] ++ p
end

