-- ==== Sys2Proof/Laws/Memory.lean ====
section
/-! SUPPORT. The laws of byte memory and of bit access: a read after a write, the canonical form kept by every
operation, and what storing and loading a bit field means bit by bit. -/

namespace Sys2Proof.Machine

/-! ## Bytes -/

@[simp] theorem Memory.read_nil (a : Nat) : Memory.read [] a = 0 := rfl

@[simp] theorem Memory.read_cons (c : Host.Cell) (m : Memory) (a : Nat) :
    Memory.read (c :: m) a = if c.1 = a then c.2 else m.read a := rfl

theorem Memory.read_of_lt_all {m : Memory} {a : Nat} (h : ∀ c ∈ m, a < c.1) : m.read a = 0 := by
  induction m with
  | nil => rfl
  | cons c m ih =>
    have hc : c.1 ≠ a := by have := h c (by simp); omega
    simp [hc, ih (fun d hd => h d (by simp [hd]))]

theorem Memory.wf_tail {c : Host.Cell} {m : Memory} (h : Memory.wf (c :: m)) : m.wf :=
  ⟨(List.pairwise_cons.1 h.1).2, fun d hd => h.2 d (by simp [hd])⟩

theorem Memory.lt_of_wf_cons {c : Host.Cell} {m : Memory} (h : Memory.wf (c :: m)) : ∀ d ∈ m, c.1 < d.1 :=
  (List.pairwise_cons.1 h.1).1

theorem Memory.wf_nil : Memory.wf [] := ⟨List.Pairwise.nil, by simp⟩

/-- A cell of a written memory is the written one or an old one. -/
theorem Memory.mem_write {m : Memory} {a : Nat} {b : Byte} {c : Host.Cell} (h : c ∈ m.write a b) :
    (c = (a, b) ∧ b ≠ 0) ∨ c ∈ m := by
  induction m with
  | nil => by_cases hb : b = 0 <;> simp_all [Memory.write]
  | cons d m ih =>
    unfold Memory.write at h
    split_ifs at h with h1 h2 h3 h4
    · exact .inr h
    · rcases List.mem_cons.1 h with rfl | h
      · exact .inl ⟨rfl, h2⟩
      · exact .inr h
    · exact .inr (List.mem_cons_of_mem _ h)
    · rcases List.mem_cons.1 h with rfl | h
      · exact .inl ⟨rfl, h4⟩
      · exact .inr (List.mem_cons_of_mem _ h)
    · rcases List.mem_cons.1 h with rfl | h
      · exact .inr (by simp)
      · rcases ih h with h | h
        · exact .inl h
        · exact .inr (List.mem_cons_of_mem _ h)

theorem Memory.write_wf {m : Memory} (h : m.wf) (a : Nat) (b : Byte) : (m.write a b).wf := by
  induction m with
  | nil =>
    unfold Memory.write
    split_ifs with hb
    · exact Memory.wf_nil
    · exact ⟨List.pairwise_singleton _ _, by simpa using hb⟩
  | cons c m ih =>
    have ht := Memory.wf_tail h
    have hlt := Memory.lt_of_wf_cons h
    unfold Memory.write
    split_ifs with h1 h2 h3 h4
    · exact h
    · refine ⟨List.pairwise_cons.2 ⟨?_, h.1⟩, ?_⟩
      · intro d hd
        rcases List.mem_cons.1 hd with rfl | hd
        · exact h1
        · exact lt_trans h1 (hlt d hd)
      · intro d hd
        rcases List.mem_cons.1 hd with rfl | hd
        · exact h2
        · exact h.2 d hd
    · exact ht
    · refine ⟨List.pairwise_cons.2 ⟨?_, ht.1⟩, ?_⟩
      · intro d hd; have := hlt d hd; simp only; omega
      · intro d hd
        rcases List.mem_cons.1 hd with rfl | hd
        · exact h4
        · exact ht.2 d hd
    · refine ⟨List.pairwise_cons.2 ⟨?_, (ih ht).1⟩, ?_⟩
      · intro d hd
        rcases Memory.mem_write hd with ⟨rfl, _⟩ | hd
        · simp only; omega
        · exact hlt d hd
      · intro d hd
        rcases List.mem_cons.1 hd with rfl | hd
        · exact h.2 _ (by simp)
        · exact (ih ht).2 d hd

/-- A read after a write. -/
theorem Memory.read_write {m : Memory} (h : m.wf) (a : Nat) (b : Byte) (a' : Nat) :
    (m.write a b).read a' = if a' = a then b else m.read a' := by
  induction m with
  | nil =>
    by_cases hb : b = 0
    · simp [Memory.write, hb]
    · simp only [Memory.write, hb, if_false, Memory.read_cons, Memory.read_nil]
      by_cases e : a' = a
      · simp [e]
      · simp [e, Ne.symm e]
  | cons c m ih =>
    have ht := Memory.wf_tail h
    have hlt := Memory.lt_of_wf_cons h
    unfold Memory.write
    split_ifs with h1 h2 h3 h4 h5 h6 h7 h8 h9
    · subst h3; subst h2
      exact Memory.read_of_lt_all (fun d hd => by
        rcases List.mem_cons.1 hd with rfl | hd
        · exact h1
        · exact lt_trans h1 (hlt d hd))
    · rfl
    · subst h4; simp
    · rw [Memory.read_cons]; simp [Ne.symm h4]
    · subst h7; subst h6
      exact Memory.read_of_lt_all (fun d hd => by have := hlt d hd; omega)
    · have : c.1 ≠ a' := by omega
      simp [this]
    · subst h8; simp
    · have h' : c.1 ≠ a' := by omega
      simp [Ne.symm h8, h']
    · subst h9
      have : c.1 ≠ a' := by omega
      simp [this, ih ht]
    · rw [Memory.read_cons, Memory.read_cons, ih ht]
      simp [h9]

/-- A write leaves every other address alone, in any memory. -/
theorem Memory.read_write_of_ne (m : Memory) {a a' : Nat} (b : Byte) (h : a' ≠ a) : (m.write a b).read a' = m.read a' := by
  induction m with
  | nil =>
    unfold Memory.write
    split_ifs
    · rfl
    · rw [Memory.read_cons, if_neg (fun e => h e.symm)]
  | cons c m ih =>
    unfold Memory.write
    split_ifs with h1 h2 h3 h4
    · rfl
    · rw [Memory.read_cons, if_neg (fun e => h e.symm)]
    · rw [Memory.read_cons, if_neg (by omega)]
    · rw [Memory.read_cons, Memory.read_cons, if_neg (fun e => h e.symm), if_neg (by omega)]
    · rw [Memory.read_cons, Memory.read_cons, ih]

theorem Memory.mem_clear {m : Memory} {lo n : Nat} {c : Host.Cell} (h : c ∈ m.clear lo n) : c ∈ m :=
  List.mem_of_mem_filter h

theorem Memory.clear_wf {m : Memory} (h : m.wf) (lo n : Nat) : (m.clear lo n).wf :=
  ⟨h.1.sublist List.filter_sublist, fun c hc => h.2 c (Memory.mem_clear hc)⟩

/-- A read after a range was cleared. -/
theorem Memory.read_clear (m : Memory) (lo n a : Nat) :
    (m.clear lo n).read a = if lo ≤ a ∧ a < lo + n then 0 else m.read a := by
  induction m with
  | nil => simp [Memory.clear]
  | cons c m ih =>
    have ih' : Memory.read (List.filter (fun c => decide (c.1 < lo) || decide (lo + n ≤ c.1)) m) a =
        if lo ≤ a ∧ a < lo + n then 0 else Memory.read m a := ih
    unfold Memory.clear
    rw [List.filter_cons]
    by_cases hc : c.1 < lo ∨ lo + n ≤ c.1
    · have hb : (decide (c.1 < lo) || decide (lo + n ≤ c.1)) = true := by simpa using hc
      simp only [hb, if_true, Memory.read_cons, ih']
      by_cases e : c.1 = a
      · rw [if_pos e, if_pos e, if_neg (by omega)]
      · rw [if_neg e, if_neg e]
    · have hb : (decide (c.1 < lo) || decide (lo + n ≤ c.1)) = false := by
        simpa [not_or] using hc
      simp only [hb, Bool.false_eq_true, if_false, Memory.read_cons, ih']
      by_cases e : c.1 = a
      · rw [if_pos (by omega), if_pos (by omega)]
      · rw [if_neg e]

theorem Memory.writeBytes_wf {m : Memory} (h : m.wf) (a : Nat) (bs : List Byte) : (m.writeBytes a bs).wf := by
  induction bs generalizing m a with
  | nil => exact h
  | cons b bs ih => exact ih (Memory.write_wf h a b) (a + 1)

/-- A read after consecutive bytes were written. -/
theorem Memory.read_writeBytes {m : Memory} (h : m.wf) (a : Nat) (bs : List Byte) (a' : Nat) :
    (m.writeBytes a bs).read a' = if a ≤ a' ∧ a' < a + bs.length then bs.getD (a' - a) 0 else m.read a' := by
  induction bs generalizing m a with
  | nil =>
    have : ¬ (a ≤ a' ∧ a' < a + ([] : List Byte).length) := by simp
    rw [if_neg this]; rfl
  | cons b bs ih =>
    rw [Memory.writeBytes, ih (Memory.write_wf h a b), Memory.read_write h]
    by_cases h1 : a' = a
    · subst h1; simp
    · by_cases h2 : a + 1 ≤ a' ∧ a' < a + 1 + bs.length
      · have h3 : a ≤ a' ∧ a' < a + (b :: bs).length := by simp; omega
        rw [if_pos h2, if_pos h3]
        have e : a' - a = (a' - (a + 1)) + 1 := by omega
        rw [e, List.getD_cons_succ]
      · have h3 : ¬ (a ≤ a' ∧ a' < a + (b :: bs).length) := by simp; omega
        rw [if_neg h2, if_neg h3, if_neg h1]

/-- Two memories in canonical form that read the same everywhere are equal. -/
theorem Memory.ext_of_wf {m m' : Memory} (h : m.wf) (h' : m'.wf) (e : ∀ a, m.read a = m'.read a) : m = m' := by
  induction m generalizing m' with
  | nil =>
    cases m' with
    | nil => rfl
    | cons c m' =>
      have := e c.1
      simp only [Memory.read_nil, Memory.read_cons, if_true] at this
      exact absurd this.symm (h'.2 c (by simp))
  | cons c m ih =>
    cases m' with
    | nil =>
      have := e c.1
      simp only [Memory.read_nil, Memory.read_cons, if_true] at this
      exact absurd this (h.2 c (by simp))
    | cons d m' =>
      have hlt := Memory.lt_of_wf_cons h
      have hlt' := Memory.lt_of_wf_cons h'
      have key : c.1 = d.1 := by
        rcases lt_trichotomy c.1 d.1 with hl | he | hg
        · have := e c.1
          rw [Memory.read_of_lt_all (m := d :: m') (fun x hx => by
            rcases List.mem_cons.1 hx with rfl | hx
            · exact hl
            · exact lt_trans hl (hlt' x hx))] at this
          simp only [Memory.read_cons, if_true] at this
          exact absurd this (h.2 c (by simp))
        · exact he
        · have := e d.1
          rw [Memory.read_of_lt_all (m := c :: m) (fun x hx => by
            rcases List.mem_cons.1 hx with rfl | hx
            · exact hg
            · exact lt_trans hg (hlt x hx))] at this
          simp only [Memory.read_cons, if_true] at this
          exact absurd this.symm (h'.2 d (by simp))
      have hv : c.2 = d.2 := by
        have := e c.1
        simpa [key] using this
      have hc : c = d := Prod.ext key hv
      subst hc
      congr 1
      refine ih (Memory.wf_tail h) (Memory.wf_tail h') (fun a => ?_)
      by_cases ha : c.1 = a
      · subst ha
        rw [Memory.read_of_lt_all hlt, Memory.read_of_lt_all hlt']
      · have := e a
        simpa [ha] using this

/-! ## Bits -/

theorem getLsbD_assignBit (x : Byte) (i j : Nat) (b : Bool) (hi : i < 8) :
    (assignBit x i b).getLsbD j = if j = i then b else x.getLsbD j := by
  unfold assignBit
  by_cases hj : j < 8
  · cases b
    · simp only [Bool.false_eq_true, if_false, BitVec.getLsbD_and, BitVec.getLsbD_not, BitVec.getLsbD_twoPow, hj,
        decide_true, Bool.true_and]
      by_cases e : j = i
      · simp [e, hi]
      · simp [e, Ne.symm e, hi]
    · simp only [if_true, BitVec.getLsbD_or, BitVec.getLsbD_twoPow]
      by_cases e : j = i
      · simp [e, hi]
      · simp [e, Ne.symm e]
  · have e : j ≠ i := by omega
    have h1 : (if b then x ||| BitVec.twoPow 8 i else x &&& ~~~BitVec.twoPow 8 i).getLsbD j = false :=
      BitVec.getLsbD_of_ge _ _ (by omega)
    rw [h1, if_neg e, BitVec.getLsbD_of_ge _ _ (by omega)]

theorem Memory.setBit_wf {m : Memory} (h : m.wf) (base q : Nat) (b : Bool) : (m.setBit base q b).wf :=
  Memory.write_wf h _ _

/-- A bit after one bit of the same buffer was assigned. -/
theorem Memory.bit_setBit {m : Memory} (h : m.wf) (base q q' : Nat) (b : Bool) :
    (m.setBit base q b).bit base q' = if q' = q then b else m.bit base q' := by
  unfold Memory.bit Memory.setBit
  rw [Memory.read_write h]
  by_cases hbyte : base + q' / 8 = base + q / 8
  · rw [if_pos hbyte, getLsbD_assignBit _ _ _ _ (Nat.mod_lt _ (by omega))]
    by_cases e : q' = q
    · simp [e]
    · have : q' % 8 ≠ q % 8 := by omega
      rw [if_neg this, if_neg e, hbyte]
  · have : q' ≠ q := by rintro rfl; exact hbyte rfl
    rw [if_neg hbyte, if_neg this]

/-- A byte other than the one that holds the assigned bit is unchanged. -/
theorem Memory.read_setBit_of_ne {m : Memory} (h : m.wf) (base q : Nat) (b : Bool) {a : Nat}
    (ha : a ≠ base + q / 8) : (m.setBit base q b).read a = m.read a := by
  unfold Memory.setBit
  rw [Memory.read_write h, if_neg ha]

theorem Memory.storeBits_wf {m : Memory} (h : m.wf) (base q : Nat) (v : Word) (w : Nat) :
    (m.storeBits base q v w).wf := by
  induction w with
  | zero => exact h
  | succ w ih => exact Memory.setBit_wf ih _ _ _

/-- A bit after a field was stored (40_bitstream.md R150). -/
theorem Memory.bit_storeBits {m : Memory} (h : m.wf) (base q : Nat) (v : Word) (w q' : Nat) :
    (m.storeBits base q v w).bit base q' =
      if q ≤ q' ∧ q' < q + w then v.getLsbD (q' - q) else m.bit base q' := by
  induction w with
  | zero =>
    have : ¬ (q ≤ q' ∧ q' < q + 0) := by omega
    rw [if_neg this]; rfl
  | succ w ih =>
    rw [Memory.storeBits, Memory.bit_setBit (Memory.storeBits_wf h _ _ _ _), ih]
    by_cases e : q' = q + w
    · subst e
      rw [if_pos rfl, if_pos (by omega)]
      congr 1; omega
    · rw [if_neg e]
      by_cases hr : q ≤ q' ∧ q' < q + w
      · rw [if_pos hr, if_pos (by omega)]
      · rw [if_neg hr, if_neg (by omega)]

/-- A byte that holds no bit of the field is unchanged. -/
theorem Memory.read_storeBits_of_outside {m : Memory} (h : m.wf) (base q : Nat) (v : Word) (w : Nat) {a : Nat}
    (ha : a < base + q / 8 ∨ base + (q + w + 7) / 8 ≤ a) : (m.storeBits base q v w).read a = m.read a := by
  induction w with
  | zero => rfl
  | succ w ih =>
    rw [Memory.storeBits, Memory.read_setBit_of_ne (Memory.storeBits_wf h _ _ _ _), ih (by omega)]
    omega

/-- The bits of a loaded field (40_bitstream.md R151). -/
theorem Memory.getLsbD_loadBits (m : Memory) (base q w i : Nat) :
    (m.loadBits base q w).getLsbD i = (decide (i < w) && decide (i < 32) && m.bit base (q + i)) := by
  induction w with
  | zero => simp [Memory.loadBits]
  | succ w ih =>
    rw [Memory.loadBits, BitVec.getLsbD_or, ih]
    by_cases hb : m.bit base (q + w)
    · rw [if_pos hb, BitVec.getLsbD_twoPow]
      by_cases e : w = i
      · subst e; by_cases h32 : w < 32 <;> simp [hb, h32]
      · by_cases h32 : i < 32
        · have : (decide (i < w) : Bool) = decide (i < w + 1) := by
            simp only [decide_eq_decide]; omega
          simp [this, e, h32]
        · simp [h32, e]
    · rw [if_neg hb]
      by_cases e : i = w
      · subst e; simp [hb]
      · have : (decide (i < w) : Bool) = decide (i < w + 1) := by
          simp only [decide_eq_decide]; omega
        simp [this]

/-- A loaded field of at most 32 bits is below 2^w. -/
theorem Memory.loadBits_lt (m : Memory) (base q w : Nat) : (m.loadBits base q w).toNat < 2 ^ w := by
  apply Nat.lt_pow_two_of_testBit
  intro i hi
  have := Memory.getLsbD_loadBits m base q w i
  rw [BitVec.getLsbD] at this
  rw [this]
  simp [show ¬ i < w by omega]

/-- A field just stored reads back (40_bitstream.md R161). -/
theorem Memory.loadBits_storeBits {m : Memory} (h : m.wf) (base q : Nat) (v : Word) (w : Nat)
    (hv : v.toNat < 2 ^ w) : (m.storeBits base q v w).loadBits base q w = v := by
  apply BitVec.eq_of_getLsbD_eq
  intro i hi
  rw [Memory.getLsbD_loadBits, Memory.bit_storeBits h]
  by_cases hiw : i < w
  · have : q + i - q = i := by omega
    simp [hiw, hi, this]
  · have : v.getLsbD i = false := by
      rw [BitVec.getLsbD, Nat.testBit_lt_two_pow (lt_of_lt_of_le hv (Nat.pow_le_pow_right (by omega) (by omega)))]
    simp [hiw, this]

/-- Loading depends on the bits of the field only. -/
theorem Memory.loadBits_congr {m m' : Memory} {base base' q q' w : Nat}
    (h : ∀ i, i < w → m.bit base (q + i) = m'.bit base' (q' + i)) : m.loadBits base q w = m'.loadBits base' q' w := by
  apply BitVec.eq_of_getLsbD_eq
  intro i hi
  rw [Memory.getLsbD_loadBits, Memory.getLsbD_loadBits]
  by_cases hw : i < w
  · rw [h i hw]
  · simp [hw]

/-! ## Where the cells lie -/

/-- Every listed address lies in [lo, hi). -/
def Memory.within (m : Memory) (lo hi : Nat) : Prop := ∀ c ∈ m, lo ≤ c.1 ∧ c.1 < hi

theorem Memory.within_write {m : Memory} {lo hi a : Nat} (h : m.within lo hi) (ha : lo ≤ a) (ha' : a < hi) (b : Byte) :
    (m.write a b).within lo hi := by
  intro c hc
  rcases Memory.mem_write hc with ⟨rfl, _⟩ | hc
  · exact ⟨ha, ha'⟩
  · exact h c hc

theorem Memory.within_clear {m : Memory} {lo hi : Nat} (h : m.within lo hi) (a n : Nat) :
    (m.clear a n).within lo hi := fun c hc => h c (Memory.mem_clear hc)

theorem Memory.within_writeBytes {m : Memory} {lo hi a : Nat} (h : m.within lo hi) (bs : List Byte) (ha : lo ≤ a)
    (ha' : a + bs.length ≤ hi) : (m.writeBytes a bs).within lo hi := by
  induction bs generalizing m a with
  | nil => exact h
  | cons b bs ih =>
    simp only [List.length_cons] at ha'
    exact ih (Memory.within_write h ha (by omega) b) (by omega) (by omega)

theorem Memory.within_storeBits {m : Memory} {lo hi base q : Nat} (h : m.within lo hi) (v : Word) (w : Nat)
    (hlo : lo ≤ base + q / 8) (hhi : base * 8 + q + w ≤ hi * 8) : (m.storeBits base q v w).within lo hi := by
  induction w with
  | zero => exact h
  | succ w ih => exact Memory.within_write (ih (by omega)) (by omega) (by omega) _

/-- A memory reads 0 where it lists nothing. -/
theorem Memory.read_eq_zero_of_within {m : Memory} {lo hi a : Nat} (h : m.within lo hi) (ha : a < lo ∨ hi ≤ a) :
    m.read a = 0 := by
  induction m with
  | nil => rfl
  | cons c m ih =>
    have hc := h c (by simp)
    have : c.1 ≠ a := by omega
    simp [this, ih (fun d hd => h d (by simp [hd]))]

end Sys2Proof.Machine
end

