-- ==== Sys2Proof/Laws/State.lean ====
section
/-! SUPPORT. One lemma per field per update of the state, each true by definition, so that no proof unfolds a
record update. -/

namespace Sys2Proof.Machine

section
variable (s : State)

@[simp] theorem State.setPort_cmd (p : PortIx) (x : Port) : (s.setPort p x).cmd = s.cmd := rfl
@[simp] theorem State.setPort_status (p : PortIx) (x : Port) : (s.setPort p x).status = s.status := rfl
@[simp] theorem State.setPort_arg0 (p : PortIx) (x : Port) : (s.setPort p x).arg0 = s.arg0 := rfl
@[simp] theorem State.setPort_result (p : PortIx) (x : Port) : (s.setPort p x).result = s.result := rfl
@[simp] theorem State.setPort_cursor (p : PortIx) (x : Port) : (s.setPort p x).cursor = s.cursor := rfl
@[simp] theorem State.setPort_ports (p : PortIx) (x : Port) : (s.setPort p x).ports = s.ports.set p.val x := rfl
@[simp] theorem State.setPort_mem (p : PortIx) (x : Port) : (s.setPort p x).mem = s.mem := rfl
@[simp] theorem State.setPort_fsm (p : PortIx) (x : Port) : (s.setPort p x).fsm = s.fsm := rfl
@[simp] theorem State.setPort_seg (p : PortIx) (x : Port) : (s.setPort p x).seg = s.seg := rfl
@[simp] theorem State.setPort_attempt (p : PortIx) (x : Port) : (s.setPort p x).attempt = s.attempt := rfl
@[simp] theorem State.setPort_rxChk (p : PortIx) (x : Port) : (s.setPort p x).rxChk = s.rxChk := rfl
@[simp] theorem State.setPort_rxLen (p : PortIx) (x : Port) : (s.setPort p x).rxLen = s.rxLen := rfl
@[simp] theorem State.setPort_rxIdx (p : PortIx) (x : Port) : (s.setPort p x).rxIdx = s.rxIdx := rfl
@[simp] theorem State.setPort_pt (p : PortIx) (x : Port) : (s.setPort p x).pt = s.pt := rfl
@[simp] theorem State.setPort_xfer (p : PortIx) (x : Port) : (s.setPort p x).xfer = s.xfer := rfl
@[simp] theorem State.setPort_auxErr (p : PortIx) (x : Port) : (s.setPort p x).auxErr = s.auxErr := rfl
@[simp] theorem State.setPort_auxSeg (p : PortIx) (x : Port) : (s.setPort p x).auxSeg = s.auxSeg := rfl
@[simp] theorem State.setPort_env (p : PortIx) (x : Port) : (s.setPort p x).env = s.env := rfl

@[simp] theorem State.setCursor_cmd (c : BitVec 12) : (s.setCursor c).cmd = s.cmd := rfl
@[simp] theorem State.setCursor_status (c : BitVec 12) : (s.setCursor c).status = s.status := rfl
@[simp] theorem State.setCursor_arg0 (c : BitVec 12) : (s.setCursor c).arg0 = s.arg0 := rfl
@[simp] theorem State.setCursor_result (c : BitVec 12) : (s.setCursor c).result = s.result := rfl
@[simp] theorem State.setCursor_cursor (c : BitVec 12) : (s.setCursor c).cursor = c := rfl
@[simp] theorem State.setCursor_ports (c : BitVec 12) : (s.setCursor c).ports = s.ports := rfl
@[simp] theorem State.setCursor_mem (c : BitVec 12) : (s.setCursor c).mem = s.mem := rfl
@[simp] theorem State.setCursor_fsm (c : BitVec 12) : (s.setCursor c).fsm = s.fsm := rfl
@[simp] theorem State.setCursor_seg (c : BitVec 12) : (s.setCursor c).seg = s.seg := rfl
@[simp] theorem State.setCursor_attempt (c : BitVec 12) : (s.setCursor c).attempt = s.attempt := rfl
@[simp] theorem State.setCursor_rxChk (c : BitVec 12) : (s.setCursor c).rxChk = s.rxChk := rfl
@[simp] theorem State.setCursor_rxLen (c : BitVec 12) : (s.setCursor c).rxLen = s.rxLen := rfl
@[simp] theorem State.setCursor_rxIdx (c : BitVec 12) : (s.setCursor c).rxIdx = s.rxIdx := rfl
@[simp] theorem State.setCursor_pt (c : BitVec 12) : (s.setCursor c).pt = s.pt := rfl
@[simp] theorem State.setCursor_xfer (c : BitVec 12) : (s.setCursor c).xfer = s.xfer := rfl
@[simp] theorem State.setCursor_auxErr (c : BitVec 12) : (s.setCursor c).auxErr = s.auxErr := rfl
@[simp] theorem State.setCursor_auxSeg (c : BitVec 12) : (s.setCursor c).auxSeg = s.auxSeg := rfl
@[simp] theorem State.setCursor_env (c : BitVec 12) : (s.setCursor c).env = s.env := rfl

@[simp] theorem State.setResult_cmd (v : Word) : (s.setResult v).cmd = s.cmd := rfl
@[simp] theorem State.setResult_status (v : Word) : (s.setResult v).status = s.status := rfl
@[simp] theorem State.setResult_arg0 (v : Word) : (s.setResult v).arg0 = s.arg0 := rfl
@[simp] theorem State.setResult_result (v : Word) : (s.setResult v).result = v := rfl
@[simp] theorem State.setResult_cursor (v : Word) : (s.setResult v).cursor = s.cursor := rfl
@[simp] theorem State.setResult_ports (v : Word) : (s.setResult v).ports = s.ports := rfl
@[simp] theorem State.setResult_mem (v : Word) : (s.setResult v).mem = s.mem := rfl
@[simp] theorem State.setResult_fsm (v : Word) : (s.setResult v).fsm = s.fsm := rfl
@[simp] theorem State.setResult_seg (v : Word) : (s.setResult v).seg = s.seg := rfl
@[simp] theorem State.setResult_attempt (v : Word) : (s.setResult v).attempt = s.attempt := rfl
@[simp] theorem State.setResult_rxChk (v : Word) : (s.setResult v).rxChk = s.rxChk := rfl
@[simp] theorem State.setResult_rxLen (v : Word) : (s.setResult v).rxLen = s.rxLen := rfl
@[simp] theorem State.setResult_rxIdx (v : Word) : (s.setResult v).rxIdx = s.rxIdx := rfl
@[simp] theorem State.setResult_pt (v : Word) : (s.setResult v).pt = s.pt := rfl
@[simp] theorem State.setResult_xfer (v : Word) : (s.setResult v).xfer = s.xfer := rfl
@[simp] theorem State.setResult_auxErr (v : Word) : (s.setResult v).auxErr = s.auxErr := rfl
@[simp] theorem State.setResult_auxSeg (v : Word) : (s.setResult v).auxSeg = s.auxSeg := rfl
@[simp] theorem State.setResult_env (v : Word) : (s.setResult v).env = s.env := rfl

@[simp] theorem State.setMem_cmd (m : Memory) : (s.setMem m).cmd = s.cmd := rfl
@[simp] theorem State.setMem_status (m : Memory) : (s.setMem m).status = s.status := rfl
@[simp] theorem State.setMem_arg0 (m : Memory) : (s.setMem m).arg0 = s.arg0 := rfl
@[simp] theorem State.setMem_result (m : Memory) : (s.setMem m).result = s.result := rfl
@[simp] theorem State.setMem_cursor (m : Memory) : (s.setMem m).cursor = s.cursor := rfl
@[simp] theorem State.setMem_ports (m : Memory) : (s.setMem m).ports = s.ports := rfl
@[simp] theorem State.setMem_mem (m : Memory) : (s.setMem m).mem = m := rfl
@[simp] theorem State.setMem_fsm (m : Memory) : (s.setMem m).fsm = s.fsm := rfl
@[simp] theorem State.setMem_seg (m : Memory) : (s.setMem m).seg = s.seg := rfl
@[simp] theorem State.setMem_attempt (m : Memory) : (s.setMem m).attempt = s.attempt := rfl
@[simp] theorem State.setMem_rxChk (m : Memory) : (s.setMem m).rxChk = s.rxChk := rfl
@[simp] theorem State.setMem_rxLen (m : Memory) : (s.setMem m).rxLen = s.rxLen := rfl
@[simp] theorem State.setMem_rxIdx (m : Memory) : (s.setMem m).rxIdx = s.rxIdx := rfl
@[simp] theorem State.setMem_pt (m : Memory) : (s.setMem m).pt = s.pt := rfl
@[simp] theorem State.setMem_xfer (m : Memory) : (s.setMem m).xfer = s.xfer := rfl
@[simp] theorem State.setMem_auxErr (m : Memory) : (s.setMem m).auxErr = s.auxErr := rfl
@[simp] theorem State.setMem_auxSeg (m : Memory) : (s.setMem m).auxSeg = s.auxSeg := rfl
@[simp] theorem State.setMem_env (m : Memory) : (s.setMem m).env = s.env := rfl

@[simp] theorem State.setStatus_cmd (st : Status) : (s.setStatus st).cmd = s.cmd := rfl
@[simp] theorem State.setStatus_status (st : Status) : (s.setStatus st).status = st := rfl
@[simp] theorem State.setStatus_arg0 (st : Status) : (s.setStatus st).arg0 = s.arg0 := rfl
@[simp] theorem State.setStatus_result (st : Status) : (s.setStatus st).result = s.result := rfl
@[simp] theorem State.setStatus_cursor (st : Status) : (s.setStatus st).cursor = s.cursor := rfl
@[simp] theorem State.setStatus_ports (st : Status) : (s.setStatus st).ports = s.ports := rfl
@[simp] theorem State.setStatus_mem (st : Status) : (s.setStatus st).mem = s.mem := rfl
@[simp] theorem State.setStatus_fsm (st : Status) : (s.setStatus st).fsm = s.fsm := rfl
@[simp] theorem State.setStatus_seg (st : Status) : (s.setStatus st).seg = s.seg := rfl
@[simp] theorem State.setStatus_attempt (st : Status) : (s.setStatus st).attempt = s.attempt := rfl
@[simp] theorem State.setStatus_rxChk (st : Status) : (s.setStatus st).rxChk = s.rxChk := rfl
@[simp] theorem State.setStatus_rxLen (st : Status) : (s.setStatus st).rxLen = s.rxLen := rfl
@[simp] theorem State.setStatus_rxIdx (st : Status) : (s.setStatus st).rxIdx = s.rxIdx := rfl
@[simp] theorem State.setStatus_pt (st : Status) : (s.setStatus st).pt = s.pt := rfl
@[simp] theorem State.setStatus_xfer (st : Status) : (s.setStatus st).xfer = s.xfer := rfl
@[simp] theorem State.setStatus_auxErr (st : Status) : (s.setStatus st).auxErr = s.auxErr := rfl
@[simp] theorem State.setStatus_auxSeg (st : Status) : (s.setStatus st).auxSeg = s.auxSeg := rfl
@[simp] theorem State.setStatus_env (st : Status) : (s.setStatus st).env = s.env := rfl

@[simp] theorem State.setEnv_cmd (e : Env) : (s.setEnv e).cmd = s.cmd := rfl
@[simp] theorem State.setEnv_status (e : Env) : (s.setEnv e).status = s.status := rfl
@[simp] theorem State.setEnv_arg0 (e : Env) : (s.setEnv e).arg0 = s.arg0 := rfl
@[simp] theorem State.setEnv_result (e : Env) : (s.setEnv e).result = s.result := rfl
@[simp] theorem State.setEnv_cursor (e : Env) : (s.setEnv e).cursor = s.cursor := rfl
@[simp] theorem State.setEnv_ports (e : Env) : (s.setEnv e).ports = s.ports := rfl
@[simp] theorem State.setEnv_mem (e : Env) : (s.setEnv e).mem = s.mem := rfl
@[simp] theorem State.setEnv_fsm (e : Env) : (s.setEnv e).fsm = s.fsm := rfl
@[simp] theorem State.setEnv_seg (e : Env) : (s.setEnv e).seg = s.seg := rfl
@[simp] theorem State.setEnv_attempt (e : Env) : (s.setEnv e).attempt = s.attempt := rfl
@[simp] theorem State.setEnv_rxChk (e : Env) : (s.setEnv e).rxChk = s.rxChk := rfl
@[simp] theorem State.setEnv_rxLen (e : Env) : (s.setEnv e).rxLen = s.rxLen := rfl
@[simp] theorem State.setEnv_rxIdx (e : Env) : (s.setEnv e).rxIdx = s.rxIdx := rfl
@[simp] theorem State.setEnv_pt (e : Env) : (s.setEnv e).pt = s.pt := rfl
@[simp] theorem State.setEnv_xfer (e : Env) : (s.setEnv e).xfer = s.xfer := rfl
@[simp] theorem State.setEnv_auxErr (e : Env) : (s.setEnv e).auxErr = s.auxErr := rfl
@[simp] theorem State.setEnv_auxSeg (e : Env) : (s.setEnv e).auxSeg = s.auxSeg := rfl
@[simp] theorem State.setEnv_env (e : Env) : (s.setEnv e).env = e := rfl

@[simp] theorem State.goto_cmd (f : Fsm) (p : Point) : (s.goto f p).cmd = s.cmd := rfl
@[simp] theorem State.goto_status (f : Fsm) (p : Point) : (s.goto f p).status = s.status := rfl
@[simp] theorem State.goto_arg0 (f : Fsm) (p : Point) : (s.goto f p).arg0 = s.arg0 := rfl
@[simp] theorem State.goto_result (f : Fsm) (p : Point) : (s.goto f p).result = s.result := rfl
@[simp] theorem State.goto_cursor (f : Fsm) (p : Point) : (s.goto f p).cursor = s.cursor := rfl
@[simp] theorem State.goto_ports (f : Fsm) (p : Point) : (s.goto f p).ports = s.ports := rfl
@[simp] theorem State.goto_mem (f : Fsm) (p : Point) : (s.goto f p).mem = s.mem := rfl
@[simp] theorem State.goto_fsm (f : Fsm) (p : Point) : (s.goto f p).fsm = f := rfl
@[simp] theorem State.goto_seg (f : Fsm) (p : Point) : (s.goto f p).seg = s.seg := rfl
@[simp] theorem State.goto_attempt (f : Fsm) (p : Point) : (s.goto f p).attempt = s.attempt := rfl
@[simp] theorem State.goto_rxChk (f : Fsm) (p : Point) : (s.goto f p).rxChk = s.rxChk := rfl
@[simp] theorem State.goto_rxLen (f : Fsm) (p : Point) : (s.goto f p).rxLen = s.rxLen := rfl
@[simp] theorem State.goto_rxIdx (f : Fsm) (p : Point) : (s.goto f p).rxIdx = s.rxIdx := rfl
@[simp] theorem State.goto_pt (f : Fsm) (p : Point) : (s.goto f p).pt = p := rfl
@[simp] theorem State.goto_xfer (f : Fsm) (p : Point) : (s.goto f p).xfer = s.xfer := rfl
@[simp] theorem State.goto_auxErr (f : Fsm) (p : Point) : (s.goto f p).auxErr = s.auxErr := rfl
@[simp] theorem State.goto_auxSeg (f : Fsm) (p : Point) : (s.goto f p).auxSeg = s.auxSeg := rfl
@[simp] theorem State.goto_env (f : Fsm) (p : Point) : (s.goto f p).env = s.env := rfl

@[simp] theorem State.setSeg_cmd (g : SegIx) : (s.setSeg g).cmd = s.cmd := rfl
@[simp] theorem State.setSeg_status (g : SegIx) : (s.setSeg g).status = s.status := rfl
@[simp] theorem State.setSeg_arg0 (g : SegIx) : (s.setSeg g).arg0 = s.arg0 := rfl
@[simp] theorem State.setSeg_result (g : SegIx) : (s.setSeg g).result = s.result := rfl
@[simp] theorem State.setSeg_cursor (g : SegIx) : (s.setSeg g).cursor = s.cursor := rfl
@[simp] theorem State.setSeg_ports (g : SegIx) : (s.setSeg g).ports = s.ports := rfl
@[simp] theorem State.setSeg_mem (g : SegIx) : (s.setSeg g).mem = s.mem := rfl
@[simp] theorem State.setSeg_fsm (g : SegIx) : (s.setSeg g).fsm = s.fsm := rfl
@[simp] theorem State.setSeg_seg (g : SegIx) : (s.setSeg g).seg = g := rfl
@[simp] theorem State.setSeg_attempt (g : SegIx) : (s.setSeg g).attempt = s.attempt := rfl
@[simp] theorem State.setSeg_rxChk (g : SegIx) : (s.setSeg g).rxChk = s.rxChk := rfl
@[simp] theorem State.setSeg_rxLen (g : SegIx) : (s.setSeg g).rxLen = s.rxLen := rfl
@[simp] theorem State.setSeg_rxIdx (g : SegIx) : (s.setSeg g).rxIdx = s.rxIdx := rfl
@[simp] theorem State.setSeg_pt (g : SegIx) : (s.setSeg g).pt = s.pt := rfl
@[simp] theorem State.setSeg_xfer (g : SegIx) : (s.setSeg g).xfer = s.xfer := rfl
@[simp] theorem State.setSeg_auxErr (g : SegIx) : (s.setSeg g).auxErr = s.auxErr := rfl
@[simp] theorem State.setSeg_auxSeg (g : SegIx) : (s.setSeg g).auxSeg = s.auxSeg := rfl
@[simp] theorem State.setSeg_env (g : SegIx) : (s.setSeg g).env = s.env := rfl

@[simp] theorem State.setAttempts_cmd (n : BitVec 2) : (s.setAttempts n).cmd = s.cmd := rfl
@[simp] theorem State.setAttempts_status (n : BitVec 2) : (s.setAttempts n).status = { s.status with attempts := n } := rfl
@[simp] theorem State.setAttempts_arg0 (n : BitVec 2) : (s.setAttempts n).arg0 = s.arg0 := rfl
@[simp] theorem State.setAttempts_result (n : BitVec 2) : (s.setAttempts n).result = s.result := rfl
@[simp] theorem State.setAttempts_cursor (n : BitVec 2) : (s.setAttempts n).cursor = s.cursor := rfl
@[simp] theorem State.setAttempts_ports (n : BitVec 2) : (s.setAttempts n).ports = s.ports := rfl
@[simp] theorem State.setAttempts_mem (n : BitVec 2) : (s.setAttempts n).mem = s.mem := rfl
@[simp] theorem State.setAttempts_fsm (n : BitVec 2) : (s.setAttempts n).fsm = s.fsm := rfl
@[simp] theorem State.setAttempts_seg (n : BitVec 2) : (s.setAttempts n).seg = s.seg := rfl
@[simp] theorem State.setAttempts_attempt (n : BitVec 2) : (s.setAttempts n).attempt = n := rfl
@[simp] theorem State.setAttempts_rxChk (n : BitVec 2) : (s.setAttempts n).rxChk = s.rxChk := rfl
@[simp] theorem State.setAttempts_rxLen (n : BitVec 2) : (s.setAttempts n).rxLen = s.rxLen := rfl
@[simp] theorem State.setAttempts_rxIdx (n : BitVec 2) : (s.setAttempts n).rxIdx = s.rxIdx := rfl
@[simp] theorem State.setAttempts_pt (n : BitVec 2) : (s.setAttempts n).pt = s.pt := rfl
@[simp] theorem State.setAttempts_xfer (n : BitVec 2) : (s.setAttempts n).xfer = s.xfer := rfl
@[simp] theorem State.setAttempts_auxErr (n : BitVec 2) : (s.setAttempts n).auxErr = s.auxErr := rfl
@[simp] theorem State.setAttempts_auxSeg (n : BitVec 2) : (s.setAttempts n).auxSeg = s.auxSeg := rfl
@[simp] theorem State.setAttempts_env (n : BitVec 2) : (s.setAttempts n).env = s.env := rfl

@[simp] theorem State.setStatusSeg_cmd (g : SegIx) : (s.setStatusSeg g).cmd = s.cmd := rfl
@[simp] theorem State.setStatusSeg_status (g : SegIx) : (s.setStatusSeg g).status = { s.status with seg := g } := rfl
@[simp] theorem State.setStatusSeg_arg0 (g : SegIx) : (s.setStatusSeg g).arg0 = s.arg0 := rfl
@[simp] theorem State.setStatusSeg_result (g : SegIx) : (s.setStatusSeg g).result = s.result := rfl
@[simp] theorem State.setStatusSeg_cursor (g : SegIx) : (s.setStatusSeg g).cursor = s.cursor := rfl
@[simp] theorem State.setStatusSeg_ports (g : SegIx) : (s.setStatusSeg g).ports = s.ports := rfl
@[simp] theorem State.setStatusSeg_mem (g : SegIx) : (s.setStatusSeg g).mem = s.mem := rfl
@[simp] theorem State.setStatusSeg_fsm (g : SegIx) : (s.setStatusSeg g).fsm = s.fsm := rfl
@[simp] theorem State.setStatusSeg_seg (g : SegIx) : (s.setStatusSeg g).seg = s.seg := rfl
@[simp] theorem State.setStatusSeg_attempt (g : SegIx) : (s.setStatusSeg g).attempt = s.attempt := rfl
@[simp] theorem State.setStatusSeg_rxChk (g : SegIx) : (s.setStatusSeg g).rxChk = s.rxChk := rfl
@[simp] theorem State.setStatusSeg_rxLen (g : SegIx) : (s.setStatusSeg g).rxLen = s.rxLen := rfl
@[simp] theorem State.setStatusSeg_rxIdx (g : SegIx) : (s.setStatusSeg g).rxIdx = s.rxIdx := rfl
@[simp] theorem State.setStatusSeg_pt (g : SegIx) : (s.setStatusSeg g).pt = s.pt := rfl
@[simp] theorem State.setStatusSeg_xfer (g : SegIx) : (s.setStatusSeg g).xfer = s.xfer := rfl
@[simp] theorem State.setStatusSeg_auxErr (g : SegIx) : (s.setStatusSeg g).auxErr = s.auxErr := rfl
@[simp] theorem State.setStatusSeg_auxSeg (g : SegIx) : (s.setStatusSeg g).auxSeg = s.auxSeg := rfl
@[simp] theorem State.setStatusSeg_env (g : SegIx) : (s.setStatusSeg g).env = s.env := rfl

@[simp] theorem startCommand_cmd (v : Word) : (startCommand v s).cmd = v := rfl
@[simp] theorem startCommand_status (v : Word) : (startCommand v s).status = s.status.started := rfl
@[simp] theorem startCommand_arg0 (v : Word) : (startCommand v s).arg0 = s.arg0 := rfl
@[simp] theorem startCommand_result (v : Word) : (startCommand v s).result = s.result := rfl
@[simp] theorem startCommand_cursor (v : Word) : (startCommand v s).cursor = s.cursor := rfl
@[simp] theorem startCommand_ports (v : Word) : (startCommand v s).ports = s.ports := rfl
@[simp] theorem startCommand_mem (v : Word) : (startCommand v s).mem = s.mem := rfl
@[simp] theorem startCommand_fsm (v : Word) : (startCommand v s).fsm = .run := rfl
@[simp] theorem startCommand_seg (v : Word) : (startCommand v s).seg = s.seg := rfl
@[simp] theorem startCommand_attempt (v : Word) : (startCommand v s).attempt = s.attempt := rfl
@[simp] theorem startCommand_rxChk (v : Word) : (startCommand v s).rxChk = s.rxChk := rfl
@[simp] theorem startCommand_rxLen (v : Word) : (startCommand v s).rxLen = s.rxLen := rfl
@[simp] theorem startCommand_rxIdx (v : Word) : (startCommand v s).rxIdx = s.rxIdx := rfl
@[simp] theorem startCommand_pt (v : Word) : (startCommand v s).pt = .start := rfl
@[simp] theorem startCommand_xfer (v : Word) : (startCommand v s).xfer = s.xfer := rfl
@[simp] theorem startCommand_auxErr (v : Word) : (startCommand v s).auxErr = s.auxErr := rfl
@[simp] theorem startCommand_auxSeg (v : Word) : (startCommand v s).auxSeg = s.auxSeg := rfl
@[simp] theorem startCommand_env (v : Word) : (startCommand v s).env = { s.env with unpolled := true } := rfl

@[simp] theorem complete_cmd (k : ErrKind) : (complete k s).cmd = s.cmd := rfl
@[simp] theorem complete_status (k : ErrKind) : (complete k s).status = s.status.completed k := rfl
@[simp] theorem complete_arg0 (k : ErrKind) : (complete k s).arg0 = s.arg0 := rfl
@[simp] theorem complete_result (k : ErrKind) : (complete k s).result = s.result := rfl
@[simp] theorem complete_cursor (k : ErrKind) : (complete k s).cursor = s.cursor := rfl
@[simp] theorem complete_ports (k : ErrKind) : (complete k s).ports = s.ports := rfl
@[simp] theorem complete_mem (k : ErrKind) : (complete k s).mem = s.mem := rfl
@[simp] theorem complete_fsm (k : ErrKind) : (complete k s).fsm = .idle := rfl
@[simp] theorem complete_seg (k : ErrKind) : (complete k s).seg = s.seg := rfl
@[simp] theorem complete_attempt (k : ErrKind) : (complete k s).attempt = s.attempt := rfl
@[simp] theorem complete_rxChk (k : ErrKind) : (complete k s).rxChk = s.rxChk := rfl
@[simp] theorem complete_rxLen (k : ErrKind) : (complete k s).rxLen = s.rxLen := rfl
@[simp] theorem complete_rxIdx (k : ErrKind) : (complete k s).rxIdx = s.rxIdx := rfl
@[simp] theorem complete_pt (k : ErrKind) : (complete k s).pt = .start := rfl
@[simp] theorem complete_xfer (k : ErrKind) : (complete k s).xfer = s.xfer := rfl
@[simp] theorem complete_auxErr (k : ErrKind) : (complete k s).auxErr = s.auxErr := rfl
@[simp] theorem complete_auxSeg (k : ErrKind) : (complete k s).auxSeg = s.auxSeg := rfl
@[simp] theorem complete_env (k : ErrKind) : (complete k s).env = s.env := rfl

@[simp] theorem callTransport_cmd (x : Xfer) : (callTransport x s).cmd = s.cmd := rfl
@[simp] theorem callTransport_status (x : Xfer) : (callTransport x s).status = s.status := rfl
@[simp] theorem callTransport_arg0 (x : Xfer) : (callTransport x s).arg0 = s.arg0 := rfl
@[simp] theorem callTransport_result (x : Xfer) : (callTransport x s).result = s.result := rfl
@[simp] theorem callTransport_cursor (x : Xfer) : (callTransport x s).cursor = s.cursor := rfl
@[simp] theorem callTransport_ports (x : Xfer) : (callTransport x s).ports = s.ports := rfl
@[simp] theorem callTransport_mem (x : Xfer) : (callTransport x s).mem = s.mem := rfl
@[simp] theorem callTransport_fsm (x : Xfer) : (callTransport x s).fsm = .run := rfl
@[simp] theorem callTransport_seg (x : Xfer) : (callTransport x s).seg = s.seg := rfl
@[simp] theorem callTransport_attempt (x : Xfer) : (callTransport x s).attempt = s.attempt := rfl
@[simp] theorem callTransport_rxChk (x : Xfer) : (callTransport x s).rxChk = s.rxChk := rfl
@[simp] theorem callTransport_rxLen (x : Xfer) : (callTransport x s).rxLen = s.rxLen := rfl
@[simp] theorem callTransport_rxIdx (x : Xfer) : (callTransport x s).rxIdx = s.rxIdx := rfl
@[simp] theorem callTransport_pt (x : Xfer) : (callTransport x s).pt = .isOpen := rfl
@[simp] theorem callTransport_xfer (x : Xfer) : (callTransport x s).xfer = x := rfl
@[simp] theorem callTransport_auxErr (x : Xfer) : (callTransport x s).auxErr = s.auxErr := rfl
@[simp] theorem callTransport_auxSeg (x : Xfer) : (callTransport x s).auxSeg = s.auxSeg := rfl
@[simp] theorem callTransport_env (x : Xfer) : (callTransport x s).env = s.env := rfl

@[simp] theorem returnReply_cmd (r : Reply) : (returnReply r s).cmd = s.cmd := rfl
@[simp] theorem returnReply_status (r : Reply) : (returnReply r s).status = s.status := rfl
@[simp] theorem returnReply_arg0 (r : Reply) : (returnReply r s).arg0 = s.arg0 := rfl
@[simp] theorem returnReply_result (r : Reply) : (returnReply r s).result = s.result := rfl
@[simp] theorem returnReply_cursor (r : Reply) : (returnReply r s).cursor = s.cursor := rfl
@[simp] theorem returnReply_ports (r : Reply) : (returnReply r s).ports = s.ports := rfl
@[simp] theorem returnReply_mem (r : Reply) : (returnReply r s).mem = s.mem := rfl
@[simp] theorem returnReply_fsm (r : Reply) : (returnReply r s).fsm = .run := rfl
@[simp] theorem returnReply_seg (r : Reply) : (returnReply r s).seg = s.seg := rfl
@[simp] theorem returnReply_attempt (r : Reply) : (returnReply r s).attempt = s.attempt := rfl
@[simp] theorem returnReply_rxChk (r : Reply) : (returnReply r s).rxChk = s.rxChk := rfl
@[simp] theorem returnReply_rxLen (r : Reply) : (returnReply r s).rxLen = s.rxLen := rfl
@[simp] theorem returnReply_rxIdx (r : Reply) : (returnReply r s).rxIdx = s.rxIdx := rfl
@[simp] theorem returnReply_pt (r : Reply) : (returnReply r s).pt = .ret r := rfl
@[simp] theorem returnReply_xfer (r : Reply) : (returnReply r s).xfer = s.xfer := rfl
@[simp] theorem returnReply_auxErr (r : Reply) : (returnReply r s).auxErr = s.auxErr := rfl
@[simp] theorem returnReply_auxSeg (r : Reply) : (returnReply r s).auxSeg = s.auxSeg := rfl
@[simp] theorem returnReply_env (r : Reply) : (returnReply r s).env = s.env := rfl

@[simp] theorem beginReceive_cmd : (beginReceive s).cmd = s.cmd := rfl
@[simp] theorem beginReceive_status : (beginReceive s).status = s.status := rfl
@[simp] theorem beginReceive_arg0 : (beginReceive s).arg0 = s.arg0 := rfl
@[simp] theorem beginReceive_result : (beginReceive s).result = s.result := rfl
@[simp] theorem beginReceive_cursor : (beginReceive s).cursor = s.cursor := rfl
@[simp] theorem beginReceive_ports : (beginReceive s).ports = s.ports := rfl
@[simp] theorem beginReceive_mem : (beginReceive s).mem = s.mem.clear rxBase 256 := rfl
@[simp] theorem beginReceive_fsm : (beginReceive s).fsm = .rxChk := rfl
@[simp] theorem beginReceive_seg : (beginReceive s).seg = s.seg := rfl
@[simp] theorem beginReceive_attempt : (beginReceive s).attempt = s.attempt := rfl
@[simp] theorem beginReceive_rxChk : (beginReceive s).rxChk = s.rxChk := rfl
@[simp] theorem beginReceive_rxLen : (beginReceive s).rxLen = s.rxLen := rfl
@[simp] theorem beginReceive_rxIdx : (beginReceive s).rxIdx = 0 := rfl
@[simp] theorem beginReceive_pt : (beginReceive s).pt = .setTimeout := rfl
@[simp] theorem beginReceive_xfer : (beginReceive s).xfer = s.xfer := rfl
@[simp] theorem beginReceive_auxErr : (beginReceive s).auxErr = s.auxErr := rfl
@[simp] theorem beginReceive_auxSeg : (beginReceive s).auxSeg = s.auxSeg := rfl
@[simp] theorem beginReceive_env : (beginReceive s).env = s.env := rfl

@[simp] theorem clearTx_cmd : (clearTx s).cmd = s.cmd := rfl
@[simp] theorem clearTx_status : (clearTx s).status = s.status := rfl
@[simp] theorem clearTx_arg0 : (clearTx s).arg0 = s.arg0 := rfl
@[simp] theorem clearTx_result : (clearTx s).result = s.result := rfl
@[simp] theorem clearTx_cursor : (clearTx s).cursor = 0 := rfl
@[simp] theorem clearTx_ports : (clearTx s).ports = s.ports := rfl
@[simp] theorem clearTx_mem : (clearTx s).mem = s.mem.clear txBase 256 := rfl
@[simp] theorem clearTx_fsm : (clearTx s).fsm = s.fsm := rfl
@[simp] theorem clearTx_seg : (clearTx s).seg = s.seg := rfl
@[simp] theorem clearTx_attempt : (clearTx s).attempt = s.attempt := rfl
@[simp] theorem clearTx_rxChk : (clearTx s).rxChk = s.rxChk := rfl
@[simp] theorem clearTx_rxLen : (clearTx s).rxLen = s.rxLen := rfl
@[simp] theorem clearTx_rxIdx : (clearTx s).rxIdx = s.rxIdx := rfl
@[simp] theorem clearTx_pt : (clearTx s).pt = s.pt := rfl
@[simp] theorem clearTx_xfer : (clearTx s).xfer = s.xfer := rfl
@[simp] theorem clearTx_auxErr : (clearTx s).auxErr = s.auxErr := rfl
@[simp] theorem clearTx_auxSeg : (clearTx s).auxSeg = s.auxSeg := rfl
@[simp] theorem clearTx_env : (clearTx s).env = s.env := rfl

@[simp] theorem setHeader_cmd (bs : List Byte) : (setHeader bs s).cmd = s.cmd := rfl
@[simp] theorem setHeader_status (bs : List Byte) : (setHeader bs s).status = s.status := rfl
@[simp] theorem setHeader_arg0 (bs : List Byte) : (setHeader bs s).arg0 = s.arg0 := rfl
@[simp] theorem setHeader_result (bs : List Byte) : (setHeader bs s).result = s.result := rfl
@[simp] theorem setHeader_cursor (bs : List Byte) : (setHeader bs s).cursor = s.cursor := rfl
@[simp] theorem setHeader_ports (bs : List Byte) : (setHeader bs s).ports = s.ports := rfl
@[simp] theorem setHeader_mem (bs : List Byte) : (setHeader bs s).mem = s.mem.writeBytes txBase bs := rfl
@[simp] theorem setHeader_fsm (bs : List Byte) : (setHeader bs s).fsm = s.fsm := rfl
@[simp] theorem setHeader_seg (bs : List Byte) : (setHeader bs s).seg = s.seg := rfl
@[simp] theorem setHeader_attempt (bs : List Byte) : (setHeader bs s).attempt = s.attempt := rfl
@[simp] theorem setHeader_rxChk (bs : List Byte) : (setHeader bs s).rxChk = s.rxChk := rfl
@[simp] theorem setHeader_rxLen (bs : List Byte) : (setHeader bs s).rxLen = s.rxLen := rfl
@[simp] theorem setHeader_rxIdx (bs : List Byte) : (setHeader bs s).rxIdx = s.rxIdx := rfl
@[simp] theorem setHeader_pt (bs : List Byte) : (setHeader bs s).pt = s.pt := rfl
@[simp] theorem setHeader_xfer (bs : List Byte) : (setHeader bs s).xfer = s.xfer := rfl
@[simp] theorem setHeader_auxErr (bs : List Byte) : (setHeader bs s).auxErr = s.auxErr := rfl
@[simp] theorem setHeader_auxSeg (bs : List Byte) : (setHeader bs s).auxSeg = s.auxSeg := rfl
@[simp] theorem setHeader_env (bs : List Byte) : (setHeader bs s).env = s.env := rfl

/-- A port after a port was replaced. -/
@[simp] theorem State.port_setPort (p q : PortIx) (x : Port) :
    (s.setPort p x).port q = if q = p then x else s.port q := by
  unfold State.port State.setPort
  rw [Vector.getElem_set]
  by_cases h : q = p
  · subst h; simp
  · have : ¬ p.val = q.val := fun e => h (Fin.ext e.symm)
    simp [h, this]

@[simp] theorem State.setCursor_port (c : BitVec 12) (q : PortIx) : (s.setCursor c).port q = s.port q := rfl
@[simp] theorem State.setResult_port (v : Word) (q : PortIx) : (s.setResult v).port q = s.port q := rfl
@[simp] theorem State.setMem_port (m : Memory) (q : PortIx) : (s.setMem m).port q = s.port q := rfl
@[simp] theorem State.setStatus_port (st : Status) (q : PortIx) : (s.setStatus st).port q = s.port q := rfl
@[simp] theorem State.setEnv_port (e : Env) (q : PortIx) : (s.setEnv e).port q = s.port q := rfl
@[simp] theorem State.goto_port (f : Fsm) (p : Point) (q : PortIx) : (s.goto f p).port q = s.port q := rfl
@[simp] theorem State.setSeg_port (g : SegIx) (q : PortIx) : (s.setSeg g).port q = s.port q := rfl
@[simp] theorem State.setAttempts_port (n : BitVec 2) (q : PortIx) : (s.setAttempts n).port q = s.port q := rfl
@[simp] theorem State.setStatusSeg_port (g : SegIx) (q : PortIx) : (s.setStatusSeg g).port q = s.port q := rfl
@[simp] theorem startCommand_port (v : Word) (q : PortIx) : (startCommand v s).port q = s.port q := rfl
@[simp] theorem complete_port (k : ErrKind) (q : PortIx) : (complete k s).port q = s.port q := rfl
@[simp] theorem callTransport_port (x : Xfer) (q : PortIx) : (callTransport x s).port q = s.port q := rfl
@[simp] theorem returnReply_port (r : Reply) (q : PortIx) : (returnReply r s).port q = s.port q := rfl
@[simp] theorem beginReceive_port (q : PortIx) : (beginReceive s).port q = s.port q := rfl
@[simp] theorem clearTx_port (q : PortIx) : (clearTx s).port q = s.port q := rfl
@[simp] theorem setHeader_port (bs : List Byte) (q : PortIx) : (setHeader bs s).port q = s.port q := rfl

@[simp] theorem State.setPort_sensorCode (p : PortIx) (x : Port) : (s.setPort p x).sensorCode = s.sensorCode := rfl
@[simp] theorem State.setCursor_sensorCode (c : BitVec 12) : (s.setCursor c).sensorCode = s.sensorCode := rfl
@[simp] theorem State.setResult_sensorCode (v : Word) : (s.setResult v).sensorCode = s.sensorCode := rfl
@[simp] theorem State.setMem_sensorCode (m : Memory) : (s.setMem m).sensorCode = s.sensorCode := rfl
@[simp] theorem State.setStatus_sensorCode (st : Status) : (s.setStatus st).sensorCode = s.sensorCode := rfl
@[simp] theorem State.goto_sensorCode (f : Fsm) (p : Point) : (s.goto f p).sensorCode = s.sensorCode := rfl
@[simp] theorem State.setSeg_sensorCode (g : SegIx) : (s.setSeg g).sensorCode = s.sensorCode := rfl
@[simp] theorem State.setAttempts_sensorCode (n : BitVec 2) : (s.setAttempts n).sensorCode = s.sensorCode := rfl
@[simp] theorem State.setStatusSeg_sensorCode (g : SegIx) : (s.setStatusSeg g).sensorCode = s.sensorCode := rfl
@[simp] theorem startCommand_sensorCode (v : Word) : (startCommand v s).sensorCode = s.sensorCode := rfl
@[simp] theorem complete_sensorCode (k : ErrKind) : (complete k s).sensorCode = s.sensorCode := rfl
@[simp] theorem callTransport_sensorCode (x : Xfer) : (callTransport x s).sensorCode = s.sensorCode := rfl
@[simp] theorem returnReply_sensorCode (r : Reply) : (returnReply r s).sensorCode = s.sensorCode := rfl
@[simp] theorem beginReceive_sensorCode : (beginReceive s).sensorCode = s.sensorCode := rfl
@[simp] theorem clearTx_sensorCode : (clearTx s).sensorCode = s.sensorCode := rfl
@[simp] theorem setHeader_sensorCode (bs : List Byte) : (setHeader bs s).sensorCode = s.sensorCode := rfl

/-- The class of a port depends on its type code and the table only. -/
theorem State.portClass_congr {s t : State} {p : PortIx} (hc : (t.port p).code = (s.port p).code)
    (ht : t.sensorCode = s.sensorCode) : t.portClass p = s.portClass p := by
  unfold State.portClass Port.sensorClass
  rw [hc, ht]

/-- Every port of a state with all ports replaced by themselves. -/
theorem State.ports_ext {s t : State} (h : ∀ p, t.port p = s.port p) : t.ports = s.ports := by
  apply Vector.ext
  intro i hi
  exact h ⟨i, hi⟩

end

/-! ## STATUS -/

section
variable (st : Status)

@[simp] theorem Status.started_busy : (st.started).busy = true := rfl
@[simp] theorem Status.started_done : (st.started).done = false := rfl
@[simp] theorem Status.started_verr : (st.started).verr = st.verr := rfl
@[simp] theorem Status.started_underrun : (st.started).underrun = false := rfl
@[simp] theorem Status.started_err : (st.started).err = .ok := rfl
@[simp] theorem Status.started_seg : (st.started).seg = st.seg := rfl
@[simp] theorem Status.started_attempts : (st.started).attempts = st.attempts := rfl
@[simp] theorem Status.started_rxlen : (st.started).rxlen = st.rxlen := rfl

@[simp] theorem Status.completed_busy (k : ErrKind) : (st.completed k).busy = false := rfl
@[simp] theorem Status.completed_done (k : ErrKind) : (st.completed k).done = true := rfl
@[simp] theorem Status.completed_verr (k : ErrKind) : (st.completed k).verr = st.verr := rfl
@[simp] theorem Status.completed_underrun (k : ErrKind) : (st.completed k).underrun = st.underrun := rfl
@[simp] theorem Status.completed_err (k : ErrKind) : (st.completed k).err = k := rfl
@[simp] theorem Status.completed_seg (k : ErrKind) : (st.completed k).seg = st.seg := rfl
@[simp] theorem Status.completed_attempts (k : ErrKind) : (st.completed k).attempts = st.attempts := rfl
@[simp] theorem Status.completed_rxlen (k : ErrKind) : (st.completed k).rxlen = st.rxlen := rfl

@[simp] theorem Status.rejected_busy : (st.rejected).busy = st.busy := rfl
@[simp] theorem Status.rejected_done : (st.rejected).done = st.done := rfl
@[simp] theorem Status.rejected_verr : (st.rejected).verr = true := rfl
@[simp] theorem Status.rejected_underrun : (st.rejected).underrun = st.underrun := rfl
@[simp] theorem Status.rejected_err : (st.rejected).err = st.err := rfl
@[simp] theorem Status.rejected_seg : (st.rejected).seg = st.seg := rfl
@[simp] theorem Status.rejected_attempts : (st.rejected).attempts = st.attempts := rfl
@[simp] theorem Status.rejected_rxlen : (st.rejected).rxlen = st.rxlen := rfl

@[simp] theorem Status.hostWrite_busy (v : Word) : (st.hostWrite v).busy = st.busy := rfl
@[simp] theorem Status.hostWrite_done (v : Word) : (st.hostWrite v).done = st.done := rfl
@[simp] theorem Status.hostWrite_verr (v : Word) : (st.hostWrite v).verr = (st.verr && !v.getLsbD 2) := rfl
@[simp] theorem Status.hostWrite_underrun (v : Word) : (st.hostWrite v).underrun = st.underrun := rfl
@[simp] theorem Status.hostWrite_err (v : Word) : (st.hostWrite v).err = st.err := rfl
@[simp] theorem Status.hostWrite_seg (v : Word) : (st.hostWrite v).seg = st.seg := rfl
@[simp] theorem Status.hostWrite_attempts (v : Word) : (st.hostWrite v).attempts = st.attempts := rfl
@[simp] theorem Status.hostWrite_rxlen (v : Word) : (st.hostWrite v).rxlen = st.rxlen := rfl

end

end Sys2Proof.Machine
end

