-- ==== Sys2Proof/Laws/Build.lean ====
section
/-! SUPPORT. What the bitstream primitives and the request builds do (40_bitstream.md R150 to R152, 42_negotiation.md
R193, R195, 43_update.md R218, R226), said once: which bits of TX_BUF they assign, what they leave unchanged, and
when a build fails. -/

namespace Sys2Proof.Machine

/-! ## The cursor -/

theorem toNat_advance {c : BitVec 12} {w : Nat} (h : c.toNat + w < 4096) : (advance c w).toNat = c.toNat + w := by
  unfold advance
  rw [BitVec.toNat_add, BitVec.toNat_ofNat]
  have : w % 2 ^ 12 = w := Nat.mod_eq_of_lt (by omega)
  rw [this]
  exact Nat.mod_eq_of_lt (by omega)

/-! ## WriteBits and ReadBits -/

theorem writeBits_ok {buf : BufSel} {a : Byte} {b : BitVec 3} {w : Nat} {v : Word} {s : State}
    (h : startBit a b s.cursor + w ≤ 2048) :
    writeBits buf a b w v s = some
      { s with mem := s.mem.storeBits (bufBase buf) (startBit a b s.cursor) v w, cursor := advance s.cursor w } := by
  have h' : inRange (startBit a b s.cursor) w = true := by
    unfold inRange Config.bufBits; exact decide_eq_true h
  unfold writeBits
  rw [h', if_pos rfl]; rfl

theorem writeBits_bounds {buf : BufSel} {a : Byte} {b : BitVec 3} {w : Nat} {v : Word} {s : State}
    (h : 2048 < startBit a b s.cursor + w) : writeBits buf a b w v s = none := by
  have h' : inRange (startBit a b s.cursor) w = false := by
    unfold inRange Config.bufBits; exact decide_eq_false (by omega)
  unfold writeBits
  rw [h', if_neg (by decide)]

theorem readBits_ok {buf : BufSel} {a : Byte} {b : BitVec 3} {w : Nat} {s : State}
    (h : startBit a b s.cursor + w ≤ 2048) :
    readBits buf a b w s = some
      (s.mem.loadBits (bufBase buf) (startBit a b s.cursor) w, { s with cursor := advance s.cursor w }) := by
  have h' : inRange (startBit a b s.cursor) w = true := by
    unfold inRange Config.bufBits; exact decide_eq_true h
  unfold readBits
  rw [h', if_pos rfl]; rfl

theorem readBits_bounds {buf : BufSel} {a : Byte} {b : BitVec 3} {w : Nat} {s : State}
    (h : 2048 < startBit a b s.cursor + w) : readBits buf a b w s = none := by
  have h' : inRange (startBit a b s.cursor) w = false := by
    unfold inRange Config.bufBits; exact decide_eq_false (by omega)
  unfold readBits
  rw [h', if_neg (by decide)]

/-! ## Fields and their bits -/

/-- The bits of a field, the first one on the stream first. -/
def fieldBits (f : Field) : List Bool := (List.range f.1).map (fun i => f.2.getLsbD i)

/-- The bits of fields in stream order. -/
def streamBits (fs : List Field) : List Bool := fs.flatMap fieldBits

@[simp] theorem length_fieldBits (f : Field) : (fieldBits f).length = f.1 := by simp [fieldBits]

@[simp] theorem streamBits_nil : streamBits [] = [] := rfl

@[simp] theorem streamBits_cons (f : Field) (fs : List Field) : streamBits (f :: fs) = fieldBits f ++ streamBits fs := rfl

@[simp] theorem streamBits_append (fs gs : List Field) : streamBits (fs ++ gs) = streamBits fs ++ streamBits gs := by
  simp [streamBits]

theorem streamBits_flatMap {α : Type} (l : List α) (f : α → List Field) :
    streamBits (l.flatMap f) = l.flatMap (fun x => streamBits (f x)) := by
  induction l with
  | nil => rfl
  | cons a l ih => simp [ih]

theorem getD_fieldBits (f : Field) {i : Nat} (h : i < f.1) : (fieldBits f).getD i false = f.2.getLsbD i := by
  unfold fieldBits
  rw [List.getD_eq_getElem _ _ (by simpa using h)]
  simp

/-! ## PutU and PutN -/

/-- `t` differs from `s` in TX_BUF and CURSOR only. -/
structure TxFrame (s t : State) : Prop where
  eq : ∃ (m : Memory) (c : BitVec 12), t = { s with mem := m, cursor := c }
  memWf : s.mem.wf → t.mem.wf
  memOut : s.mem.wf → ∀ a, a < 0x800 ∨ 0x900 ≤ a → t.mem.read a = s.mem.read a
  memIn : s.mem.within arrayBase arrayEnd → t.mem.within arrayBase arrayEnd

theorem TxFrame.refl (s : State) : TxFrame s s := ⟨⟨s.mem, s.cursor, rfl⟩, id, fun _ _ _ => rfl, id⟩

theorem TxFrame.trans {s t u : State} (h : TxFrame s t) (k : TxFrame t u) : TxFrame s u where
  eq := by
    obtain ⟨m, c, hm⟩ := h.eq
    obtain ⟨m', c', hm'⟩ := k.eq
    exact ⟨m', c', by rw [hm', hm]⟩
  memWf w := k.memWf (h.memWf w)
  memOut w a ha := (k.memOut (h.memWf w) a ha).trans (h.memOut w a ha)
  memIn w := k.memIn (h.memIn w)

/-- Storing a field inside TX_BUF. -/
theorem TxFrame.storeBits (s : State) (q w : Nat) (v : Word) (c : BitVec 12) (h : q + w ≤ 2048) :
    TxFrame s { s with mem := s.mem.storeBits txBase q v w, cursor := c } where
  eq := ⟨_, _, rfl⟩
  memWf hw := Memory.storeBits_wf hw _ _ _ _
  memOut hw a ha := by
    show Memory.read (Memory.storeBits _ _ _ _ _) a = _
    unfold txBase
    exact Memory.read_storeBits_of_outside hw _ _ _ _ (by omega)
  memIn hw := Memory.within_storeBits hw _ _ (by unfold arrayBase txBase; omega) (by unfold arrayEnd txBase; omega)

theorem putField_eq_limit {limit : Nat} {off : Byte} {f : Field} {s : State} (h : limit < s.cursor.toNat + f.1) :
    putField limit off f s = (s, .validation) := by
  unfold putField; rw [if_pos h]

theorem putField_eq_ok {limit : Nat} {off : Byte} {f : Field} {s : State} (h : s.cursor.toNat + f.1 ≤ limit)
    (hl : 8 * off.toNat + limit ≤ 2048) :
    putField limit off f s = ({ s with
      mem := s.mem.storeBits txBase (8 * off.toNat + s.cursor.toNat) f.2 f.1, cursor := advance s.cursor f.1 }, .ok) := by
  unfold putField
  rw [if_neg (by omega), writeBits_ok]
  · simp only [startBit, bufBase]; rfl
  · simp only [startBit]
    have : (0 : BitVec 3).toNat = 0 := rfl
    omega

theorem putField_frame (limit : Nat) (off : Byte) (f : Field) (s : State) : TxFrame s (putField limit off f s).1 := by
  unfold putField
  split_ifs with h
  · exact TxFrame.refl s
  · by_cases hr : startBit off 0 s.cursor + f.1 ≤ 2048
    · rw [writeBits_ok hr]; exact TxFrame.storeBits s _ _ _ _ hr
    · rw [writeBits_bounds (by omega)]; exact TxFrame.refl s

theorem putFields_cons_ok {limit : Nat} {off : Byte} {f : Field} {fs : List Field} {s t : State}
    (h : putField limit off f s = (t, .ok)) : putFields limit off (f :: fs) s = putFields limit off fs t := by
  rw [putFields, h]

theorem putFields_cons_stop {limit : Nat} {off : Byte} {f : Field} {fs : List Field} {s t : State} {k : ErrKind}
    (h : putField limit off f s = (t, k)) (hk : k ≠ .ok) : putFields limit off (f :: fs) s = (t, k) := by
  rw [putFields, h]
  cases k <;> first | exact absurd rfl hk | rfl

theorem putFields_frame (limit : Nat) (off : Byte) (fs : List Field) (s : State) :
    TxFrame s (putFields limit off fs s).1 := by
  induction fs generalizing s with
  | nil => exact TxFrame.refl s
  | cons f fs ih =>
    have h := putField_frame limit off f s
    by_cases hk : (putField limit off f s).2 = .ok
    · have e : putField limit off f s = ((putField limit off f s).1, .ok) := by rw [← hk]
      rw [putFields_cons_ok e]
      exact h.trans (ih _)
    · rw [putFields_cons_stop (t := (putField limit off f s).1) (k := (putField limit off f s).2) rfl hk]
      exact h

/-- Fields that fit are written, bit by bit, from the cursor on (42_negotiation.md R193, 43_update.md R218). -/
theorem putFields_ok {limit : Nat} {off : Byte} {fs : List Field} {s : State} (hw : s.mem.wf)
    (h : s.cursor.toNat + (streamBits fs).length ≤ limit) (hl : 8 * off.toNat + limit ≤ 2048) :
    ∃ (m : Memory) (c : BitVec 12), putFields limit off fs s = ({ s with mem := m, cursor := c }, .ok) ∧
      c.toNat = s.cursor.toNat + (streamBits fs).length ∧
      ∀ q, m.bit txBase q =
        if 8 * off.toNat + s.cursor.toNat ≤ q ∧ q < 8 * off.toNat + s.cursor.toNat + (streamBits fs).length then
          (streamBits fs).getD (q - (8 * off.toNat + s.cursor.toNat)) false
        else s.mem.bit txBase q := by
  induction fs generalizing s with
  | nil =>
    refine ⟨s.mem, s.cursor, rfl, by simp, fun q => ?_⟩
    rw [if_neg (by simp)]
  | cons f fs ih =>
    simp only [streamBits_cons, List.length_append, length_fieldBits] at h ⊢
    have e := putField_eq_ok (off := off) (f := f) (s := s) (limit := limit) (by omega) hl
    rw [putFields_cons_ok e]
    have hc : (advance s.cursor f.1).toNat = s.cursor.toNat + f.1 := toNat_advance (by omega)
    obtain ⟨m, c, hm, hcn, hb⟩ := ih
      (s := { s with mem := s.mem.storeBits txBase (8 * off.toNat + s.cursor.toNat) f.2 f.1,
                     cursor := advance s.cursor f.1 })
      (Memory.storeBits_wf hw _ _ _ _) (by show (advance s.cursor f.1).toNat + _ ≤ _; omega)
    refine ⟨m, c, hm, ?_, fun q => ?_⟩
    · rw [hcn]; show (advance s.cursor f.1).toNat + _ = _; omega
    · rw [hb q]
      show (if 8 * off.toNat + (advance s.cursor f.1).toNat ≤ q ∧
          q < 8 * off.toNat + (advance s.cursor f.1).toNat + (streamBits fs).length then
          (streamBits fs).getD (q - (8 * off.toNat + (advance s.cursor f.1).toNat)) false
        else (s.mem.storeBits txBase (8 * off.toNat + s.cursor.toNat) f.2 f.1).bit txBase q) = _
      rw [hc, Memory.bit_storeBits hw]
      by_cases h1 : 8 * off.toNat + (s.cursor.toNat + f.1) ≤ q ∧
          q < 8 * off.toNat + (s.cursor.toNat + f.1) + (streamBits fs).length
      · rw [if_pos h1, if_pos (by omega), List.getD_append_right _ _ _ _ (by rw [length_fieldBits]; omega),
          length_fieldBits]
        congr 1; omega
      · rw [if_neg h1]
        by_cases h2 : 8 * off.toNat + s.cursor.toNat ≤ q ∧ q < 8 * off.toNat + s.cursor.toNat + f.1
        · rw [if_pos h2, if_pos (by omega), List.getD_append _ _ _ _ (by rw [length_fieldBits]; omega),
            getD_fieldBits _ (by omega)]
        · rw [if_neg h2, if_neg (by omega)]

/-- Fields that fit end in OK with the cursor behind them, others in VALIDATION with the cursor within the limit
(42_negotiation.md R195, 43_update.md R226); no build ends in BOUNDS (40_bitstream.md R152). -/
theorem putFields_kind {limit : Nat} {off : Byte} {fs : List Field} {s : State} (hc : s.cursor.toNat ≤ limit)
    (hl : 8 * off.toNat + limit ≤ 2048) :
    ((putFields limit off fs s).2 = .ok ∧ s.cursor.toNat + (streamBits fs).length ≤ limit ∧
      (putFields limit off fs s).1.cursor.toNat = s.cursor.toNat + (streamBits fs).length) ∨
      ((putFields limit off fs s).2 = .validation ∧ limit < s.cursor.toNat + (streamBits fs).length ∧
        (putFields limit off fs s).1.cursor.toNat ≤ limit) := by
  induction fs generalizing s with
  | nil => exact .inl ⟨rfl, by simpa using hc, by simp [putFields]⟩
  | cons f fs ih =>
    simp only [streamBits_cons, List.length_append, length_fieldBits]
    by_cases hf : limit < s.cursor.toNat + f.1
    · rw [putFields_cons_stop (putField_eq_limit hf) (by decide)]
      exact .inr ⟨rfl, by omega, hc⟩
    · have e := putField_eq_ok (off := off) (f := f) (s := s) (limit := limit) (by omega) hl
      rw [putFields_cons_ok e]
      have hc' : (advance s.cursor f.1).toNat = s.cursor.toNat + f.1 := toNat_advance (by omega)
      have := ih (s := { s with mem := s.mem.storeBits txBase (8 * off.toNat + s.cursor.toNat) f.2 f.1,
                                cursor := advance s.cursor f.1 }) (by show (advance s.cursor f.1).toNat ≤ _; omega)
      dsimp only at this
      rw [hc'] at this
      rcases this with ⟨h1, h2, h3⟩ | ⟨h1, h2, h3⟩
      · exact .inl ⟨h1, by omega, by omega⟩
      · exact .inr ⟨h1, by omega, h3⟩

/-! ## BuildNegotiation and BuildUpdate -/

theorem TxFrame.clearTx (s : State) : TxFrame s (clearTx s) where
  eq := ⟨_, _, rfl⟩
  memWf h := Memory.clear_wf h _ _
  memOut _ a ha := by
    rw [clearTx_mem, Memory.read_clear, if_neg]
    show ¬ (0x800 ≤ a ∧ a < 0x800 + 256)
    omega
  memIn h := Memory.within_clear h _ _

theorem TxFrame.setHeader (bs : List Byte) (s : State) (h : bs.length ≤ 256) : TxFrame s (setHeader bs s) where
  eq := ⟨_, s.cursor, rfl⟩
  memWf hw := Memory.writeBytes_wf hw _ _
  memOut hw a ha := by
    rw [setHeader_mem, Memory.read_writeBytes hw, if_neg]
    show ¬ (0x800 ≤ a ∧ a < 0x800 + bs.length)
    omega
  memIn hw := Memory.within_writeBytes hw _ (by unfold arrayBase txBase; omega) (by unfold arrayEnd txBase; omega)

/-- The frame of a build. -/
theorem buildRequest_frame (limit : Nat) (header : List Byte) (fields : List Field) (s : State)
    (h : header.length ≤ 256) : TxFrame s (buildRequest limit header fields s).1 :=
  ((TxFrame.clearTx s).trans (TxFrame.setHeader header _ h)).trans (putFields_frame _ _ _ _)

theorem toNat_headerOffset {n : Nat} (h : n < 256) : (BitVec.ofNat 8 n).toNat = n := by
  rw [BitVec.toNat_ofNat]; exact Nat.mod_eq_of_lt h

/-- A bit of TX_BUF by its byte. -/
theorem Memory.bit_header {m : Memory} (hw : m.wf) (header : List Byte) (q : Nat) (hq : 8 * header.length ≤ q)
    (hq' : q < 2048) : (((m.clear txBase 256).writeBytes txBase header).bit txBase q) = false := by
  unfold Memory.bit
  rw [Memory.read_writeBytes (Memory.clear_wf hw _ _), if_neg (by omega), Memory.read_clear,
    if_pos (by omega)]
  simp

/-- A build that fits: the header bytes, then the bits of the fields, then zeros (42_negotiation.md R193,
43_update.md R218). -/
theorem buildRequest_ok {limit : Nat} {header : List Byte} {fields : List Field} {s : State} (hw : s.mem.wf)
    (h : (streamBits fields).length ≤ limit) (hl : 8 * header.length + limit ≤ 2048) (hh : header.length ≤ 255) :
    ∃ (m : Memory) (c : BitVec 12),
      buildRequest limit header fields s = ({ s with mem := m, cursor := c }, .ok,
        header.length + ceil8 (streamBits fields).length) ∧
      c.toNat = (streamBits fields).length ∧
      (∀ k, k < header.length → m.read (0x800 + k) = header.getD k 0) ∧
      (∀ k, 8 * header.length + k < 2048 →
        m.bit 0x800 (8 * header.length + k) = (streamBits fields).getD k false) := by
  have hn := toNat_headerOffset (n := header.length) (by omega)
  have hw1 : (Machine.setHeader header (Machine.clearTx s)).mem.wf :=
    Memory.writeBytes_wf (Memory.clear_wf hw _ _) _ _
  obtain ⟨m, c, hp, hc, hb⟩ := putFields_ok (limit := limit) (off := BitVec.ofNat 8 header.length) (fs := fields)
    (s := Machine.setHeader header (Machine.clearTx s)) hw1 (by simpa using h) (by rw [hn]; exact hl)
  have hc' : c.toNat = (streamBits fields).length := by simpa using hc
  have hb' : ∀ q, m.bit txBase q =
      if 8 * header.length ≤ q ∧ q < 8 * header.length + (streamBits fields).length then
        (streamBits fields).getD (q - 8 * header.length) false
      else (Machine.setHeader header (Machine.clearTx s)).mem.bit txBase q := by
    intro q
    have := hb q
    rw [hn] at this
    simpa using this
  refine ⟨m, c, ?_, hc', ?_, ?_⟩
  · unfold buildRequest
    rw [hp]
    simp only [hc']
    rfl
  · intro k hk
    have key : ∀ j, j < 8 → (m.read (0x800 + k)).getLsbD j = (header.getD k 0).getLsbD j := by
      intro j hj
      have := hb' (8 * k + j)
      rw [if_neg (by omega)] at this
      unfold Memory.bit at this
      have e1 : (8 * k + j) / 8 = k := by omega
      have e2 : (8 * k + j) % 8 = j := by omega
      rw [e1, e2] at this
      have e3 : (Machine.setHeader header (Machine.clearTx s)).mem.read (txBase + k) = header.getD k 0 := by
        rw [setHeader_mem, clearTx_mem, Memory.read_writeBytes (Memory.clear_wf hw _ _), if_pos (by omega), Nat.add_sub_cancel_left]
      rw [e3] at this
      exact this
    exact BitVec.eq_of_getLsbD_eq key
  · intro k hk
    have := hb' (8 * header.length + k)
    have e : (Machine.setHeader header (Machine.clearTx s)).mem.bit txBase (8 * header.length + k) = false :=
      Memory.bit_header hw header _ (by omega) hk
    by_cases h2 : k < (streamBits fields).length
    · rw [if_pos (by omega)] at this
      have e2 : 8 * header.length + k - 8 * header.length = k := by omega
      rw [e2] at this; exact this
    · rw [if_neg (by omega), e] at this
      rw [List.getD_eq_default _ _ (by omega)]
      exact this

/-- A build ends in OK with a payload of at most 255 bytes, or in VALIDATION with the cursor within the limit. -/
theorem buildRequest_kind {limit : Nat} {header : List Byte} {fields : List Field} {s : State}
    (hl : 8 * header.length + limit ≤ 2048) (hh : header.length ≤ 255) :
    ((buildRequest limit header fields s).2.1 = .ok ∧ (streamBits fields).length ≤ limit ∧
      (buildRequest limit header fields s).2.2 = header.length + ceil8 (streamBits fields).length) ∨
      ((buildRequest limit header fields s).2.1 = .validation ∧ limit < (streamBits fields).length ∧
        (buildRequest limit header fields s).1.cursor.toNat ≤ limit) := by
  have hn := toNat_headerOffset (n := header.length) (by omega)
  have := putFields_kind (limit := limit) (off := BitVec.ofNat 8 header.length) (fs := fields)
    (s := Machine.setHeader header (Machine.clearTx s)) (by simp) (by rw [hn]; exact hl)
  have hz : (Machine.setHeader header (Machine.clearTx s)).cursor.toNat = 0 := by simp
  rw [hz, Nat.zero_add] at this
  rcases this with ⟨h1, h2, h3⟩ | ⟨h1, h2, h3⟩
  · exact .inl ⟨h1, h2, by unfold buildRequest; simp only [h3]⟩
  · exact .inr ⟨h1, h2, h3⟩

end Sys2Proof.Machine
end

