-- ==== Sys2Proof/Laws/Parse.lean ====
section
/-! SUPPORT. What the parse of an update reply does (43_update.md R228 to R232), said once: where each field of the
reply lies in RX_BUF, which register it goes to, and what the parse leaves unchanged. -/

namespace Sys2Proof.Machine

/-! ## The parse in progress -/

/-- The parse `c` of a reply of `n` payload bytes, begun in `s`, stands at bit address `q` of RX_BUF: what it has
changed lies in CURSOR, ENCODER, RAW_VALUE, COLOR and I2C_IN. -/
structure ParseAt (n : Nat) (s : State) (q : Nat) (c : Parse) : Prop where
  eq : c.st = { s with cursor := c.st.cursor, ports := c.st.ports, mem := c.st.mem }
  cursor : c.st.cursor.toNat + 8 = q
  under : c.under = decide (8 * n < q)
  code : ∀ p, (c.st.port p).code = (s.port p).code
  devCount : ∀ p, (c.st.port p).devCount = (s.port p).devCount
  dev : ∀ p, (c.st.port p).dev = (s.port p).dev
  memOut : ∀ a, a < 0x600 ∨ 0x800 ≤ a → c.st.mem.read a = s.mem.read a
  memWf : s.mem.wf → c.st.mem.wf

theorem ParseAt.portClass {n q : Nat} {s : State} {c : Parse} (h : ParseAt n s q c) (p : PortIx) :
    c.st.portClass p = s.portClass p := by
  refine State.portClass_congr (h.code p) ?_
  rw [h.eq]; rfl

theorem ParseAt.bit {n q : Nat} {s : State} {c : Parse} (h : ParseAt n s q c) (x : Nat) :
    c.st.mem.bit rxBase x = s.mem.bit rxBase x := by
  unfold Memory.bit
  rw [h.memOut _ (by unfold rxBase; omega)]

theorem ParseAt.loadBits {n q : Nat} {s : State} {c : Parse} (h : ParseAt n s q c) (x w : Nat) :
    c.st.mem.loadBits rxBase x w = s.mem.loadBits rxBase x w :=
  Memory.loadBits_congr (fun _ _ => h.bit _)

/-- A field read: its value is the bits of RX_BUF at the place of the parse, which moves on by the width. -/
theorem getU_spec {n q w : Nat} {s : State} {c : Parse} (h : ParseAt n s q c) (hw : q + w < 4096) :
    (getU n w c).1 = s.mem.loadBits rxBase q w ∧ ParseAt n s (q + w) (getU n w c).2 ∧
      (getU n w c).2.st.ports = c.st.ports ∧ (getU n w c).2.st.mem = c.st.mem := by
  have hc := h.cursor
  have e8 : 8 + c.st.cursor.toNat = q := by omega
  refine ⟨?_, ?_, rfl, rfl⟩
  · show c.st.mem.loadBits rxBase (8 + c.st.cursor.toNat) w = _
    rw [e8, h.loadBits]
  · refine ⟨(congrArg (fun u => u.setCursor (advance c.st.cursor w)) h.eq).trans rfl, ?_, ?_, h.code, h.devCount,
      h.dev, h.memOut, h.memWf⟩
    · show (advance c.st.cursor w).toNat + 8 = q + w
      rw [toNat_advance (by omega)]; omega
    · show (c.under || (decide (0 < w) && decide (8 * n < 8 + c.st.cursor.toNat + w))) = _
      rw [e8, h.under]
      by_cases h1 : 8 * n < q
      · have : 8 * n < q + w := by omega
        simp [h1, this]
      · by_cases h2 : 8 * n < q + w
        · have : 0 < w := by omega
          simp [h2, this]
        · simp [h1, h2]

/-- A field read, as a pair. -/
theorem getU_eq {n q w : Nat} {s : State} {c : Parse} (h : ParseAt n s q c) (hw : q + w < 4096) :
    ∃ c', getU n w c = (s.mem.loadBits rxBase q w, c') ∧ ParseAt n s (q + w) c' ∧ c'.st.ports = c.st.ports ∧
      c'.st.mem = c.st.mem := by
  obtain ⟨h1, h2, h3, h4⟩ := getU_spec h hw
  exact ⟨(getU n w c).2, Prod.ext h1 rfl, h2, h3, h4⟩

/-- Changing the readings of a port keeps the place of the parse. -/
theorem ParseAt.setPort {n q : Nat} {s : State} {c : Parse} (h : ParseAt n s q c) (p : PortIx) (f : Port → Port)
    (hcode : ∀ x, (f x).code = x.code) (hcount : ∀ x, (f x).devCount = x.devCount) (hdev : ∀ x, (f x).dev = x.dev) :
    ParseAt n s q (c.setPort p f) where
  eq := (congrArg (fun u => u.setPort p (f (c.st.port p))) h.eq).trans rfl
  cursor := h.cursor
  under := h.under
  code r := by
    show ((c.st.setPort p (f (c.st.port p))).port r).code = _
    rw [State.port_setPort]
    split_ifs with e
    · rw [hcode, e, h.code]
    · exact h.code r
  devCount r := by
    show ((c.st.setPort p (f (c.st.port p))).port r).devCount = _
    rw [State.port_setPort]
    split_ifs with e
    · rw [hcount, e, h.devCount]
    · exact h.devCount r
  dev r := by
    show ((c.st.setPort p (f (c.st.port p))).port r).dev = _
    rw [State.port_setPort]
    split_ifs with e
    · rw [hdev, e, h.dev]
    · exact h.dev r
  memOut := h.memOut
  memWf := h.memWf

theorem Parse.setPort_port (c : Parse) (p r : PortIx) (f : Port → Port) :
    (c.setPort p f).st.port r = if r = p then f (c.st.port p) else c.st.port r := by
  show (c.st.setPort p (f (c.st.port p))).port r = _
  rw [State.port_setPort]

theorem port_congr {s t : State} (h : s.ports = t.ports) (p : PortIx) : s.port p = t.port p := by
  unfold State.port; rw [h]

/-! ## The encoders -/

theorem parseEncoder_spec {n q u : Nat} {s : State} {c : Parse} (p : PortIx) (h : ParseAt n s q c)
    (hw : q + u < 4096) :
    ParseAt n s (q + u) (parseEncoder n p u c) ∧ (parseEncoder n p u c).st.mem = c.st.mem ∧
      ∀ r, (parseEncoder n p u c).st.port r =
        if r = p then { c.st.port p with encoder := BitVec.ofInt 32 (smDecode (s.mem.loadBits rxBase q u).toNat) }
        else c.st.port r := by
  obtain ⟨hv, hp, hports, hmem⟩ := getU_spec (w := u) h hw
  refine ⟨hp.setPort p (fun x => { x with encoder := BitVec.ofInt 32 (smDecode (getU n u c).1.toNat) }) (fun _ => rfl) (fun _ => rfl)
    (fun _ => rfl), hmem, fun r => ?_⟩
  show ((getU n u c).2.setPort p _).st.port r = _
  rw [Parse.setPort_port, hv, port_congr hports, port_congr hports]

/-! ## The single-value fields -/

theorem parseRaw_spec {n q w : Nat} {s : State} {c : Parse} (p : PortIx) (h : ParseAt n s q c) (hw : q + w < 4096) :
    ParseAt n s (q + w) (parseRaw n p w c) ∧ (parseRaw n p w c).st.mem = c.st.mem ∧
      ∀ r, (parseRaw n p w c).st.port r =
        if r = p then { c.st.port p with raw := s.mem.loadBits rxBase q w } else c.st.port r := by
  obtain ⟨hv, hp, hports, hmem⟩ := getU_spec (w := w) h hw
  refine ⟨hp.setPort p (fun x => { x with raw := (getU n w c).1 }) (fun _ => rfl) (fun _ => rfl)
    (fun _ => rfl), hmem, fun r => ?_⟩
  show ((getU n w c).2.setPort p _).st.port r = _
  rw [Parse.setPort_port, hv, port_congr hports, port_congr hports]

/-- The colour slots of a port whose components start at bit address `q` (43_update.md R230). -/
def colorsAt (s : State) (q : Nat) : Vector (BitVec 10) 4 :=
  #v[(s.mem.loadBits rxBase (q + 10) 10).setWidth 10, (s.mem.loadBits rxBase (q + 20) 10).setWidth 10,
    (s.mem.loadBits rxBase (q + 30) 10).setWidth 10, (s.mem.loadBits rxBase q 10).setWidth 10]

theorem parseColors_spec {n q : Nat} {s : State} {c : Parse} (p : PortIx) (h : ParseAt n s q c) (hw : q + 40 < 4096) :
    ParseAt n s (q + 40) (parseColors n p c) ∧ (parseColors n p c).st.mem = c.st.mem ∧
      ∀ r, (parseColors n p c).st.port r =
        if r = p then { c.st.port p with color := colorsAt s q } else c.st.port r := by
  obtain ⟨c1, e1, h1, p1, m1⟩ := getU_eq (w := 10) h (by omega)
  obtain ⟨c2, e2, h2, p2, m2⟩ := getU_eq (w := 10) h1 (by omega)
  rw [show q + 10 + 10 = q + 20 by omega] at h2
  obtain ⟨c3, e3, h3, p3, m3⟩ := getU_eq (w := 10) h2 (by omega)
  rw [show q + 20 + 10 = q + 30 by omega] at h3
  obtain ⟨c4, e4, h4, p4, m4⟩ := getU_eq (w := 10) h3 (by omega)
  rw [show q + 30 + 10 = q + 40 by omega] at h4
  have hports := p4.trans (p3.trans (p2.trans p1))
  have e : parseColors n p c = c4.setPort p (fun x => { x with color := colorsAt s q }) := by
    simp only [parseColors, e1, e2, e3, e4, colorsAt]
  rw [e]
  refine ⟨?_, m4.trans (m3.trans (m2.trans m1)), fun r => ?_⟩
  · exact h4.setPort p (fun x => { x with color := colorsAt s q }) (fun _ => rfl) (fun _ => rfl) (fun _ => rfl)
  · rw [Parse.setPort_port, port_congr hports, port_congr hports]

/-! ## The I2C field -/

/-- The byte of the reply at bit address `q`. -/
def rxByteAt (s : State) (q : Nat) : Byte := (s.mem.loadBits rxBase q 8).setWidth 8

theorem i2cInAddr_range (p : PortIx) (d : SlotIx) {k : Nat} (hk : k < 16) :
    0x600 ≤ i2cInAddr p d k ∧ i2cInAddr p d k < 0x800 := by
  have := p.isLt; have := d.isLt
  unfold i2cInAddr; omega

theorem i2cInAddr_inj {p p' : PortIx} {d d' : SlotIx} {k k' : Nat} (hk : k < 16) (hk' : k' < 16)
    (h : i2cInAddr p d k = i2cInAddr p' d' k') : p = p' ∧ d = d' ∧ k = k' := by
  have := p.isLt; have := d.isLt; have := p'.isLt; have := d'.isLt
  unfold i2cInAddr at h
  refine ⟨Fin.ext ?_, Fin.ext ?_, ?_⟩ <;> omega

/-- The input bytes of one device (43_update.md R231). -/
theorem parseBytes_spec {n : Nat} {s : State} (p : PortIx) (d : SlotIx) (r : Nat) :
    ∀ (k q : Nat) (c : Parse), ParseAt n s q c → q + 8 * r < 4096 → k + r ≤ 16 →
      ParseAt n s (q + 8 * r) (parseBytes n p d k r c) ∧ (parseBytes n p d k r c).st.ports = c.st.ports ∧
      (∀ a, (∀ j, k ≤ j → j < k + r → a ≠ i2cInAddr p d j) → (parseBytes n p d k r c).st.mem.read a = c.st.mem.read a) ∧
      (s.mem.wf → ∀ j, k ≤ j → j < k + r →
        (parseBytes n p d k r c).st.mem.read (i2cInAddr p d j) = rxByteAt s (q + 8 * (j - k))) := by
  induction r with
  | zero =>
    intro k q c h _ _
    exact ⟨h, rfl, fun _ _ => rfl, fun _ j h1 h2 => by omega⟩
  | succ r ih =>
    intro k q c h hq hk
    obtain ⟨c1, e1, h1, hports, hmem⟩ := getU_eq (w := 8) h (by omega)
    have hrange := i2cInAddr_range p d (k := k) (by omega)
    have h2 : ParseAt n s (q + 8)
        { c1 with st := c1.st.setMem (c1.st.mem.write (i2cInAddr p d k) (rxByteAt s q)) } :=
      { eq := (congrArg (fun u => u.setMem (c1.st.mem.write (i2cInAddr p d k) (rxByteAt s q))) h1.eq).trans rfl
        cursor := h1.cursor
        under := h1.under
        code := h1.code
        devCount := h1.devCount
        dev := h1.dev
        memOut := fun a ha => by
          show Memory.read (Memory.write _ _ _) a = _
          rw [Memory.read_write_of_ne _ _ (by omega)]
          exact h1.memOut a ha
        memWf := fun w => Memory.write_wf (h1.memWf w) _ _ }
    have hstep : parseBytes n p d k (r + 1) c = parseBytes n p d (k + 1) r
        { c1 with st := c1.st.setMem (c1.st.mem.write (i2cInAddr p d k) (rxByteAt s q)) } := by
      rw [parseBytes, e1]; rfl
    obtain ⟨g1, g2, g3, g4⟩ := ih (k + 1) (q + 8) _ h2 (by omega) (by omega)
    have e : q + 8 * (r + 1) = q + 8 + 8 * r := by omega
    rw [hstep]
    refine ⟨by rw [e]; exact g1, g2.trans hports, ?_, ?_⟩
    · intro a ha
      rw [g3 a (fun j hj hj' => ha j (by omega) (by omega))]
      show Memory.read (Memory.write _ _ _) a = _
      rw [Memory.read_write_of_ne _ _ (ha k (by omega) (by omega)), hmem]
    · intro w j hj hj'
      by_cases hjk : j = k
      · subst hjk
        rw [g3 _ (fun i hi hi' => fun e => by
          have := (i2cInAddr_inj (by omega) (by omega) e).2.2; omega)]
        show Memory.read (Memory.write _ _ _) _ = _
        rw [Memory.read_write (h1.memWf w), if_pos rfl, Nat.sub_self, Nat.mul_zero, Nat.add_zero]
      · rw [g4 w j (by omega) (by omega)]
        congr 1; omega

/-- How many bytes the present devices of a list of slots have. -/
def bytesOf (rlen : SlotIx → Nat) (pres : SlotIx → Bool) (ds : List SlotIx) : Nat :=
  (ds.map (fun e => if pres e then rlen e else 0)).sum

/-- The input bytes of the present devices of a list of slots, in order (43_update.md R231). -/
theorem parseSlots_spec {n : Nat} {s : State} (p : PortIx) (mask : Word) (pres : SlotIx → Bool)
    (hp : ∀ d, pres d = mask.getLsbD d.val) (ds : List SlotIx) :
    ∀ (q : Nat) (c : Parse), ParseAt n s q c →
      q + 8 * bytesOf (fun d => ((s.port p).dev[d.val]).rlen.toNat) pres ds < 4096 → ds.Nodup →
      ParseAt n s (q + 8 * bytesOf (fun d => ((s.port p).dev[d.val]).rlen.toNat) pres ds) (parseSlots n p mask ds c) ∧
      (parseSlots n p mask ds c).st.ports = c.st.ports ∧
      (∀ a, (∀ d k, d ∈ ds → pres d = true → k < ((s.port p).dev[d.val]).rlen.toNat → a ≠ i2cInAddr p d k) →
        (parseSlots n p mask ds c).st.mem.read a = c.st.mem.read a) ∧
      (s.mem.wf → ∀ ds₁ d ds₂ k, ds = ds₁ ++ d :: ds₂ → pres d = true → k < ((s.port p).dev[d.val]).rlen.toNat →
        (parseSlots n p mask ds c).st.mem.read (i2cInAddr p d k) =
          rxByteAt s (q + 8 * bytesOf (fun d => ((s.port p).dev[d.val]).rlen.toNat) pres ds₁ + 8 * k)) := by
  induction ds with
  | nil =>
    intro q c h _ _
    refine ⟨h, rfl, fun _ _ => rfl, fun _ ds₁ d ds₂ k e => ?_⟩
    exact absurd e (by simp)
  | cons d ds ih =>
    intro q c h hq hnd
    obtain ⟨hd, hnd⟩ := List.nodup_cons.1 hnd
    have hdev : ((c.st.port p).dev[d.val]).rlen.toNat = ((s.port p).dev[d.val]).rlen.toNat := by rw [h.dev]
    have hlt : ((s.port p).dev[d.val]).rlen.toNat < 16 := ((s.port p).dev[d.val]).rlen.isLt
    have hb : bytesOf (fun d => ((s.port p).dev[d.val]).rlen.toNat) pres (d :: ds) =
        (if pres d then ((s.port p).dev[d.val]).rlen.toNat else 0) +
          bytesOf (fun d => ((s.port p).dev[d.val]).rlen.toNat) pres ds := by simp [bytesOf]
    rw [hb] at hq ⊢
    rw [parseSlots, ← hp d]
    cases hpd : pres d with
    | false =>
      rw [hpd] at hq
      simp only [Bool.false_eq_true, if_false, Nat.zero_add] at hq ⊢
      obtain ⟨g1, g2, g3, g4⟩ := ih q c h hq hnd
      refine ⟨g1, g2, fun a ha => g3 a (fun e k he => ha e k (List.mem_cons_of_mem _ he)), ?_⟩
      intro w ds₁ e ds₂ k hds hpe hk
      cases ds₁ with
      | nil =>
        simp only [List.nil_append, List.cons.injEq] at hds
        obtain ⟨rfl, rfl⟩ := hds
        rw [hpd] at hpe; cases hpe
      | cons x ds₁ =>
        simp only [List.cons_append, List.cons.injEq] at hds
        obtain ⟨rfl, rfl⟩ := hds
        rw [g4 w ds₁ e ds₂ k rfl hpe hk]
        simp [bytesOf, hpd]
    | true =>
      rw [hpd] at hq
      simp only [if_true] at hq ⊢
      rw [hdev]
      obtain ⟨f1, f2, f3, f4⟩ := parseBytes_spec (n := n) (s := s) p d ((s.port p).dev[d.val]).rlen.toNat 0 q c h
        (by omega) (by omega)
      obtain ⟨g1, g2, g3, g4⟩ := ih _ _ f1 (by omega) hnd
      refine ⟨?_, g2.trans f2, ?_, ?_⟩
      · have e : q + 8 * (((s.port p).dev[d.val]).rlen.toNat +
            bytesOf (fun d => ((s.port p).dev[d.val]).rlen.toNat) pres ds) =
            q + 8 * ((s.port p).dev[d.val]).rlen.toNat +
              8 * bytesOf (fun d => ((s.port p).dev[d.val]).rlen.toNat) pres ds := by omega
        rw [e]; exact g1
      · intro a ha
        rw [g3 a (fun e k he => ha e k (List.mem_cons_of_mem _ he)),
          f3 a (fun j _ hj => ha d j (by simp) hpd (by omega))]
      · intro w ds₁ e ds₂ k hds hpe hk
        have hke : k < 16 := by
          have := ((s.port p).dev[e.val]).rlen.isLt
          omega
        cases ds₁ with
        | nil =>
          simp only [List.nil_append, List.cons.injEq] at hds
          obtain ⟨rfl, rfl⟩ := hds
          rw [g3, f4 w k (by omega) (by omega)]
          · simp [bytesOf]
          · intro x j hx hpx hj heq
            have hj16 : j < 16 := by
              have := ((s.port p).dev[x.val]).rlen.isLt
              omega
            have := (i2cInAddr_inj hke hj16 heq).2.1
            subst this
            exact hd hx
        | cons x ds₁ =>
          simp only [List.cons_append, List.cons.injEq] at hds
          obtain ⟨rfl, rfl⟩ := hds
          rw [g4 w ds₁ e ds₂ k rfl hpe hk]
          have : bytesOf (fun d => ((s.port p).dev[d.val]).rlen.toNat) pres (d :: ds₁) =
              ((s.port p).dev[d.val]).rlen.toNat + bytesOf (fun d => ((s.port p).dev[d.val]).rlen.toNat) pres ds₁ := by
            simp [bytesOf, hpd]
          rw [this]
          congr 1; omega

/-! ## The sensor field of a port -/

/-- RAW_VALUE of a port whose sensor field starts at bit address `q`. -/
def rawAt (s : State) (p : PortIx) (q : Nat) : Word :=
  match s.portClass p with
  | .touch => s.mem.loadBits rxBase q 1
  | .ultrasonic => s.mem.loadBits rxBase q 8
  | .colorFull => s.mem.loadBits rxBase q 3
  | .i2c => s.mem.loadBits rxBase q (s.port p).devCount.toNat
  | .default => s.mem.loadBits rxBase q 10

/-- Device d of port p is present in the field that starts at bit address `q` (30_encoding.md R142). -/
def presentAt (s : State) (p : PortIx) (q : Nat) (d : SlotIx) : Bool :=
  decide (s.portClass p = .i2c) && decide (d.val < (s.port p).devCount.toNat) && s.mem.bit rxBase (q + d.val)

theorem slots_eq_slotsBelow (x : Port) : x.slots = slotsBelow x.devCount.toNat := rfl

theorem nodup_slotsBelow (n : Nat) : (slotsBelow n).Nodup := (List.nodup_finRange 8).filter _

theorem mem_slotsBelow {n : Nat} {d : SlotIx} : d ∈ slotsBelow n ↔ d.val < n := by
  simp [slotsBelow]

theorem slotsBelow_split {n : Nat} (hn : n ≤ 8) (d : SlotIx) (hd : d.val < n) :
    ∃ ds, slotsBelow n = slotsBelow d.val ++ d :: ds := by
  have : ∀ (m : Fin 9) (d : SlotIx), d.val < m.val →
      (slotsBelow m.val).take (d.val + 1) = slotsBelow d.val ++ [d] := by decide
  have h := this ⟨n, by omega⟩ d hd
  refine ⟨(slotsBelow n).drop (d.val + 1), ?_⟩
  conv_lhs => rw [← List.take_append_drop (d.val + 1) (slotsBelow n)]
  rw [h]; simp

theorem length_slotsBelow_le (n : Nat) : (slotsBelow n).length ≤ 8 := by
  have : (slotsBelow n).length ≤ (List.finRange 8).length := List.length_filter_le _ _
  simpa using this

theorem bytesOf_le (rlen : SlotIx → Nat) (pres : SlotIx → Bool) (h : ∀ d, rlen d ≤ 15) (ds : List SlotIx) :
    bytesOf rlen pres ds ≤ 15 * ds.length := by
  induction ds with
  | nil => simp [bytesOf]
  | cons d ds ih =>
    have e : bytesOf rlen pres (d :: ds) = (if pres d then rlen d else 0) + bytesOf rlen pres ds := by simp [bytesOf]
    rw [e, List.length_cons]
    have := h d
    split_ifs <;> omega

theorem presentBytes_eq (s : State) (p : PortIx) (q d : Nat) :
    presentBytes s p q d =
      bytesOf (fun e => ((s.port p).dev[e.val]).rlen.toNat) (fun e => s.mem.bit rxBase (q + e.val)) (slotsBelow d) := rfl

theorem presentBytes_le (s : State) (p : PortIx) (q d : Nat) : presentBytes s p q d ≤ 120 := by
  rw [presentBytes_eq]
  have h := bytesOf_le (fun e => ((s.port p).dev[e.val]).rlen.toNat) (fun e => s.mem.bit rxBase (q + e.val))
    (fun d => by have := ((s.port p).dev[d.val]).rlen.isLt; show _ ≤ 15; omega) (slotsBelow d)
  have := length_slotsBelow_le d
  omega

/-- The width of a sensor field is at most 968 bits when DEVCOUNT is in range (30_encoding.md R146). -/
theorem sensorWidth_le (s : State) (p : PortIx) (q : Nat) (h : s.portClass p = .i2c → (s.port p).devCount.toNat ≤ 8) :
    sensorWidth s p q ≤ 968 := by
  unfold sensorWidth
  have := presentBytes_le s p q (s.port p).devCount.toNat
  cases hc : s.portClass p <;> simp only <;> try omega
  have := h hc
  omega

/-- The sensor field of port p (43_update.md R229 to R231). -/
theorem sensorField_spec {n q : Nat} {s : State} {c : Parse} (p : PortIx) (h : ParseAt n s q c)
    (hd : s.portClass p = .i2c → (s.port p).devCount.toNat ≤ 8) (hq : q < 3000) :
    ParseAt n s (q + sensorWidth s p q) (sensorField n p c) ∧
      (∀ r, (sensorField n p c).st.port r =
        if r = p then
          { c.st.port p with
            raw := rawAt s p q,
            color := if s.portClass p = .colorFull then colorsAt s (q + 3) else (c.st.port p).color }
        else c.st.port r) ∧
      (∀ a, (∀ d k, presentAt s p q d = true → k < ((s.port p).dev[d.val]).rlen.toNat → a ≠ i2cInAddr p d k) →
        (sensorField n p c).st.mem.read a = c.st.mem.read a) ∧
      (s.mem.wf → ∀ d k, presentAt s p q d = true → k < ((s.port p).dev[d.val]).rlen.toNat →
        (sensorField n p c).st.mem.read (i2cInAddr p d k) =
          rxByteAt s (q + (s.port p).devCount.toNat + 8 * presentBytes s p q d.val + 8 * k)) := by
  have hcl := h.portClass p
  cases hc : s.portClass p with
  | touch =>
    obtain ⟨h1, h2, h3⟩ := parseRaw_spec (w := 1) p h (by omega)
    have e : sensorField n p c = parseRaw n p 1 c := by unfold sensorField; rw [hcl, hc]
    rw [e]
    refine ⟨by unfold sensorWidth; rw [hc]; exact h1, fun r => ?_, fun a _ => by rw [h2], fun _ d k hp => ?_⟩
    · rw [h3 r]; simp [rawAt, hc]
    · simp [presentAt, hc] at hp
  | ultrasonic =>
    obtain ⟨h1, h2, h3⟩ := parseRaw_spec (w := 8) p h (by omega)
    have e : sensorField n p c = parseRaw n p 8 c := by unfold sensorField; rw [hcl, hc]
    rw [e]
    refine ⟨by unfold sensorWidth; rw [hc]; exact h1, fun r => ?_, fun a _ => by rw [h2], fun _ d k hp => ?_⟩
    · rw [h3 r]; simp [rawAt, hc]
    · simp [presentAt, hc] at hp
  | default =>
    obtain ⟨h1, h2, h3⟩ := parseRaw_spec (w := 10) p h (by omega)
    have e : sensorField n p c = parseRaw n p 10 c := by unfold sensorField; rw [hcl, hc]
    rw [e]
    refine ⟨by unfold sensorWidth; rw [hc]; exact h1, fun r => ?_, fun a _ => by rw [h2], fun _ d k hp => ?_⟩
    · rw [h3 r]; simp [rawAt, hc]
    · simp [presentAt, hc] at hp
  | colorFull =>
    obtain ⟨h1, h2, h3⟩ := parseRaw_spec (w := 3) p h (by omega)
    obtain ⟨g1, g2, g3⟩ := parseColors_spec p h1 (by omega)
    have e : sensorField n p c = parseColors n p (parseRaw n p 3 c) := by unfold sensorField; rw [hcl, hc]
    rw [e]
    refine ⟨by unfold sensorWidth; rw [hc]; exact g1, fun r => ?_, fun a _ => by rw [g2, h2], fun _ d k hp => ?_⟩
    · rw [g3 r, h3 r, h3 p]
      by_cases hr : r = p <;> simp [rawAt, hc, hr]
    · simp [presentAt, hc] at hp
  | i2c =>
    have hd' := hd hc
    have e : sensorField n p c = parseI2c n p c := by unfold sensorField; rw [hcl, hc]
    have hcount : (c.st.port p).devCount.toNat = (s.port p).devCount.toNat := by rw [h.devCount]
    obtain ⟨hv, h1, hports, hmem⟩ := getU_spec (w := (s.port p).devCount.toNat) h (by omega)
    have h2 := h1.setPort p (fun x => { x with raw := (getU n (s.port p).devCount.toNat c).1 }) (fun _ => rfl)
      (fun _ => rfl) (fun _ => rfl)
    have hpres : ∀ d : SlotIx, (decide (d.val < (s.port p).devCount.toNat) && s.mem.bit rxBase (q + d.val)) =
        (getU n (s.port p).devCount.toNat c).1.getLsbD d.val := by
      intro d
      rw [hv, Memory.getLsbD_loadBits]
      have : d.val < 32 := by have := d.isLt; omega
      simp [this]
    have hslots : (c.st.port p).slots = slotsBelow (s.port p).devCount.toNat := by
      rw [slots_eq_slotsBelow, hcount]
    have hsum : bytesOf (fun d => ((s.port p).dev[d.val]).rlen.toNat)
          (fun d => decide (d.val < (s.port p).devCount.toNat) && s.mem.bit rxBase (q + d.val))
          (slotsBelow (s.port p).devCount.toNat) = presentBytes s p q (s.port p).devCount.toNat := by
      rw [presentBytes_eq]
      unfold bytesOf
      congr 1
      apply List.map_congr_left
      intro e he
      rw [mem_slotsBelow] at he
      simp [he]
    have hle := presentBytes_le s p q (s.port p).devCount.toNat
    obtain ⟨g1, g2, g3, g4⟩ := parseSlots_spec (n := n) (s := s) p (getU n (s.port p).devCount.toNat c).1 _ hpres
      (slotsBelow (s.port p).devCount.toNat) _ _ h2 (by rw [hsum]; omega) (nodup_slotsBelow _)
    have e' : parseI2c n p c = parseSlots n p (getU n (s.port p).devCount.toNat c).1
        (slotsBelow (s.port p).devCount.toNat)
        ((getU n (s.port p).devCount.toNat c).2.setPort p
          (fun x => { x with raw := (getU n (s.port p).devCount.toNat c).1 })) := by
      unfold parseI2c
      rw [hslots, hcount]
    rw [e, e']
    refine ⟨?_, fun r => ?_, ?_, ?_⟩
    · unfold sensorWidth; rw [hc]
      rw [hsum] at g1
      have : q + ((s.port p).devCount.toNat + 8 * presentBytes s p q (s.port p).devCount.toNat) =
          q + (s.port p).devCount.toNat + 8 * presentBytes s p q (s.port p).devCount.toNat := by omega
      rw [this]; exact g1
    · rw [port_congr g2, Parse.setPort_port, port_congr hports, port_congr hports, hv]
      simp [rawAt, hc]
    · intro a ha
      rw [g3 a (fun d k hdm hp hk => ha d k (by
        rw [mem_slotsBelow] at hdm
        simp only [presentAt, hc, decide_true, Bool.true_and]
        exact hp) hk)]
      show (getU n (s.port p).devCount.toNat c).2.st.mem.read a = _
      rw [hmem]
    · intro w d k hp hk
      simp only [presentAt, hc, decide_true, Bool.true_and] at hp
      have hdn : d.val < (s.port p).devCount.toNat := by
        simp only [Bool.and_eq_true, decide_eq_true_eq] at hp
        exact hp.1
      obtain ⟨ds, hds⟩ := slotsBelow_split hd' d hdn
      rw [g4 w _ d ds k hds hp hk]
      congr 3
      rw [presentBytes_eq]
      unfold bytesOf
      congr 2
      apply List.map_congr_left
      intro e he
      rw [mem_slotsBelow] at he
      have : e.val < (s.port p).devCount.toNat := by omega
      simp [this]

/-! ## The whole parse -/

theorem lowPort_ne_highPort (g : SegIx) : lowPort g ≠ highPort g := by
  intro h; have := congrArg Fin.val h; simp [lowPort, highPort] at this

/-- What the parse of a reply of `n` payload bytes does (43_update.md R228 to R232). -/
theorem parseReply_spec {n : Nat} {g : SegIx} {s : State} (hn : 0 < n) (hd : devCountsOk g s = true) :
    (∃ (c : BitVec 12) (ps : Vector Port 4) (m : Memory), parseReply n g s =
        { s with
          cursor := c, ports := ps, mem := m,
          status := { s.status with underrun := decide (8 * n < replyEnd g s) } }) ∧
      (parseReply n g s).cursor.toNat + 8 = replyEnd g s ∧
      (∀ p, p ≠ lowPort g → p ≠ highPort g → (parseReply n g s).port p = s.port p) ∧
      (∀ p, p = lowPort g ∨ p = highPort g → (parseReply n g s).port p =
        { s.port p with
          encoder := BitVec.ofInt 32 (smDecode
            (if p = lowPort g then rxBits s 18 (usedBits s 0) else rxBits s (18 + usedBits s 0) (usedBits s 1))),
          raw := rawAt s p (fieldStart g s p),
          color := if s.portClass p = .colorFull then colorsAt s (fieldStart g s p + 3) else (s.port p).color }) ∧
      (s.mem.wf → (parseReply n g s).mem.wf) ∧
      (∀ a, (∀ p d k, (p = lowPort g ∨ p = highPort g) → presentAt s p (fieldStart g s p) d = true →
          k < ((s.port p).dev[d.val]).rlen.toNat → a ≠ i2cInAddr p d k) →
        (parseReply n g s).mem.read a = s.mem.read a) ∧
      (s.mem.wf → ∀ p d k, (p = lowPort g ∨ p = highPort g) → presentAt s p (fieldStart g s p) d = true →
        k < ((s.port p).dev[d.val]).rlen.toNat →
        (parseReply n g s).mem.read (i2cInAddr p d k) =
          rxByteAt s (fieldStart g s p + (s.port p).devCount.toNat + 8 * presentBytes s p (fieldStart g s p) d.val + 8 * k)) := by
  have hne := lowPort_ne_highPort g
  have hcount : ∀ p, p = lowPort g ∨ p = highPort g → s.portClass p = .i2c → (s.port p).devCount.toNat ≤ 8 := by
    intro p hp hc
    simp only [devCountsOk, segPorts, List.all_cons, List.all_nil, Bool.and_true, Bool.and_eq_true, Bool.or_eq_true,
      decide_eq_true_eq, Port.devCountInRange] at hd
    rcases hp with rfl | rfl
    · rcases hd.1 with h | h
      · exact absurd hc h
      · exact h.2
    · rcases hd.2 with h | h
      · exact absurd hc h
      · exact h.2
  have h0 : ParseAt n s 8 { st := s.setCursor 0, under := false } :=
    { eq := rfl, cursor := by simp, under := by simp; omega, code := fun _ => rfl, devCount := fun _ => rfl,
      dev := fun _ => rfl, memOut := fun _ _ => rfl, memWf := id }
  have hu : ∀ j : Fin 2, usedBits s j < 32 := fun j => Memory.loadBits_lt _ _ _ 5
  have hu0 := hu 0
  have hu1 := hu 1
  obtain ⟨c0, e0, a0, p0, m0⟩ := getU_eq (w := 5) h0 (by omega)
  obtain ⟨c1, e1, a1, p1, m1⟩ := getU_eq (w := 5) a0 (by omega)
  obtain ⟨a2, m2, p2⟩ := parseEncoder_spec (u := usedBits s 0) (lowPort g) a1 (by omega)
  obtain ⟨a3, m3, p3⟩ := parseEncoder_spec (u := usedBits s 1) (highPort g) a2 (by omega)
  have eLow : 8 + 5 + 5 + usedBits s 0 + usedBits s 1 = lowField s := rfl
  rw [eLow] at a3
  have hLow : lowField s < 100 := by unfold lowField; omega
  have wLow := sensorWidth_le s (lowPort g) (lowField s) (hcount _ (.inl rfl))
  obtain ⟨a4, p4, m4, b4⟩ := sensorField_spec (lowPort g) a3 (hcount _ (.inl rfl)) (by omega)
  have eHigh : lowField s + sensorWidth s (lowPort g) (lowField s) = highField g s := rfl
  rw [eHigh] at a4
  obtain ⟨a5, p5, m5, b5⟩ := sensorField_spec (highPort g) a4 (hcount _ (.inr rfl)) (by omega)
  have eEnd : highField g s + sensorWidth s (highPort g) (highField g s) = replyEnd g s := rfl
  rw [eEnd] at a5
  have hport0 : ∀ r, c1.st.port r = s.port r := fun r => (port_congr p1 r).trans ((port_congr p0 r).trans rfl)
  have hmem0 : c1.st.mem = s.mem := m1.trans m0
  have heq : parseFields n g { st := s.setCursor 0, under := false } =
      sensorField n (highPort g) (sensorField n (lowPort g) (parseEncoder n (highPort g) (usedBits s 1)
        (parseEncoder n (lowPort g) (usedBits s 0) c1))) := by
    rw [parseFields, e0]; dsimp only
    rw [e1]; rfl
  rw [← heq] at a5 p5 m5 b5
  generalize hc5 : parseFields n g { st := s.setCursor 0, under := false } = c5 at *
  have hres : parseReply n g s = c5.st.setStatus { c5.st.status with underrun := c5.under } := by
    rw [parseReply, hc5]
  have hst : c5.st.status = s.status := by rw [a5.eq]
  have fsL : fieldStart g s (lowPort g) = lowField s := by unfold fieldStart; rw [if_pos rfl]
  have fsH : fieldStart g s (highPort g) = highField g s := by unfold fieldStart; rw [if_neg hne.symm]
  refine ⟨⟨c5.st.cursor, c5.st.ports, c5.st.mem, ?_⟩, ?_, ?_, ?_, ?_, ?_, ?_⟩
  · rw [hres, hst, a5.under]
    exact (congrArg (fun u => u.setStatus { s.status with underrun := decide (8 * n < replyEnd g s) }) a5.eq).trans rfl
  · rw [hres]; exact a5.cursor
  · intro p hpl hph
    rw [hres]
    show c5.st.port p = _
    rw [p5 p, if_neg hph, p4 p, if_neg hpl, p3 p, if_neg hph, p2 p, if_neg hpl, hport0]
  · intro p hp
    rw [hres]
    show c5.st.port p = _
    rcases hp with rfl | rfl
    · rw [p5, if_neg hne, p4, if_pos rfl, p3, if_neg hne, p2, if_pos rfl, hport0, fsL, if_pos rfl]
      rfl
    · rw [p5, if_pos rfl, p4, if_neg hne.symm, p3, if_pos rfl, p2, if_neg hne.symm, hport0, fsH, if_neg hne.symm]
      rfl
  · rw [hres]; exact a5.memWf
  · intro a ha
    rw [hres]
    show c5.st.mem.read a = _
    rw [m5 a (fun d k hp hk => ha _ d k (.inr rfl) (by rw [fsH]; exact hp) hk),
      m4 a (fun d k hp hk => ha _ d k (.inl rfl) (by rw [fsL]; exact hp) hk), m3, m2, hmem0]
  · intro w p d k hp hpres hk
    rw [hres]
    show c5.st.mem.read _ = _
    rcases hp with rfl | rfl
    · rw [fsL] at hpres ⊢
      rw [m5, b4 w d k hpres hk]
      intro d' k' hp' hk' he
      have h16 : k < 16 := by have := ((s.port (lowPort g)).dev[d.val]).rlen.isLt; omega
      have h16' : k' < 16 := by have := ((s.port (highPort g)).dev[d'.val]).rlen.isLt; omega
      exact hne (i2cInAddr_inj h16 h16' he).1
    · rw [fsH] at hpres ⊢
      exact b5 w d k hpres hk

/-! ## The frame of a parse, whatever the reply and the device counts are -/

/-- `t` differs from `s` as a parse for segment `g` may make it differ: CURSOR, the readings of the segment's ports,
I2C_IN and UNDERRUN. -/
structure ParseFrame (g : SegIx) (s t : State) : Prop where
  eq : t = { s with
    cursor := t.cursor, ports := t.ports, mem := t.mem, status := { s.status with underrun := t.status.underrun } }
  other : ∀ p, p ≠ lowPort g → p ≠ highPort g → t.port p = s.port p
  keep : ∀ p, t.port p = { s.port p with
    encoder := (t.port p).encoder, raw := (t.port p).raw, color := (t.port p).color }
  memOut : s.mem.wf → ∀ a, a < 0x600 ∨ 0x800 ≤ a → t.mem.read a = s.mem.read a
  memWf : s.mem.wf → t.mem.wf
  memIn : s.mem.within arrayBase arrayEnd → t.mem.within arrayBase arrayEnd

namespace ParseFrame

variable {g : SegIx} {s t u : State}

theorem refl (g : SegIx) (s : State) : ParseFrame g s s := ⟨rfl, fun _ _ _ => rfl, fun _ => rfl, fun _ _ _ => rfl, id, id⟩

theorem trans (h : ParseFrame g s t) (k : ParseFrame g t u) : ParseFrame g s u where
  eq := by
    refine k.eq.trans ?_
    conv_lhs => rw [h.eq]
  other p h1 h2 := (k.other p h1 h2).trans (h.other p h1 h2)
  keep p := by
    rw [k.keep p, h.keep p]
  memOut w a ha := (k.memOut (h.memWf w) a ha).trans (h.memOut w a ha)
  memWf w := k.memWf (h.memWf w)
  memIn w := k.memIn (h.memIn w)

theorem setCursor (g : SegIx) (s : State) (c : BitVec 12) : ParseFrame g s (s.setCursor c) :=
  ⟨rfl, fun _ _ _ => rfl, fun _ => rfl, fun _ _ _ => rfl, id, id⟩

theorem setUnderrun (g : SegIx) (s : State) (b : Bool) : ParseFrame g s (s.setStatus { s.status with underrun := b }) :=
  ⟨rfl, fun _ _ _ => rfl, fun _ => rfl, fun _ _ _ => rfl, id, id⟩

theorem getU (g : SegIx) (n w : Nat) (c : Parse) : ParseFrame g c.st (getU n w c).2.st := setCursor _ _ _

theorem setPort {p : PortIx} (hp : p = lowPort g ∨ p = highPort g) (c : Parse) (f : Port → Port)
    (hf : ∀ x, f x = { x with encoder := (f x).encoder, raw := (f x).raw, color := (f x).color }) :
    ParseFrame g c.st (c.setPort p f).st where
  eq := rfl
  other r h1 h2 := by
    rw [Parse.setPort_port, if_neg]
    rintro rfl; exact hp.elim h1 h2
  keep r := by
    rw [Parse.setPort_port]
    split_ifs with e
    · rw [e]; exact hf _
    · rfl
  memOut _ _ _ := rfl
  memWf w := w
  memIn w := w

theorem parseEncoder {p : PortIx} (hp : p = lowPort g ∨ p = highPort g) (n w : Nat) (c : Parse) :
    ParseFrame g c.st (parseEncoder n p w c).st := (getU g n w c).trans (setPort hp _ _ (fun _ => rfl))

theorem parseRaw {p : PortIx} (hp : p = lowPort g ∨ p = highPort g) (n w : Nat) (c : Parse) :
    ParseFrame g c.st (parseRaw n p w c).st := (getU g n w c).trans (setPort hp _ _ (fun _ => rfl))

theorem parseColors {p : PortIx} (hp : p = lowPort g ∨ p = highPort g) (n : Nat) (c : Parse) :
    ParseFrame g c.st (parseColors n p c).st :=
  ((((getU g n 10 c).trans (getU g n 10 _)).trans (getU g n 10 _)).trans (getU g n 10 _)).trans
    (setPort hp _ _ (fun _ => rfl))

theorem write {a : Nat} (s : State) (b : Byte) (h : 0x600 ≤ a) (h' : a < 0x800) :
    ParseFrame g s (s.setMem (s.mem.write a b)) where
  eq := rfl
  other _ _ _ := rfl
  keep _ := rfl
  memOut w x hx := Memory.read_write_of_ne _ _ (by omega)
  memWf w := Memory.write_wf w _ _
  memIn w := Memory.within_write w (by unfold arrayBase; omega) (by unfold arrayEnd; omega) _

theorem parseBytes (p : PortIx) (d : SlotIx) (n r : Nat) : ∀ (k : Nat) (c : Parse), k + r ≤ 16 →
    ParseFrame g c.st (parseBytes n p d k r c).st := by
  induction r with
  | zero => intro k c _; exact refl g _
  | succ r ih =>
    intro k c hk
    have ha := i2cInAddr_range p d (k := k) (by omega)
    have h1 := (getU g n 8 c).trans (write (g := g) _ ((Machine.getU n 8 c).1.setWidth 8) ha.1 ha.2)
    exact h1.trans (ih (k + 1) { (Machine.getU n 8 c).2 with st := _ } (by omega))

theorem parseSlots (p : PortIx) (n : Nat) (mask : Word) (ds : List SlotIx) : ∀ c : Parse,
    ParseFrame g c.st (parseSlots n p mask ds c).st := by
  induction ds with
  | nil => intro c; exact refl g _
  | cons d ds ih =>
    intro c
    have h1 : ParseFrame g c.st
        (if mask.getLsbD d.val then Machine.parseBytes n p d 0 ((c.st.port p).dev[d.val]).rlen.toNat c else c).st := by
      split_ifs
      · exact parseBytes p d n _ 0 c (by have := ((c.st.port p).dev[d.val]).rlen.isLt; omega)
      · exact refl g _
    exact h1.trans (ih _)

theorem sensorField {p : PortIx} (hp : p = lowPort g ∨ p = highPort g) (n : Nat) (c : Parse) :
    ParseFrame g c.st (sensorField n p c).st := by
  unfold Machine.sensorField
  cases c.st.portClass p
  · exact parseRaw hp n 1 c
  · exact parseRaw hp n 8 c
  · exact (parseRaw hp n 3 c).trans (parseColors hp n _)
  · exact ((getU g n _ c).trans (setPort hp _ _ (fun _ => rfl))).trans (parseSlots p n _ _ _)
  · exact parseRaw hp n 10 c

theorem parseReply (g : SegIx) (n : Nat) (s : State) : ParseFrame g s (parseReply n g s) := by
  refine ((setCursor g s 0).trans ?_).trans (setUnderrun g _ _)
  exact (((((getU g n 5 { st := s.setCursor 0, under := false }).trans (getU g n 5 _)).trans
    (parseEncoder (.inl rfl) n _ _)).trans (parseEncoder (.inr rfl) n _ _)).trans
    (sensorField (.inl rfl) n _)).trans (sensorField (.inr rfl) n _)

end ParseFrame

end Sys2Proof.Machine
end

