-- ==== Sys2Proof/Laws/Request.lean ====
section
/-! SUPPORT. The field lists of the request builds are the bit streams that 30_encoding.md R127 to R135 lay out; what
the clamp and the clearing of offsets do to the ports. -/

namespace Sys2Proof.Machine

/-! ## Fields as bits -/

theorem natBits_length (w v : Nat) : (natBits w v).length = w := by simp [natBits]

/-- A field of at most 32 bits holds the low bits of its value. -/
theorem fieldBits_ofNat {w v : Nat} (h : w ≤ 32) : fieldBits (w, BitVec.ofNat 32 v) = natBits w v := by
  unfold fieldBits natBits
  apply List.map_congr_left
  intro i hi
  have : i < 32 := by have := List.mem_range.1 hi; dsimp only at this; omega
  rw [BitVec.getLsbD_ofNat, decide_eq_true this, Bool.true_and]

theorem fieldBits_setWidth {n w : Nat} (x : BitVec n) (hn : n ≤ 32) :
    fieldBits (w, x.setWidth 32) = natBits w x.toNat := by
  unfold fieldBits natBits
  apply List.map_congr_left
  intro i _
  by_cases hi : i < 32
  · rw [BitVec.getLsbD_setWidth, decide_eq_true hi, Bool.true_and]; rfl
  · have h1 : x.toNat.testBit i = false :=
      Nat.testBit_lt_two_pow (lt_of_lt_of_le x.isLt (Nat.pow_le_pow_right (by omega) (by omega)))
    rw [BitVec.getLsbD_setWidth, decide_eq_false hi, Bool.false_and, h1]

theorem natBits_bool (b : Bool) : natBits 1 b.toNat = [b] := by cases b <;> rfl

theorem clamp_zero (x n : Nat) : clamp x 0 n = min x n := by unfold clamp; simp

theorem bitsNeeded_le {v k : Nat} (h : v < 2 ^ k) : bitsNeeded v ≤ k := by
  unfold bitsNeeded
  split_ifs with h0
  · omega
  · have := (Nat.log2_lt h0).2 h
    omega

/-! ## The update request -/

/-- Group (a) of a port (30_encoding.md R128). -/
theorem streamBits_encoderField (x : Port) (h : x.encOffset.toInt.natAbs ≤ 2 ^ 30 - 1) :
    streamBits (encoderField x) = encoderBits x.encOffset.toInt := by
  unfold encoderField encoderBits
  by_cases h0 : x.encOffset.toInt = 0
  · simp only [h0, if_true]; rfl
  · have hb : bitsNeeded x.encOffset.toInt.natAbs ≤ 30 := bitsNeeded_le (by omega)
    simp only [h0, if_false, smEncode]
    simp only [streamBits_cons, streamBits_nil, List.append_nil]
    rw [fieldBits_ofNat (by omega), fieldBits_ofNat (by omega)]
    rfl

/-- Group (b) of a port (30_encoding.md R131). -/
theorem streamBits_motorField (x : Port) : streamBits (motorField x) = motorBits x := by
  unfold motorField motorBits motorWord
  simp only [streamBits_cons, streamBits_nil, List.append_nil, clamp_zero]
  rw [fieldBits_ofNat (by omega)]
  have hm : min x.speed.toInt.natAbs Config.speedMax = min x.speed.toInt.natAbs 255 := rfl
  rw [hm]
  generalize min x.speed.toInt.natAbs 255 = m
  have key : ∀ (d e : Bool), natBits 10 (4 * m + 2 * d.toNat + e.toNat) = [e, d] ++ natBits 8 m := by
    intro d e
    generalize hV : 4 * m + 2 * d.toNat + e.toNat = V
    have h0 : V.testBit 0 = e := by
      rw [← hV, Nat.testBit_zero]
      cases d <;> cases e <;> simp <;> omega
    have h1 : V.testBit 1 = d := by
      rw [← hV, Nat.testBit_succ, Nat.testBit_zero]
      cases d <;> cases e <;> simp <;> omega
    have h2 : ∀ i, V.testBit (i + 2) = m.testBit i := by
      intro i
      rw [← hV, Nat.testBit_succ, Nat.testBit_succ]
      congr 1
      cases d <;> cases e <;> simp <;> omega
    have hl : natBits 10 V = [V.testBit 0, V.testBit 1, V.testBit (0 + 2), V.testBit (1 + 2), V.testBit (2 + 2),
        V.testBit (3 + 2), V.testBit (4 + 2), V.testBit (5 + 2), V.testBit (6 + 2), V.testBit (7 + 2)] := rfl
    rw [hl, h0, h1, h2, h2, h2, h2, h2, h2, h2, h2]
    rfl
  have hd : (if x.speed.toInt < 0 then 1 else 0) = (decide (x.speed.toInt < 0)).toNat := by
    by_cases h : x.speed.toInt < 0 <;> simp [h]
  rw [hd]
  exact key _ _

theorem streamBits_outFields (m : Memory) (p : PortIx) (d : SlotIx) (n : Nat) :
    streamBits (outFields m p d n) = outBits m p d n := by
  unfold streamBits outFields outBits
  rw [List.flatMap_map]
  refine congrArg (fun f => (List.range n).flatMap f) (funext fun k => ?_)
  exact fieldBits_setWidth _ (by omega)

theorem streamBits_lengthsAndBytes (m : Memory) (p : PortIx) (d : SlotIx) (v : Dev) :
    streamBits ([(4, v.wlen.setWidth 32), (4, v.rlen.setWidth 32)] ++ outFields m p d v.wlen.toNat) =
      lengthsAndBytes m p d v := by
  unfold lengthsAndBytes
  rw [streamBits_append, streamBits_outFields]
  simp only [streamBits_cons, streamBits_nil, List.append_nil]
  rw [fieldBits_setWidth _ (by omega), fieldBits_setWidth _ (by omega)]

/-- Group (c) of a port (30_encoding.md R132). -/
theorem streamBits_i2cSubRequest (s : State) (p : PortIx) : streamBits (i2cSubRequest s p) = subRequestBits s p := by
  unfold i2cSubRequest subRequestBits
  split_ifs with h
  · rw [streamBits_flatMap, slots_eq_slotsBelow]
    congr 1
    funext d
    unfold deviceRequest
    dsimp only
    split_ifs with hs
    · rfl
    · exact streamBits_lengthsAndBytes _ _ _ _
  · rfl

/-- The update request (30_encoding.md R127). -/
theorem streamBits_updateFields (g : SegIx) (s : State) (h : ∀ p, (s.port p).encOffset.toInt.natAbs ≤ 2 ^ 30 - 1) :
    streamBits (updateFields g s) = updateBits g s := by
  unfold updateFields updateBits segPorts
  simp only [List.flatMap_cons, List.flatMap_nil, List.append_nil, streamBits_append,
    streamBits_encoderField _ (h _), streamBits_motorField, streamBits_i2cSubRequest, List.append_assoc]

/-! ## The negotiation request -/

theorem clampPort_port (p r : PortIx) (s : State) : (clampPort p s).port r =
    if r = p ∧ s.portClass p = .i2c then { s.port p with devCount := clampDevCount (s.port p).devCount } else s.port r := by
  unfold clampPort
  by_cases h : s.portClass p = .i2c
  · rw [if_pos h, State.port_setPort]
    by_cases hr : r = p <;> simp [h, hr]
  · rw [if_neg h, if_neg (fun e => h e.2)]

theorem clampPort_eq (p : PortIx) (s : State) : clampPort p s = { s with ports := (clampPort p s).ports } := by
  unfold clampPort; split_ifs <;> rfl

theorem clampSegment_eq (g : SegIx) (s : State) : clampSegment g s = { s with ports := (clampSegment g s).ports } := by
  unfold clampSegment
  rw [clampPort_eq (highPort g), clampPort_eq (lowPort g)]

theorem clampPort_portClass (p r : PortIx) (s : State) : (clampPort p s).portClass r = s.portClass r := by
  refine State.portClass_congr ?_ ?_
  · rw [clampPort_port]; split_ifs with h
    · rw [h.1]
    · rfl
  · rw [clampPort_eq]; rfl

/-- The clamp of a segment (42_negotiation.md R192). -/
theorem clampSegment_port (g : SegIx) (s : State) (p : PortIx) : (clampSegment g s).port p =
    if (p = lowPort g ∨ p = highPort g) ∧ s.portClass p = .i2c then
      { s.port p with devCount := clampDevCount (s.port p).devCount }
    else s.port p := by
  have hne := lowPort_ne_highPort g
  unfold clampSegment
  rw [clampPort_port, clampPort_portClass, clampPort_port, clampPort_port]
  by_cases h1 : p = highPort g
  · subst h1
    by_cases hc : s.portClass (highPort g) = .i2c <;> simp [hc, hne.symm]
  · by_cases h2 : p = lowPort g
    · subst h2
      by_cases hc : s.portClass (lowPort g) = .i2c <;> simp [hc, hne]
    · simp [h1, h2]

theorem clampSegment_portClass (g : SegIx) (s : State) (p : PortIx) :
    (clampSegment g s).portClass p = s.portClass p := by
  unfold clampSegment
  rw [clampPort_portClass, clampPort_portClass]

theorem toNat_clampDevCount (n : Byte) : (clampDevCount n).toNat = min (max n.toNat 1) 8 := by
  unfold clampDevCount
  rw [BitVec.toNat_ofNat]
  exact Nat.mod_eq_of_lt (by omega)

theorem natBits_settings (mid same : Bool) : natBits 2 (mid.toNat + 2 * same.toNat) = [mid, same] := by
  cases mid <;> cases same <;> rfl

/-- A device entry (30_encoding.md R135). -/
theorem streamBits_deviceEntry (m : Memory) (p : PortIx) (x : Port) (d : SlotIx) :
    streamBits (deviceEntry m p x d) = entryBits m p d x.dev[d.val] := by
  unfold deviceEntry entryBits
  dsimp only
  rw [streamBits_append]
  congr 1
  · simp only [streamBits_cons, streamBits_nil, List.append_nil]
    rw [fieldBits_setWidth _ (by omega), fieldBits_ofNat (by omega)]
    unfold Dev.settings
    rw [natBits_settings, BitVec.toNat_ushiftRight, Nat.shiftRight_eq_div_pow]
  · split_ifs
    · exact streamBits_lengthsAndBytes _ _ _ _
    · rfl

/-- The I2C sub-block of a port whose DEVCOUNT is at least 1 (30_encoding.md R134). -/
theorem streamBits_i2cSubBlock (m : Memory) (p : PortIx) (x : Port) (h : 1 ≤ x.devCount.toNat) :
    streamBits (i2cSubBlock m p x) =
      natBits 8 x.i2cSpeed.toNat ++ natBits 3 (x.devCount.toNat - 1) ++
        (slotsBelow x.devCount.toNat).flatMap (fun d => entryBits m p d x.dev[d.val]) := by
  unfold i2cSubBlock
  rw [streamBits_append, streamBits_flatMap, slots_eq_slotsBelow]
  congr 1
  · simp only [streamBits_cons, streamBits_nil, List.append_nil]
    rw [fieldBits_setWidth _ (by omega), fieldBits_setWidth _ (by omega)]
    congr 2
    have : x.devCount.toNat < 256 := x.devCount.isLt
    rw [BitVec.toNat_sub]
    show (2 ^ 8 - 1 + x.devCount.toNat) % 2 ^ 8 = _
    omega
  · congr 1
    funext d
    exact streamBits_deviceEntry _ _ _ _

/-- The negotiation request after the clamp (30_encoding.md R133; 42_negotiation.md R192). -/
theorem streamBits_negotiationFields (g : SegIx) (s : State) :
    streamBits (negotiationFields g (clampSegment g s)) = negotiationBits g s := by
  have key : ∀ p, (p = lowPort g ∨ p = highPort g) →
      streamBits (if (clampSegment g s).portClass p = .i2c then
        i2cSubBlock (clampSegment g s).mem p ((clampSegment g s).port p) else []) =
      subBlockBits s p (clampedCount s p) := by
    intro p hp
    rw [clampSegment_portClass]
    unfold subBlockBits
    split_ifs with h
    · have hm : (clampSegment g s).mem = s.mem := by rw [clampSegment_eq]
      rw [hm, clampSegment_port, if_pos ⟨hp, h⟩, streamBits_i2cSubBlock _ _ _ (by
        show 1 ≤ (clampDevCount (s.port p).devCount).toNat
        rw [toNat_clampDevCount]; omega)]
      dsimp only
      rw [toNat_clampDevCount]; rfl
    · rfl
  unfold negotiationFields negotiationBits segPorts
  simp only [List.flatMap_cons, List.flatMap_nil, List.append_nil, streamBits_append]
  rw [key _ (.inl rfl), key _ (.inr rfl)]

/-! ## Clearing the offsets -/

theorem clearOffset_port (p r : PortIx) (s : State) : (clearOffset p s).port r =
    if r = p then { s.port p with encOffset := 0 } else s.port r := State.port_setPort _ _ _ _

/-- The offsets of the segment's two ports are cleared (43_update.md R222). -/
theorem clearOffsets_port (g : SegIx) (s : State) (p : PortIx) : (clearOffsets g s).port p =
    if p = lowPort g ∨ p = highPort g then { s.port p with encOffset := 0 } else s.port p := by
  have hne := lowPort_ne_highPort g
  unfold clearOffsets
  rw [clearOffset_port, clearOffset_port, clearOffset_port]
  by_cases h1 : p = highPort g
  · subst h1; simp [hne.symm]
  · by_cases h2 : p = lowPort g
    · subst h2; simp [hne]
    · simp [h1, h2]

theorem clearOffsets_eq (g : SegIx) (s : State) : clearOffsets g s = { s with ports := (clearOffsets g s).ports } := rfl

/-! ## What the request bit streams depend on -/

/-- Two memories agree on I2C_OUT. -/
def sameOut (m m' : Memory) : Prop := ∀ a, 0x400 ≤ a → a < 0x600 → m'.read a = m.read a

theorem outBits_congr {m m' : Memory} (h : sameOut m m') (p : PortIx) (d : SlotIx) {n : Nat} (hn : n ≤ 15) :
    outBits m' p d n = outBits m p d n := by
  refine List.flatMap_congr fun k hk => ?_
  have hk := List.mem_range.1 hk
  have := p.isLt
  have := d.isLt
  rw [h _ (by omega) (by omega)]

theorem lengthsAndBytes_congr {m m' : Memory} (h : sameOut m m') (p : PortIx) (d : SlotIx) (v : Dev) :
    lengthsAndBytes m' p d v = lengthsAndBytes m p d v := by
  unfold lengthsAndBytes
  rw [outBits_congr h _ _ (by have := v.wlen.isLt; omega)]

theorem subBlockBits_congr {s t : State} {p : PortIx} (hp : t.port p = s.port p) (hc : t.sensorCode = s.sensorCode)
    (h : sameOut s.mem t.mem) (n : Nat) : subBlockBits t p n = subBlockBits s p n := by
  have hcl : t.portClass p = s.portClass p := by unfold State.portClass; rw [hp, hc]
  unfold subBlockBits
  rw [hcl, hp]
  have e : ∀ d v, entryBits t.mem p d v = entryBits s.mem p d v := fun d v => by
    unfold entryBits
    rw [lengthsAndBytes_congr h]
  simp only [e]

/-- The negotiation request of a segment depends on its two ports, on SENSOR_CODE and on I2C_OUT. -/
theorem negotiationBits_congr {s t : State} {g : SegIx} (hl : t.port (lowPort g) = s.port (lowPort g))
    (hh : t.port (highPort g) = s.port (highPort g)) (hc : t.sensorCode = s.sensorCode) (h : sameOut s.mem t.mem) :
    negotiationBits g t = negotiationBits g s := by
  unfold negotiationBits clampedCount
  rw [subBlockBits_congr hl hc h, subBlockBits_congr hh hc h, hl, hh]

theorem subRequestBits_congr {s t : State} {p : PortIx} (hp : t.port p = s.port p) (hc : t.sensorCode = s.sensorCode)
    (h : sameOut s.mem t.mem) : subRequestBits t p = subRequestBits s p := by
  have hcl : t.portClass p = s.portClass p := by unfold State.portClass; rw [hp, hc]
  unfold subRequestBits
  rw [hcl, hp]
  simp only [lengthsAndBytes_congr h]

/-- The update request of a segment depends on its two ports, on SENSOR_CODE and on I2C_OUT. -/
theorem updateBits_congr {s t : State} {g : SegIx} (hl : t.port (lowPort g) = s.port (lowPort g))
    (hh : t.port (highPort g) = s.port (highPort g)) (hc : t.sensorCode = s.sensorCode) (h : sameOut s.mem t.mem) :
    updateBits g t = updateBits g s := by
  unfold updateBits
  rw [subRequestBits_congr hl hc h, subRequestBits_congr hh hc h, hl, hh]

end Sys2Proof.Machine
end

