-- ==== Sys2Proof/Laws/Exchange.lean ====
section
/-! SUPPORT. What the sequencer and the exchange do at each point (41_frame.md R176), said once; what one transport
request can change; and what a step of the engine is. -/

namespace Sys2Proof.Machine

open Host

/-! ## Outcomes -/

@[simp] theorem next_eq_next_iff {s t : State} :
    (Host.Outcome.next s : Host.Outcome State Fault Refusal) = .next t ↔ s = t := by
  constructor
  · intro h; cases h; rfl
  · rintro rfl; rfl

/-- The first step of a run of any machine. -/
theorem run_succ_of_next (M : Host.Core) {k : Nat} {s t : M.State} (h : M.step s = .next t) :
    M.run (k + 1) s = M.run k t := by
  rw [Host.Core.run, h]

theorem run_succ_of_fault (M : Host.Core) {k : Nat} {s : M.State} {r : M.Fault} (h : M.step s = .fault r) :
    M.run (k + 1) s = .fault r := by
  rw [Host.Core.run, h]

theorem run_succ_of_refused (M : Host.Core) {k : Nat} {s : M.State} {r : M.Refusal} (h : M.step s = .refused r) :
    M.run (k + 1) s = .refused r := by
  rw [Host.Core.run, h]

/-- One step of a run. -/
theorem run_succ_next {k : Nat} {s t : State} (h : step s = .next t) : core.run (k + 1) s = core.run k t :=
  run_succ_of_next core h

theorem run_zero (s : State) : core.run 0 s = .next s := rfl

/-- Runs compose. -/
theorem run_add {j k : Nat} {s t : State} (h : core.run j s = .next t) : core.run (j + k) s = core.run k t := by
  induction j generalizing s with
  | zero =>
    rw [run_zero] at h
    have : s = t := next_eq_next_iff.1 h
    subst this; rw [Nat.zero_add]
  | succ j ih =>
    have e : j + 1 + k = (j + k) + 1 := by omega
    cases hs : step s with
    | next u =>
      rw [run_succ_next hs] at h
      rw [e, run_succ_next hs]
      exact ih h
    | fault r =>
      have : core.run (j + 1) s = .fault r := run_succ_of_fault core hs
      rw [this] at h; cases h
    | refused r =>
      have : core.run (j + 1) s = .refused r := run_succ_of_refused core hs
      rw [this] at h; cases h

/-! ## Completion -/

theorem complete_eq_doneState (k : ErrKind) (s : State) : complete k s = doneState k s := rfl

/-! ## The sequencer at each point -/

section
variable (onStart : State → State) (onEnter : SegIx → State → State) (onBuild : State → State)
  (onRet : Reply → State → State) {s : State}

theorem atPoint_idle (h : s.fsm = .idle) : atPoint onStart onEnter onBuild onRet s = s := by
  simp only [atPoint, h]

theorem atPoint_start (h : s.fsm = .run) (hp : s.pt = .start) : atPoint onStart onEnter onBuild onRet s = onStart s := by
  simp only [atPoint, h, hp]

theorem atPoint_enter (h : s.fsm = .run) {g : SegIx} (hp : s.pt = .enter g) :
    atPoint onStart onEnter onBuild onRet s = onEnter g s := by
  simp only [atPoint, h, hp]

theorem atPoint_build (h : s.fsm = .run) (hp : s.pt = .build) : atPoint onStart onEnter onBuild onRet s = onBuild s := by
  simp only [atPoint, h, hp]

theorem atPoint_ret (h : s.fsm = .run) {r : Reply} (hp : s.pt = .ret r) :
    atPoint onStart onEnter onBuild onRet s = onRet r s := by
  simp only [atPoint, h, hp]

theorem atPoint_finish (h : s.fsm = .run) {k : ErrKind} (hp : s.pt = .finish k) :
    atPoint onStart onEnter onBuild onRet s = complete k s := by
  simp only [atPoint, h, hp]

/-- At a transport request every command does the request of the procedure in progress. -/
theorem atPoint_request (h : atRequest s = true) : atPoint onStart onEnter onBuild onRet s = linkStep s.xfer s := by
  unfold atRequest at h
  unfold atPoint
  cases hf : s.fsm <;> simp only [hf] at h ⊢ <;> try exact absurd h (by decide)
  cases hp : s.pt <;> simp only [hp] at h ⊢ <;> exact absurd h (by decide)

/-- Everything a command can do in one step. -/
theorem atPoint_cases (P : State → Prop) (hidle : s.fsm = .idle → P s)
    (hstart : s.fsm = .run → s.pt = .start → P (onStart s))
    (henter : ∀ g, s.fsm = .run → s.pt = .enter g → P (onEnter g s))
    (hbuild : s.fsm = .run → s.pt = .build → P (onBuild s))
    (hret : ∀ r, s.fsm = .run → s.pt = .ret r → P (onRet r s))
    (hfinish : ∀ k, s.fsm = .run → s.pt = .finish k → P (complete k s))
    (hlink : atRequest s = true → P (linkStep s.xfer s)) : P (atPoint onStart onEnter onBuild onRet s) := by
  cases hr : atRequest s with
  | true => rw [atPoint_request _ _ _ _ hr]; exact hlink hr
  | false =>
    cases hf : s.fsm <;> try (simp [atRequest, hf] at hr; done)
    · rw [atPoint_idle _ _ _ _ hf]; exact hidle hf
    · cases hp : s.pt <;> try (simp [atRequest, hf, hp] at hr; done)
      · rw [atPoint_start _ _ _ _ hf hp]; exact hstart hf hp
      · rw [atPoint_enter _ _ _ _ hf hp]; exact henter _ hf hp
      · rw [atPoint_build _ _ _ _ hf hp]; exact hbuild hf hp
      · rw [atPoint_ret _ _ _ _ hf hp]; exact hret _ hf hp
      · rw [atPoint_finish _ _ _ _ hf hp]; exact hfinish _ hf hp

end

/-! ## Transport requests -/

/-- What a transport request leaves of the surroundings. -/
theorem askIsOpen_keeps (e : Env) : e.askIsOpen.2.params = e.params ∧
    e.askIsOpen.2.turns = e.turns ∧ e.askIsOpen.2.unpolled = e.unpolled := by
  unfold Env.askIsOpen; cases e.isOpenAnswers <;> exact ⟨rfl, rfl, rfl⟩

theorem askOpen_keeps (e : Env) : e.askOpen.2.params = e.params ∧
    e.askOpen.2.turns = e.turns ∧ e.askOpen.2.unpolled = e.unpolled := by
  unfold Env.askOpen; cases e.openAnswers <;> exact ⟨rfl, rfl, rfl⟩

theorem askWrite_keeps (e : Env) (f : List Byte) :
    (e.askWrite f).2.params = e.params ∧ (e.askWrite f).2.turns = e.turns ∧
      (e.askWrite f).2.unpolled = e.unpolled := by
  unfold Env.askWrite; cases e.writeAnswers <;> exact ⟨rfl, rfl, rfl⟩

theorem askRead_keeps (e : Env) : e.askRead.2.params = e.params ∧
    e.askRead.2.turns = e.turns ∧ e.askRead.2.unpolled = e.unpolled := by
  unfold Env.askRead; cases e.readAnswers <;> exact ⟨rfl, rfl, rfl⟩

theorem askIsOpen_cons {e : Env} {a : Bool} {rest : List Bool} (h : e.isOpenAnswers = a :: rest) :
    e.askIsOpen = (a, { e with isOpenAnswers := rest, history := .isOpen a :: e.history }) := by
  unfold Env.askIsOpen; rw [h]; rfl

theorem askOpen_cons {e : Env} {a : Bool} {rest : List Bool} (h : e.openAnswers = a :: rest) :
    e.askOpen = (a, { e with openAnswers := rest, history := .opened a :: e.history }) := by
  unfold Env.askOpen; rw [h]; rfl

theorem askWrite_cons {e : Env} {f : List Byte} {a : Bool} {rest : List Bool} (h : e.writeAnswers = a :: rest) :
    e.askWrite f = (a, { e with writeAnswers := rest, history := .wrote f a :: e.history }) := by
  unfold Env.askWrite; rw [h]; rfl

theorem askRead_cons {e : Env} {a : ReadAnswer} {rest : List ReadAnswer} (h : e.readAnswers = a :: rest) :
    e.askRead = (a, { e with readAnswers := rest, history := .readByte a :: e.history }) := by
  unfold Env.askRead; rw [h]; rfl

/-! ## The rows of the exchange (41_frame.md R176) -/

section
variable {x : Xfer} {s : State}

theorem linkStep_isOpen_true (h : s.fsm = .run) (hp : s.pt = .isOpen) (ha : s.env.askIsOpen.1 = true) :
    linkStep x s = linkOpen x (s.setEnv s.env.askIsOpen.2) := by
  simp only [linkStep, h, hp, ha, if_true]

theorem linkStep_isOpen_false (h : s.fsm = .run) (hp : s.pt = .isOpen) (ha : s.env.askIsOpen.1 = false) :
    linkStep x s = (s.setEnv s.env.askIsOpen.2).goto .opening .isOpen := by
  simp only [linkStep, h, hp, ha, Bool.false_eq_true, if_false]

theorem linkStep_opening_true (h : s.fsm = .opening) (ha : s.env.askOpen.1 = true) :
    linkStep x s = linkOpen x (s.setEnv s.env.askOpen.2) := by
  simp only [linkStep, h, ha, if_true]

theorem linkStep_opening_false (h : s.fsm = .opening) (ha : s.env.askOpen.1 = false) :
    linkStep x s = returnReply .comm (s.setEnv s.env.askOpen.2) := by
  simp only [linkStep, h, ha, Bool.false_eq_true, if_false]

theorem linkOpen_transmit (h : x.kind = .transmit) : linkOpen x s = s.goto .send .isOpen := by
  simp only [linkOpen, h]

theorem linkOpen_receiving (h : x.kind ≠ .transmit) : linkOpen x s = s.goto .run .setTimeout := by
  cases hk : x.kind
  · exact absurd hk h
  · simp only [linkOpen, hk]
  · simp only [linkOpen, hk]

theorem linkStep_setTimeout_receive (h : s.fsm = .run) (hp : s.pt = .setTimeout) (hk : x.kind = .receive) :
    linkStep x s = beginReceive (s.setEnv (s.env.note (.setTimeout x.tms))) := by
  simp only [linkStep, h, hp, hk]

theorem linkStep_setTimeout_send (h : s.fsm = .run) (hp : s.pt = .setTimeout) (hk : x.kind ≠ .receive) :
    linkStep x s = (s.setEnv (s.env.note (.setTimeout x.tms))).goto .send .setTimeout := by
  cases hk' : x.kind
  · simp only [linkStep, h, hp, hk']
  · simp only [linkStep, h, hp, hk']
  · exact absurd hk' hk

/-- The frame of the procedure in progress. -/
def frameOf (x : Xfer) (s : State) : List Byte :=
  frameEncode s.env.params.txChecksumIncludesLength x.addr x.payload

theorem linkStep_send_fail (h : s.fsm = .send) (ha : (s.env.askWrite (frameOf x s)).1 = false) :
    linkStep x s = returnReply .comm (s.setEnv (s.env.askWrite (frameOf x s)).2) := by
  unfold frameOf at *
  simp only [linkStep, h, ha, Bool.false_eq_true, if_false]

theorem linkStep_send_transmit (h : s.fsm = .send) (hk : x.kind = .transmit)
    (ha : (s.env.askWrite (frameOf x s)).1 = true) :
    linkStep x s = returnReply .ok (s.setEnv (s.env.askWrite (frameOf x s)).2) := by
  unfold frameOf at *
  simp only [linkStep, h, ha, if_true, hk]

theorem linkStep_send_receive (h : s.fsm = .send) (hk : x.kind ≠ .transmit)
    (ha : (s.env.askWrite (frameOf x s)).1 = true) :
    linkStep x s = beginReceive (s.setEnv (s.env.askWrite (frameOf x s)).2) := by
  unfold frameOf at *
  cases hk' : x.kind
  · exact absurd hk' hk
  · simp only [linkStep, h, ha, if_true, hk']
  · simp only [linkStep, h, ha, if_true, hk']

theorem linkStep_read_fail (h : s.fsm = .rxChk ∨ s.fsm = .rxLen ∨ s.fsm = .rxPay)
    (ha : s.env.askRead.1 = .timeout ∨ s.env.askRead.1 = .fail) :
    linkStep x s = returnReply .comm (s.setEnv s.env.askRead.2) := by
  rcases h with h | h | h <;> rcases ha with ha | ha <;> simp only [linkStep, h, ha]

theorem linkStep_rxChk (h : s.fsm = .rxChk) {c : Byte} (ha : s.env.askRead.1 = .byte c) :
    linkStep x s = { s.setEnv s.env.askRead.2 with rxChk := c, fsm := .rxLen } := by
  simp only [linkStep, h, ha]

theorem linkStep_rxLen (h : s.fsm = .rxLen) {n : Byte} (ha : s.env.askRead.1 = .byte n) :
    linkStep x s = takeLength n (s.setEnv s.env.askRead.2) := by
  simp only [linkStep, h, ha]

theorem linkStep_rxPay (h : s.fsm = .rxPay) {b : Byte} (ha : s.env.askRead.1 = .byte b) :
    linkStep x s = takePayload b (s.setEnv s.env.askRead.2) := by
  simp only [linkStep, h, ha]

end

theorem checkReply_eq (s : State) :
    checkReply s = returnReply (if rxChecksum s.rxLen (s.mem.readBytes rxBase s.rxLen.toNat) = s.rxChk then .ok else .checksum) s := by
  unfold checkReply; split_ifs <;> rfl

theorem takeLength_zero (s : State) : takeLength 0 s =
    { s with
      rxLen := 0, status := { s.status with rxlen := 0 }, fsm := .run,
      pt := .ret (if s.rxChk = 0 then .ok else .checksum) } := by
  unfold takeLength
  rw [if_pos rfl, checkReply_eq]
  have e : rxChecksum 0 (s.mem.readBytes rxBase (0 : Byte).toNat) = s.rxChk ↔ s.rxChk = 0 := by rw [eq_comm]; rfl
  by_cases h : s.rxChk = 0
  · rw [if_pos h, if_pos (e.2 h)]; rfl
  · rw [if_neg h, if_neg (fun k => h (e.1 k))]; rfl

theorem takeLength_pos {n : Byte} (h : n ≠ 0) (s : State) : takeLength n s =
    { s with rxLen := n, status := { s.status with rxlen := n }, fsm := .rxPay, pt := .setTimeout } := by
  unfold takeLength
  rw [if_neg h]; rfl

theorem takePayload_more {s : State} (b : Byte) (h : s.rxIdx.toNat + 1 < s.rxLen.toNat) : takePayload b s =
    { s with mem := s.mem.write (rxBase + s.rxIdx.toNat) b, rxIdx := s.rxIdx + 1 } := by
  unfold takePayload
  rw [if_pos h]

theorem takePayload_last {s : State} (b : Byte) (h : s.rxLen.toNat ≤ s.rxIdx.toNat + 1) : takePayload b s =
    { s with
      mem := s.mem.write (rxBase + s.rxIdx.toNat) b, rxIdx := s.rxIdx + 1, fsm := .run,
      pt := .ret (if rxChecksum s.rxLen ((s.mem.write (rxBase + s.rxIdx.toNat) b).readBytes rxBase s.rxLen.toNat) =
        s.rxChk then .ok else .checksum) } := by
  unfold takePayload
  rw [if_neg (by omega), checkReply_eq]; rfl

/-! ## What one transport request leaves unchanged -/

/-- `t` differs from `s` only in what an exchange writes: RX_BUF, RXLEN, the receive registers, `fsm`, the program
point and the record with its answers. -/
structure LinkFrame (s t : State) : Prop where
  cmd : t.cmd = s.cmd
  arg0 : t.arg0 = s.arg0
  result : t.result = s.result
  cursor : t.cursor = s.cursor
  ports : t.ports = s.ports
  seg : t.seg = s.seg
  attempt : t.attempt = s.attempt
  xfer : t.xfer = s.xfer
  auxErr : t.auxErr = s.auxErr
  auxSeg : t.auxSeg = s.auxSeg
  status : ∃ n, t.status = { s.status with rxlen := n }
  params : t.env.params = s.env.params
  turns : t.env.turns = s.env.turns
  unpolled : t.env.unpolled = s.env.unpolled
  memWf : s.mem.wf → t.mem.wf
  memOut : s.mem.wf → ∀ a, a < 0x900 ∨ 0xA00 ≤ a → t.mem.read a = s.mem.read a
  memIn : s.mem.within arrayBase arrayEnd → t.mem.within arrayBase arrayEnd

theorem LinkFrame.of_env {s : State} {e : Env} (hp : e.params = s.env.params) (ht : e.turns = s.env.turns)
    (hu : e.unpolled = s.env.unpolled) : LinkFrame s (s.setEnv e) where
  cmd := rfl
  arg0 := rfl
  result := rfl
  cursor := rfl
  ports := rfl
  seg := rfl
  attempt := rfl
  xfer := rfl
  auxErr := rfl
  auxSeg := rfl
  status := ⟨s.status.rxlen, rfl⟩
  params := hp
  turns := ht
  unpolled := hu
  memWf h := h
  memOut _ _ _ := rfl
  memIn h := h

theorem LinkFrame.trans {s t u : State} (h : LinkFrame s t) (k : LinkFrame t u) : LinkFrame s u where
  cmd := k.cmd.trans h.cmd
  arg0 := k.arg0.trans h.arg0
  result := k.result.trans h.result
  cursor := k.cursor.trans h.cursor
  ports := k.ports.trans h.ports
  seg := k.seg.trans h.seg
  attempt := k.attempt.trans h.attempt
  xfer := k.xfer.trans h.xfer
  auxErr := k.auxErr.trans h.auxErr
  auxSeg := k.auxSeg.trans h.auxSeg
  status := by
    obtain ⟨n, hn⟩ := h.status
    obtain ⟨m, hm⟩ := k.status
    exact ⟨m, by rw [hm, hn]⟩
  params := k.params.trans h.params
  turns := k.turns.trans h.turns
  unpolled := k.unpolled.trans h.unpolled
  memWf w := k.memWf (h.memWf w)
  memOut w a ha := (k.memOut (h.memWf w) a ha).trans (h.memOut w a ha)
  memIn w := k.memIn (h.memIn w)

theorem LinkFrame.goto (s : State) (f : Fsm) (p : Point) : LinkFrame s (s.goto f p) where
  cmd := rfl
  arg0 := rfl
  result := rfl
  cursor := rfl
  ports := rfl
  seg := rfl
  attempt := rfl
  xfer := rfl
  auxErr := rfl
  auxSeg := rfl
  status := ⟨s.status.rxlen, rfl⟩
  params := rfl
  turns := rfl
  unpolled := rfl
  memWf h := h
  memOut _ _ _ := rfl
  memIn h := h

theorem LinkFrame.returnReply (r : Reply) (s : State) : LinkFrame s (returnReply r s) := LinkFrame.goto _ _ _

theorem LinkFrame.linkOpen (x : Xfer) (s : State) : LinkFrame s (linkOpen x s) := by
  unfold Machine.linkOpen; cases x.kind <;> exact LinkFrame.goto _ _ _

theorem LinkFrame.beginReceive (s : State) : LinkFrame s (beginReceive s) where
  cmd := rfl
  arg0 := rfl
  result := rfl
  cursor := rfl
  ports := rfl
  seg := rfl
  attempt := rfl
  xfer := rfl
  auxErr := rfl
  auxSeg := rfl
  status := ⟨s.status.rxlen, rfl⟩
  params := rfl
  turns := rfl
  unpolled := rfl
  memWf h := Memory.clear_wf h _ _
  memOut _ a ha := by
    rw [beginReceive_mem, Memory.read_clear, if_neg]
    show ¬ (0x900 ≤ a ∧ a < 0x900 + 256)
    omega
  memIn h := Memory.within_clear h _ _

theorem LinkFrame.checkReply (s : State) : LinkFrame s (checkReply s) := by
  rw [checkReply_eq]; exact LinkFrame.returnReply _ _

theorem LinkFrame.takeLength (n : Byte) (s : State) : LinkFrame s (takeLength n s) := by
  have h1 : LinkFrame s { s with rxLen := n, status := { s.status with rxlen := n } } :=
    { cmd := rfl, arg0 := rfl, result := rfl, cursor := rfl, ports := rfl, seg := rfl, attempt := rfl, xfer := rfl,
      auxErr := rfl, auxSeg := rfl, status := ⟨n, rfl⟩, params := rfl, turns := rfl, unpolled := rfl, memWf := id,
      memOut := fun _ _ _ => rfl, memIn := id }
  unfold Machine.takeLength
  split_ifs
  · exact h1.trans (LinkFrame.checkReply _)
  · exact h1.trans (LinkFrame.goto _ _ _)

theorem LinkFrame.takePayload (b : Byte) (s : State) : LinkFrame s (takePayload b s) := by
  have hi : s.rxIdx.toNat < 256 := s.rxIdx.isLt
  have h1 : LinkFrame s { s with mem := s.mem.write (rxBase + s.rxIdx.toNat) b, rxIdx := s.rxIdx + 1 } :=
    { cmd := rfl, arg0 := rfl, result := rfl, cursor := rfl, ports := rfl, seg := rfl, attempt := rfl, xfer := rfl,
      auxErr := rfl, auxSeg := rfl, status := ⟨s.status.rxlen, rfl⟩, params := rfl, turns := rfl, unpolled := rfl,
      memWf := fun h => Memory.write_wf h _ _,
      memOut := fun h a ha => by
        show Memory.read (Memory.write _ _ _) a = _
        rw [Memory.read_write h, if_neg]
        unfold rxBase; omega
      memIn := fun h => Memory.within_write h (by unfold arrayBase rxBase; omega)
        (by unfold arrayEnd rxBase; omega) _ }
  unfold Machine.takePayload
  split_ifs
  · exact h1
  · exact h1.trans (LinkFrame.checkReply _)

/-- The frame of one transport request. -/
theorem linkStep_frame (x : Xfer) (s : State) : LinkFrame s (linkStep x s) := by
  have h0 : LinkFrame s s := LinkFrame.of_env (e := s.env) rfl rfl rfl
  have hO : LinkFrame s (s.setEnv s.env.askIsOpen.2) :=
    LinkFrame.of_env (askIsOpen_keeps _).1 (askIsOpen_keeps _).2.1 (askIsOpen_keeps _).2.2
  have hP : LinkFrame s (s.setEnv s.env.askOpen.2) :=
    LinkFrame.of_env (askOpen_keeps _).1 (askOpen_keeps _).2.1 (askOpen_keeps _).2.2
  have hW : ∀ f, LinkFrame s (s.setEnv (s.env.askWrite f).2) := fun f =>
    LinkFrame.of_env (askWrite_keeps _ f).1 (askWrite_keeps _ f).2.1 (askWrite_keeps _ f).2.2
  have hR : LinkFrame s (s.setEnv s.env.askRead.2) :=
    LinkFrame.of_env (askRead_keeps _).1 (askRead_keeps _).2.1 (askRead_keeps _).2.2
  have hT : LinkFrame s (s.setEnv (s.env.note (.setTimeout x.tms))) := LinkFrame.of_env rfl rfl rfl
  unfold linkStep
  cases s.fsm with
  | idle => exact h0
  | run =>
    cases s.pt with
    | isOpen =>
      dsimp only
      split_ifs
      · exact hO.trans (LinkFrame.linkOpen _ _)
      · exact hO.trans (LinkFrame.goto _ _ _)
    | setTimeout =>
      dsimp only
      cases x.kind
      · exact hT.trans (LinkFrame.goto _ _ _)
      · exact hT.trans (LinkFrame.goto _ _ _)
      · exact hT.trans (LinkFrame.beginReceive _)
    | start => exact h0
    | enter _ => exact h0
    | build => exact h0
    | ret _ => exact h0
    | finish _ => exact h0
  | opening =>
    dsimp only
    split_ifs
    · exact hP.trans (LinkFrame.linkOpen _ _)
    · exact hP.trans (LinkFrame.returnReply _ _)
  | send =>
    dsimp only
    split_ifs
    · cases x.kind
      · exact (hW _).trans (LinkFrame.returnReply _ _)
      · exact (hW _).trans (LinkFrame.beginReceive _)
      · exact (hW _).trans (LinkFrame.beginReceive _)
    · exact (hW _).trans (LinkFrame.returnReply _ _)
  | rxChk =>
    dsimp only
    cases s.env.askRead.1 with
    | byte c =>
      refine hR.trans ?_
      exact { cmd := rfl, arg0 := rfl, result := rfl, cursor := rfl, ports := rfl, seg := rfl, attempt := rfl,
              xfer := rfl, auxErr := rfl, auxSeg := rfl, status := ⟨s.status.rxlen, rfl⟩, params := rfl,
              turns := rfl, unpolled := rfl, memWf := id, memOut := fun _ _ _ => rfl, memIn := id }
    | timeout => exact hR.trans (LinkFrame.returnReply _ _)
    | fail => exact hR.trans (LinkFrame.returnReply _ _)
  | rxLen =>
    dsimp only
    cases s.env.askRead.1 with
    | byte c => exact hR.trans (LinkFrame.takeLength _ _)
    | timeout => exact hR.trans (LinkFrame.returnReply _ _)
    | fail => exact hR.trans (LinkFrame.returnReply _ _)
  | rxPay =>
    dsimp only
    cases s.env.askRead.1 with
    | byte c => exact hR.trans (LinkFrame.takePayload _ _)
    | timeout => exact hR.trans (LinkFrame.returnReply _ _)
    | fail => exact hR.trans (LinkFrame.returnReply _ _)

/-! ## Instructions at a transport request -/

/-- A wire message at a transport request of its exchange does that request. -/
theorem messageStep_request {s : State} {p : List Byte} (h : atRequest s = true) :
    messageStep p s = linkStep { s.xfer with kind := .exchange, payload := p } s := by
  unfold atRequest at h
  unfold messageStep
  cases hf : s.fsm <;> simp only [hf] at h ⊢ <;> try exact absurd h (by decide)
  cases hp : s.pt <;> simp only [hp] at h ⊢ <;> exact absurd h (by decide)

/-- A command that uses the transport does the request of the procedure in progress. -/
theorem exec_command_request {i : Instr} {s : State} (hk : commandKind i ≠ .single) (h : atRequest s = true) :
    exec i s = .next (linkStep s.xfer s) := by
  cases i <;> first
    | exact absurd rfl hk
    | exact congrArg Host.Outcome.next (atPoint_request _ _ _ _ h)

/-- The meaning of a message, by its payload. -/
theorem exec_message {i : Instr} {p : List Byte} (h : encode i = .message p) (s : State) :
    exec i s = .next (messageStep p s) := by
  cases i <;> first
    | (simp only [encode, Code.message.injEq] at h; subst h; rfl)
    | (simp only [encode, reduceCtorEq] at h)

/-- At a request of its exchange the message in flight does that request. -/
theorem exec_message_request {s : State} {m : Instr} (hk : s.xfer.kind = .exchange) (hr : atRequest s = true)
    (hd : encode m = .message s.xfer.payload) : exec m s = .next (linkStep s.xfer s) := by
  have e : { s.xfer with kind := .exchange, payload := s.xfer.payload } = s.xfer := by
    generalize s.xfer = x at *
    cases x; simp only at hk; subst hk; rfl
  rw [exec_message hd, messageStep_request hr, e]

/-! ## Steps of the engine -/

theorem fetch_command {s : State} {i : Instr} (h : atRequest s = false ∨ s.xfer.kind ≠ .exchange)
    (hd : decode (.command s.cmd) = .ok i) : fetch s = some i := by
  rcases h with h | h <;> simp [fetch, messageInFlight, h, hd, Except.toOption]

theorem fetch_message {s : State} {i : Instr} (h : atRequest s = true) (hk : s.xfer.kind = .exchange)
    (hd : decode (.message s.xfer.payload) = .ok i) : fetch s = some i := by
  simp [fetch, messageInFlight, h, hk, hd, Except.toOption]

theorem step_engine {s : State} (ht : s.env.turns = []) (hb : s.status.busy = true) {i : Instr}
    (hf : fetch s = some i) : step s = exec i s := by
  have e : step s = engineStep s := by simp only [step, ht]
  rw [e]; simp only [engineStep, hb, hf, if_true]

/-- Away from the requests of an exchange a step runs the command in CMD. -/
theorem step_command {s : State} (ht : s.env.turns = []) (hb : s.status.busy = true) {i : Instr}
    (h : atRequest s = false ∨ s.xfer.kind ≠ .exchange) (hd : decode (.command s.cmd) = .ok i) : step s = exec i s :=
  step_engine ht hb (fetch_command h hd)

/-- At a transport request of a command a step does the request, whichever of the command and its message the
engine fetches. -/
theorem step_request {s : State} (ht : s.env.turns = []) (hb : s.status.busy = true) {i : Instr}
    (hr : atRequest s = true) (hd : decode (.command s.cmd) = .ok i) (hi : commandKind i ≠ .single)
    (hm : ∀ m, decode (.message s.xfer.payload) = .ok m → encode m = .message s.xfer.payload) :
    step s = .next (linkStep s.xfer s) := by
  by_cases hk : s.xfer.kind = .exchange
  · cases he : decode (.message s.xfer.payload) with
    | ok m => rw [step_engine ht hb (fetch_message hr hk he), exec_message_request hk hr (hm m he)]
    | error e =>
      have : fetch s = some i := by simp [fetch, messageInFlight, hr, hk, he, hd, Except.toOption]
      rw [step_engine ht hb this, exec_command_request hi hr]
  · rw [step_command ht hb (.inr hk) hd, exec_command_request hi hr]

/-! ## Checksums -/

theorem sum_readBytes (m : Memory) (a n : Nat) : ((m.readBytes a n).map BitVec.toNat).sum =
    ((List.range n).map (fun k => (m.read (a + k)).toNat)).sum := by
  unfold Memory.readBytes; rw [List.map_map]; rfl

theorem rxChecksum_eq_iff (n : Byte) (p : List Byte) (c : Byte) :
    rxChecksum n p = c ↔ (n.toNat + (p.map BitVec.toNat).sum) % 256 = c.toNat := by
  unfold rxChecksum byteSum
  constructor
  · rintro rfl; rw [BitVec.toNat_ofNat]; omega
  · intro h; rw [h, BitVec.ofNat_toNat, BitVec.setWidth_eq]

/-! ## Runs of the receive procedure -/

/-- Whatever a transport request makes of `s`, the next step at a request is that request. -/
def Linked (s : State) : Prop :=
  ∀ u, LinkFrame s u → atRequest u = true → step u = .next (linkStep u.xfer u)

theorem Linked.frame {s t : State} (h : Linked s) (k : LinkFrame s t) : Linked t := fun u hu hr => h u (k.trans hu) hr

theorem Linked.step {s : State} (h : Linked s) (hr : atRequest s = true) : step s = .next (linkStep s.xfer s) :=
  h s (LinkFrame.of_env rfl rfl rfl) hr

/-- A command that uses the transport is at one request after the other until its procedure returns. -/
theorem linked_command {s : State} (ht : s.env.turns = []) (hb : s.status.busy = true) {i : Instr}
    (hd : decode (.command s.cmd) = .ok i) (hi : commandKind i ≠ .single)
    (hm : ∀ m, decode (.message s.xfer.payload) = .ok m → encode m = .message s.xfer.payload) : Linked s := by
  intro u hu hr
  obtain ⟨n, hn⟩ := hu.status
  exact step_request (hu.turns.trans ht) (by rw [hn]; exact hb) hr (by rw [hu.cmd]; exact hd) hi
    (by rw [hu.xfer]; exact hm)

/-- A message in flight likewise. -/
theorem linked_message {s : State} (ht : s.env.turns = []) (hb : s.status.busy = true) {m : Instr}
    (hk : s.xfer.kind = .exchange) (hd : decode (.message s.xfer.payload) = .ok m)
    (hm : encode m = .message s.xfer.payload) : Linked s := by
  intro u hu hr
  obtain ⟨n, hn⟩ := hu.status
  rw [step_engine (hu.turns.trans ht) (by rw [hn]; exact hb)
    (fetch_message hr (by rw [hu.xfer]; exact hk) (by rw [hu.xfer]; exact hd))]
  exact exec_message_request (by rw [hu.xfer]; exact hk) hr (by rw [hu.xfer]; exact hm)

/-- The record after bytes have been read. -/
def readNotes (l : List ReadAnswer) (e : Env) (rest : List ReadAnswer) : Env :=
  { e with readAnswers := rest, history := (l.map Event.readByte).reverse ++ e.history }

/-- Payload bytes before the last one are stored in order (41_frame.md R176). -/
theorem run_payload {q : List Byte} {s : State} {rest : List ReadAnswer} (hl : Linked s) (hf : s.fsm = .rxPay)
    (hq : s.rxIdx.toNat + q.length < s.rxLen.toNat) (ha : s.env.readAnswers = q.map .byte ++ rest) :
    core.run q.length s = .next { s with
      mem := s.mem.writeBytes (rxBase + s.rxIdx.toNat) q, rxIdx := s.rxIdx + BitVec.ofNat 8 q.length,
      env := readNotes (q.map .byte) s.env rest } := by
  induction q generalizing s with
  | nil =>
    rw [List.length_nil, run_zero]
    congr 1
    have e1 : s.rxIdx + BitVec.ofNat 8 0 = s.rxIdx := by simp
    have e2 : readNotes (([] : List Byte).map ReadAnswer.byte) s.env rest = s.env := by
      unfold readNotes
      rw [show rest = s.env.readAnswers by rw [ha]; rfl]; rfl
    rw [e1, e2]; rfl
  | cons b q ih =>
    simp only [List.map_cons, List.cons_append, List.length_cons] at ha hq
    have hr : atRequest s = true := by simp [atRequest, hf]
    have hlt : s.rxLen.toNat < 256 := s.rxLen.isLt
    have hi : (s.rxIdx + 1).toNat = s.rxIdx.toNat + 1 := by
      rw [BitVec.toNat_add]; show (s.rxIdx.toNat + 1) % 256 = _; omega
    have hstep := hl.step hr
    rw [linkStep_rxPay hf (b := b) (by rw [askRead_cons ha]),
      takePayload_more (s := s.setEnv s.env.askRead.2) b (by show s.rxIdx.toNat + 1 < s.rxLen.toNat; omega)] at hstep
    rw [List.length_cons, run_succ_next hstep]
    have hk : LinkFrame s (takePayload b (s.setEnv s.env.askRead.2)) :=
      (LinkFrame.of_env (askRead_keeps _).1 (askRead_keeps _).2.1 (askRead_keeps _).2.2).trans (LinkFrame.takePayload _ _)
    rw [takePayload_more (s := s.setEnv s.env.askRead.2) b (by show s.rxIdx.toNat + 1 < s.rxLen.toNat; omega)] at hk
    refine (ih (hl.frame hk) hf ?_ ?_).trans ?_
    · show (s.rxIdx + 1).toNat + _ < s.rxLen.toNat; omega
    · show s.env.askRead.2.readAnswers = _
      rw [askRead_cons ha]
    · congr 1
      have e1 : s.rxIdx + 1 + BitVec.ofNat 8 q.length = s.rxIdx + BitVec.ofNat 8 (q.length + 1) := by
        rw [BitVec.add_assoc]; congr 1
        apply BitVec.eq_of_toNat_eq
        rw [BitVec.toNat_add, BitVec.toNat_ofNat, BitVec.toNat_ofNat]
        show (1 + q.length % 256) % 256 = _
        omega
      have e2 : rxBase + s.rxIdx.toNat + 1 = rxBase + (s.rxIdx + 1).toNat := by omega
      have e3 : s.env.askRead.2 = { s.env with
          readAnswers := q.map .byte ++ rest, history := .readByte (.byte b) :: s.env.history } := by
        rw [askRead_cons ha]
      simp only [State.setEnv_mem, State.setEnv_rxIdx, State.setEnv_env, Memory.writeBytes, e1, ← e2, e3]
      have e4 : readNotes (q.map .byte) { s.env with
          readAnswers := q.map .byte ++ rest, history := .readByte (.byte b) :: s.env.history } rest =
          readNotes ((b :: q).map .byte) s.env rest := by
        unfold readNotes; simp
      rw [e4]; rfl

/-- The state when a reply has been received whole: its payload in RX_BUF, the answer of the checksum test. -/
def received (c n : Byte) (p : List Byte) (rest : List ReadAnswer) (s : State) : State :=
  { s with
    mem := s.mem.writeBytes rxBase p, status := { s.status with rxlen := n }, rxChk := c, rxLen := n,
    rxIdx := BitVec.ofNat 8 p.length, fsm := .run,
    pt := .ret (if c.toNat = (n.toNat + (p.map BitVec.toNat).sum) % 256 then .ok else .checksum),
    env := readNotes (replyAnswers c n p) s.env rest }

theorem readBytes_writeBytes {m : Memory} (hw : m.wf) (a : Nat) (p : List Byte) :
    (m.writeBytes a p).readBytes a p.length = p := by
  unfold Memory.readBytes
  apply List.ext_getElem
  · simp
  · intro i h1 h2
    rw [List.getElem_map, List.getElem_range, Memory.read_writeBytes hw, if_pos (by omega), Nat.add_sub_cancel_left,
      List.getD_eq_getElem _ _ h2]

theorem writeBytes_append (m : Memory) (a : Nat) (p q : List Byte) :
    m.writeBytes a (p ++ q) = (m.writeBytes a p).writeBytes (a + p.length) q := by
  induction p generalizing m a with
  | nil => rfl
  | cons b p ih =>
    rw [List.cons_append, Memory.writeBytes, Memory.writeBytes, ih, List.length_cons]
    congr 1; omega

/-- The two header bytes of a reply (41_frame.md R176). -/
theorem run_header {c n : Byte} {s : State} {rest : List ReadAnswer} (hl : Linked s) (hf : s.fsm = .rxChk)
    (ha : s.env.readAnswers = .byte c :: .byte n :: rest) :
    core.run 2 s = .next (takeLength n { s with
      rxChk := c, fsm := .rxLen, env := readNotes [.byte c, .byte n] s.env rest }) := by
  have hr : atRequest s = true := by simp [atRequest, hf]
  have h1 := hl.step hr
  rw [linkStep_rxChk hf (c := c) (by rw [askRead_cons ha])] at h1
  have hk : LinkFrame s { s.setEnv s.env.askRead.2 with rxChk := c, fsm := .rxLen } := by
    have := linkStep_frame s.xfer s
    rw [linkStep_rxChk hf (c := c) (by rw [askRead_cons ha])] at this
    exact this
  have ha2 : ({ s.setEnv s.env.askRead.2 with rxChk := c, fsm := .rxLen } : State).env.readAnswers = .byte n :: rest := by
    show s.env.askRead.2.readAnswers = _
    rw [askRead_cons ha]
  have h2 := (hl.frame hk).step rfl
  rw [linkStep_rxLen rfl (n := n) (by rw [askRead_cons ha2])] at h2
  rw [run_succ_next h1, run_succ_next h2, run_zero]
  congr 2
  have e : s.env.askRead.2 = { s.env with
      readAnswers := .byte n :: rest, history := .readByte (.byte c) :: s.env.history } := by rw [askRead_cons ha]
  show State.setEnv _ _ = _
  rw [askRead_cons ha2]
  simp only [State.setEnv_env, e]
  rfl

theorem ite_congr_reply {x y : Prop} [Decidable x] [Decidable y] (h : x ↔ y) (a b : Reply) :
    (if x then a else b) = (if y then a else b) := by
  by_cases hx : x
  · rw [if_pos hx, if_pos (h.1 hx)]
  · rw [if_neg hx, if_neg (fun k => hx (h.2 k))]

/-- A whole reply (41_frame.md R172). -/
theorem run_reply {c n : Byte} {p : List Byte} {s : State} {rest : List ReadAnswer} (hl : Linked s) (hw : s.mem.wf)
    (hf : s.fsm = .rxChk) (hi : s.rxIdx = 0) (hp : p.length = n.toNat)
    (ha : s.env.readAnswers = replyAnswers c n p ++ rest) :
    core.run (2 + n.toNat) s = .next (received c n p rest s) := by
  have h2 := run_header (c := c) (n := n) (rest := p.map .byte ++ rest) hl hf (by rw [ha]; rfl)
  by_cases hn : n = 0
  · subst hn
    have hp0 : p = [] := List.length_eq_zero_iff.1 hp
    subst hp0
    rw [show 2 + (0 : Byte).toNat = 2 from rfl, h2, takeLength_zero]
    congr 1
    unfold received
    have e : (if c = 0 then Reply.ok else Reply.checksum) =
        (if c.toNat = ((0 : Byte).toNat + (([] : List Byte).map BitVec.toNat).sum) % 256 then Reply.ok else .checksum) :=
      ite_congr_reply (by
        constructor
        · rintro rfl; rfl
        · intro h; exact BitVec.eq_of_toNat_eq h) _ _
    rw [← e]
    have e2 : s.rxIdx = BitVec.ofNat 8 ([] : List Byte).length := hi
    rw [← e2]; rfl
  · have hn0 : 0 < n.toNat := by
      rcases Nat.eq_zero_or_pos n.toNat with h | h
      · exact absurd (BitVec.eq_of_toNat_eq h) hn
      · exact h
    obtain ⟨q, b, rfl⟩ : ∃ q b, p = q ++ [b] := by
      rcases List.eq_nil_or_concat p with h | ⟨q, b, h⟩
      · rw [h] at hp; simp at hp; omega
      · exact ⟨q, b, by rw [h]; simp⟩
    have hql : q.length + 1 = n.toNat := by simpa using hp
    have hn256 : n.toNat < 256 := n.isLt
    rw [takeLength_pos hn] at h2
    set u : State := { s with
      rxChk := c, rxLen := n, status := { s.status with rxlen := n }, fsm := .rxPay, pt := .setTimeout,
      env := readNotes [.byte c, .byte n] s.env ((q ++ [b]).map .byte ++ rest) } with hu
    have h2' : core.run 2 s = .next u := h2
    have hlu : LinkFrame s u :=
      { cmd := rfl, arg0 := rfl, result := rfl, cursor := rfl, ports := rfl, seg := rfl, attempt := rfl, xfer := rfl,
        auxErr := rfl, auxSeg := rfl, status := ⟨n, rfl⟩, params := rfl, turns := rfl, unpolled := rfl, memWf := id,
        memOut := fun _ _ _ => rfl, memIn := id }
    have h3 := run_payload (q := q) (rest := .byte b :: rest) (hl.frame hlu) (s := u) rfl
      (by show s.rxIdx.toNat + q.length < n.toNat; rw [hi]; show 0 + q.length < _; omega)
      (by show (q ++ [b]).map ReadAnswer.byte ++ rest = _; simp)
    set v : State := { u with
      mem := u.mem.writeBytes (rxBase + u.rxIdx.toNat) q, rxIdx := u.rxIdx + BitVec.ofNat 8 q.length,
      env := readNotes (q.map .byte) u.env (.byte b :: rest) } with hv
    have hlv : LinkFrame u v :=
      { cmd := rfl, arg0 := rfl, result := rfl, cursor := rfl, ports := rfl, seg := rfl, attempt := rfl, xfer := rfl,
        auxErr := rfl, auxSeg := rfl, status := ⟨n, rfl⟩, params := rfl, turns := rfl, unpolled := rfl,
        memWf := fun h => Memory.writeBytes_wf h _ _,
        memOut := fun h a ha => by
          show Memory.read (Memory.writeBytes _ _ _) a = _
          rw [Memory.read_writeBytes h, if_neg]
          have : u.rxIdx.toNat = 0 := by show s.rxIdx.toNat = 0; rw [hi]; rfl
          unfold rxBase; omega
        memIn := fun h => Memory.within_writeBytes h _ (by unfold arrayBase rxBase; omega) (by
          have : u.rxIdx.toNat = 0 := by show s.rxIdx.toNat = 0; rw [hi]; rfl
          unfold arrayEnd rxBase; omega) }
    have hidx : v.rxIdx.toNat = q.length := by
      show (s.rxIdx + BitVec.ofNat 8 q.length).toNat = _
      rw [hi, BitVec.toNat_add, BitVec.toNat_ofNat]
      show (0 + q.length % 256) % 256 = _
      omega
    have hva : v.env.readAnswers = .byte b :: rest := rfl
    have h4 := ((hl.frame hlu).frame hlv).step (s := v) rfl
    rw [linkStep_rxPay (s := v) rfl (b := b) (by rw [askRead_cons hva]),
      takePayload_last (s := v.setEnv v.env.askRead.2) b
        (by show n.toNat ≤ v.rxIdx.toNat + 1; rw [hidx]; omega)] at h4
    rw [run_add h2', show n.toNat = q.length + 1 by omega, run_add h3, run_succ_next h4, run_zero]
    congr 1
    have e0 : u.rxIdx.toNat = 0 := by show s.rxIdx.toNat = 0; rw [hi]; rfl
    have em : (v.setEnv v.env.askRead.2).mem.write (rxBase + (v.setEnv v.env.askRead.2).rxIdx.toNat) b =
        s.mem.writeBytes rxBase (q ++ [b]) := by
      rw [writeBytes_append]
      show v.mem.write (rxBase + v.rxIdx.toNat) b = _
      rw [hidx]
      show (s.mem.writeBytes (rxBase + u.rxIdx.toNat) q).write _ b = _
      rw [e0]; rfl
    have er : (v.setEnv v.env.askRead.2).rxIdx + 1 = BitVec.ofNat 8 (q ++ [b]).length := by
      apply BitVec.eq_of_toNat_eq
      rw [BitVec.toNat_add, BitVec.toNat_ofNat]
      show (v.rxIdx.toNat + 1) % 256 = _
      rw [hidx]; simp
    have ec : (if rxChecksum (v.setEnv v.env.askRead.2).rxLen
          ((s.mem.writeBytes rxBase (q ++ [b])).readBytes rxBase (v.setEnv v.env.askRead.2).rxLen.toNat) =
          (v.setEnv v.env.askRead.2).rxChk then Reply.ok else .checksum) =
        (if c.toNat = (n.toNat + ((q ++ [b]).map BitVec.toNat).sum) % 256 then Reply.ok else .checksum) := by
      apply ite_congr_reply
      have : (v.setEnv v.env.askRead.2).rxLen.toNat = (q ++ [b]).length := by
        show n.toNat = _; simp; omega
      rw [this, readBytes_writeBytes hw, rxChecksum_eq_iff, eq_comm]
      rfl
    have ee : v.env.askRead.2 = readNotes (replyAnswers c n (q ++ [b])) s.env rest := by
      rw [askRead_cons hva]
      show Env.mk _ _ _ _ _ _ _ _ _ = _
      unfold readNotes replyAnswers
      simp only [hv, hu, readNotes]
      simp
    rw [em, er, ec]
    show _ = received c n (q ++ [b]) rest s
    unfold received
    rw [← ee]
    rfl

end Sys2Proof.Machine
end

