-- ==== Sys2Proof/Laws/Runs.lean ====
section
/-! SUPPORT. Runs of the transport procedures whose requests are answered from the TRANSPORT's lists
(41_frame.md R170 to R176). -/



namespace Sys2Proof.Machine

/-- A step that does a transport request, with the frame of what it leaves. -/
theorem linked_stepTo {s t : State} (h : Linked s) (hr : atRequest s = true) (he : linkStep s.xfer s = t) :
    step s = .next t ∧ LinkFrame s t := by
  subst he
  exact ⟨h.step hr, linkStep_frame _ _⟩

/-! ## Single requests -/

/-- `T.IsOpen()` answered from the list. -/
def askedIsOpen (a : Bool) (is : List Bool) (e : Env) : Env :=
  { e with isOpenAnswers := is, history := .isOpen a :: e.history }

/-- `T.Open()` answered from the list. -/
def askedOpen (a : Bool) (os : List Bool) (e : Env) : Env :=
  { e with openAnswers := os, history := .opened a :: e.history }

/-- `T.Write(f)` answered from the list. -/
def askedWrite (f : List Byte) (a : Bool) (ws : List Bool) (e : Env) : Env :=
  { e with writeAnswers := ws, history := .wrote f a :: e.history }

theorem step_link_open {s : State} {is : List Bool} (hl : Linked s) (hf : s.fsm = .run) (hp : s.pt = .isOpen)
    (hk : s.xfer.kind ≠ .transmit) (hi : s.env.isOpenAnswers = true :: is) :
    let t := { s with fsm := .run, pt := .setTimeout, env := askedIsOpen true is s.env }
    step s = .next t ∧ LinkFrame s t := by
  refine linked_stepTo hl (by simp [atRequest, hf, hp]) ?_
  rw [linkStep_isOpen_true hf hp (by rw [askIsOpen_cons hi]), linkOpen_receiving hk, askIsOpen_cons hi]; rfl

theorem step_link_open_transmit {s : State} {is : List Bool} (hl : Linked s) (hf : s.fsm = .run) (hp : s.pt = .isOpen)
    (hk : s.xfer.kind = .transmit) (hi : s.env.isOpenAnswers = true :: is) :
    let t := { s with fsm := .send, pt := .isOpen, env := askedIsOpen true is s.env }
    step s = .next t ∧ LinkFrame s t := by
  refine linked_stepTo hl (by simp [atRequest, hf, hp]) ?_
  rw [linkStep_isOpen_true hf hp (by rw [askIsOpen_cons hi]), linkOpen_transmit hk, askIsOpen_cons hi]; rfl

theorem step_link_closed {s : State} {is : List Bool} (hl : Linked s) (hf : s.fsm = .run) (hp : s.pt = .isOpen)
    (hi : s.env.isOpenAnswers = false :: is) :
    let t := { s with fsm := .opening, pt := .isOpen, env := askedIsOpen false is s.env }
    step s = .next t ∧ LinkFrame s t := by
  refine linked_stepTo hl (by simp [atRequest, hf, hp]) ?_
  rw [linkStep_isOpen_false hf hp (by rw [askIsOpen_cons hi]), askIsOpen_cons hi]; rfl

theorem step_opened {s : State} {os : List Bool} (hl : Linked s) (hf : s.fsm = .opening)
    (hk : s.xfer.kind ≠ .transmit) (ho : s.env.openAnswers = true :: os) :
    let t := { s with fsm := .run, pt := .setTimeout, env := askedOpen true os s.env }
    step s = .next t ∧ LinkFrame s t := by
  refine linked_stepTo hl (by simp [atRequest, hf]) ?_
  rw [linkStep_opening_true hf (by rw [askOpen_cons ho]), linkOpen_receiving hk, askOpen_cons ho]; rfl

theorem step_opened_transmit {s : State} {os : List Bool} (hl : Linked s) (hf : s.fsm = .opening)
    (hk : s.xfer.kind = .transmit) (ho : s.env.openAnswers = true :: os) :
    let t := { s with fsm := .send, pt := .isOpen, env := askedOpen true os s.env }
    step s = .next t ∧ LinkFrame s t := by
  refine linked_stepTo hl (by simp [atRequest, hf]) ?_
  rw [linkStep_opening_true hf (by rw [askOpen_cons ho]), linkOpen_transmit hk, askOpen_cons ho]; rfl

theorem step_open_failed {s : State} {os : List Bool} (hl : Linked s) (hf : s.fsm = .opening)
    (ho : s.env.openAnswers = false :: os) :
    let t := { s with fsm := .run, pt := .ret .comm, env := askedOpen false os s.env }
    step s = .next t ∧ LinkFrame s t := by
  refine linked_stepTo hl (by simp [atRequest, hf]) ?_
  rw [linkStep_opening_false hf (by rw [askOpen_cons ho]), askOpen_cons ho]; rfl

theorem step_set_timeout {s : State} (hl : Linked s) (hf : s.fsm = .run) (hp : s.pt = .setTimeout)
    (hk : s.xfer.kind ≠ .receive) :
    let t := { s with
      fsm := .send, pt := .setTimeout, env := { s.env with history := .setTimeout s.xfer.tms :: s.env.history } }
    step s = .next t ∧ LinkFrame s t := by
  refine linked_stepTo hl (by simp [atRequest, hf, hp]) ?_
  rw [linkStep_setTimeout_send hf hp hk]; rfl

theorem step_set_timeout_receive {s : State} (hl : Linked s) (hf : s.fsm = .run) (hp : s.pt = .setTimeout)
    (hk : s.xfer.kind = .receive) :
    let t := { s with
      mem := s.mem.clear rxBase 256, rxIdx := 0, fsm := .rxChk, pt := .setTimeout,
      env := { s.env with history := .setTimeout s.xfer.tms :: s.env.history } }
    step s = .next t ∧ LinkFrame s t := by
  refine linked_stepTo hl (by simp [atRequest, hf, hp]) ?_
  rw [linkStep_setTimeout_receive hf hp hk]; rfl

theorem step_written {s : State} {ws : List Bool} (hl : Linked s) (hf : s.fsm = .send)
    (hk : s.xfer.kind ≠ .transmit) (hw : s.env.writeAnswers = true :: ws) :
    let t := { s with
      mem := s.mem.clear rxBase 256, rxIdx := 0, fsm := .rxChk, pt := .setTimeout,
      env := askedWrite (frameOf s.xfer s) true ws s.env }
    step s = .next t ∧ LinkFrame s t := by
  refine linked_stepTo hl (by simp [atRequest, hf]) ?_
  rw [linkStep_send_receive hf hk (by rw [askWrite_cons hw]), askWrite_cons hw]; rfl

theorem step_written_transmit {s : State} {ok : Bool} {ws : List Bool} (hl : Linked s) (hf : s.fsm = .send)
    (hk : s.xfer.kind = .transmit) (hw : s.env.writeAnswers = ok :: ws) :
    let t := { s with
      fsm := .run, pt := .ret (if ok then .ok else .comm), env := askedWrite (frameOf s.xfer s) ok ws s.env }
    step s = .next t ∧ LinkFrame s t := by
  refine linked_stepTo hl (by simp [atRequest, hf]) ?_
  cases ok
  · rw [linkStep_send_fail hf (by rw [askWrite_cons hw]), askWrite_cons hw]; rfl
  · rw [linkStep_send_transmit hf hk (by rw [askWrite_cons hw]), askWrite_cons hw]; rfl

theorem step_read_failed {s : State} {bad : ReadAnswer} {rest : List ReadAnswer} (hl : Linked s)
    (hf : s.fsm = .rxChk ∨ s.fsm = .rxLen ∨ s.fsm = .rxPay) (hbad : bad = .timeout ∨ bad = .fail)
    (hr : s.env.readAnswers = bad :: rest) :
    let t := { s with fsm := .run, pt := .ret .comm, env := readNotes [bad] s.env rest }
    step s = .next t ∧ LinkFrame s t := by
  refine linked_stepTo hl (by rcases hf with h | h | h <;> simp [atRequest, h]) ?_
  rw [linkStep_read_fail hf (by rw [askRead_cons hr]; exact hbad), askRead_cons hr]; rfl

/-! ## Whole exchanges -/

/-- What an answered exchange leaves up to its reply: the link open, the timeout set, the frame written, RX_BUF
clear. -/
def sent (is ws : List Bool) (s : State) : State :=
  { s with
    mem := s.mem.clear rxBase 256, rxIdx := 0, fsm := .rxChk, pt := .setTimeout,
    env := { s.env with
      isOpenAnswers := is, writeAnswers := ws,
      history := .wrote (frameOf s.xfer s) true :: .setTimeout s.xfer.tms :: .isOpen true :: s.env.history } }

theorem run_sent {s : State} {is ws : List Bool} (hl : Linked s) (hf : s.fsm = .run) (hp : s.pt = .isOpen)
    (hk : s.xfer.kind = .exchange) (hi : s.env.isOpenAnswers = true :: is) (hw : s.env.writeAnswers = true :: ws) :
    core.run 3 s = .next (sent is ws s) ∧ LinkFrame s (sent is ws s) := by
  have h1 := step_link_open hl hf hp (by rw [hk]; decide) hi
  dsimp only at h1
  obtain ⟨h1, f1⟩ := h1
  have h2 := step_set_timeout (hl.frame f1) rfl rfl (by show s.xfer.kind ≠ _; rw [hk]; decide)
  dsimp only at h2
  obtain ⟨h2, f2⟩ := h2
  have h3 := step_written ((hl.frame f1).frame f2) rfl (by show s.xfer.kind ≠ _; rw [hk]; decide) hw
  dsimp only at h3
  obtain ⟨h3, f3⟩ := h3
  refine ⟨?_, (f1.trans f2).trans f3⟩
  rw [run_succ_next h1, run_succ_next h2, run_succ_next h3, run_zero]
  rfl

/-- A whole exchange with a whole reply: five requests and the payload bytes. -/
theorem run_exchange {s : State} {c n : Byte} {p : List Byte} {is ws : List Bool} {rest : List ReadAnswer}
    (hl : Linked s) (hm : s.mem.wf) (hf : s.fsm = .run) (hp : s.pt = .isOpen)
    (hk : s.xfer.kind = .exchange) (hi : s.env.isOpenAnswers = true :: is) (hw : s.env.writeAnswers = true :: ws)
    (hn : p.length = n.toNat) (hr : s.env.readAnswers = replyAnswers c n p ++ rest) :
    core.run (5 + n.toNat) s = .next (received c n p rest (sent is ws s)) := by
  obtain ⟨h1, f1⟩ := run_sent hl hf hp hk hi hw
  have h2 := run_reply (hl.frame f1) (f1.memWf hm) rfl rfl hn hr
  rw [show 5 + n.toNat = 3 + (2 + n.toNat) by omega, run_add h1, h2]

/-- A whole exchange whose reply does not come. -/
theorem run_exchange_silent {s : State} {bad : ReadAnswer} {is ws : List Bool} {rest : List ReadAnswer}
    (hl : Linked s) (hf : s.fsm = .run) (hp : s.pt = .isOpen)
    (hk : s.xfer.kind = .exchange) (hi : s.env.isOpenAnswers = true :: is) (hw : s.env.writeAnswers = true :: ws)
    (hbad : bad = .timeout ∨ bad = .fail) (hr : s.env.readAnswers = bad :: rest) :
    core.run 4 s = .next { sent is ws s with
      fsm := .run, pt := .ret .comm, env := readNotes [bad] (sent is ws s).env rest } := by
  obtain ⟨h1, f1⟩ := run_sent hl hf hp hk hi hw
  have h2 := (step_read_failed (hl.frame f1) (.inl rfl) hbad hr).1
  rw [show 4 = 3 + 1 from rfl, run_add h1, run_succ_next h2, run_zero]

/-! ## The receive of FRAME_RX, and replies that break off -/

/-- FRAME_RX's procedure before the first byte: the link open (it was, or `T.Open()` opened it), the timeout set, RX_BUF
clear (41_frame.md R178). -/
def listening (link : Bool) (is os : List Bool) (s : State) : State :=
  { s with
    mem := s.mem.clear rxBase 256, rxIdx := 0, fsm := .rxChk, pt := .setTimeout,
    env := { s.env with
      isOpenAnswers := is, openAnswers := if link then s.env.openAnswers else os,
      history := .setTimeout s.xfer.tms ::
        ((if link then [.isOpen true] else [.opened true, .isOpen false]) ++ s.env.history) } }

theorem run_listening {s : State} {link : Bool} {is os : List Bool} (hl : Linked s) (hf : s.fsm = .run)
    (hp : s.pt = .isOpen) (hk : s.xfer.kind = .receive) (hi : s.env.isOpenAnswers = link :: is)
    (ho : link = false → s.env.openAnswers = true :: os) :
    core.run (2 + if link then 0 else 1) s = .next (listening link is os s) ∧ LinkFrame s (listening link is os s) := by
  have hne : s.xfer.kind ≠ .transmit := by rw [hk]; decide
  cases link with
  | true =>
    obtain ⟨h1, f1⟩ := step_link_open hl hf hp hne hi
    obtain ⟨h2, f2⟩ := step_set_timeout_receive (hl.frame f1) rfl rfl hk
    exact ⟨by rw [if_pos rfl, run_succ_next h1, run_succ_next h2, run_zero]; rfl, f1.trans f2⟩
  | false =>
    obtain ⟨h1, f1⟩ := step_link_closed hl hf hp hi
    obtain ⟨h2, f2⟩ := step_opened (hl.frame f1) rfl hne (ho rfl)
    obtain ⟨h3, f3⟩ := step_set_timeout_receive ((hl.frame f1).frame f2) rfl rfl hk
    exact ⟨by rw [if_neg (by decide), run_succ_next h1, run_succ_next h2, run_succ_next h3, run_zero]; rfl,
      (f1.trans f2).trans f3⟩

/-- The state when a read has failed after the bytes `got` of a reply (41_frame.md section 1). -/
def cutOff (got : List Byte) (bad : ReadAnswer) (rest : List ReadAnswer) (s : State) : State :=
  { s with
    mem := s.mem.writeBytes rxBase (got.drop 2), status := { s.status with rxlen := got.getD 1 s.status.rxlen },
    rxChk := got.getD 0 s.rxChk, rxLen := got.getD 1 s.rxLen, rxIdx := BitVec.ofNat 8 (got.drop 2).length,
    fsm := .run, pt := .ret .comm, env := readNotes (got.map .byte ++ [bad]) s.env rest }

/-- A reply that breaks off (41_frame.md R175, R176). -/
theorem run_cutOff {got : List Byte} {bad : ReadAnswer} {s : State} {rest : List ReadAnswer} (hl : Linked s)
    (hf : s.fsm = .rxChk) (hi : s.rxIdx = 0) (hbad : bad = .timeout ∨ bad = .fail)
    (hgot : ∀ c n q, got = c :: n :: q → q.length < n.toNat) (ha : s.env.readAnswers = got.map .byte ++ bad :: rest) :
    core.run (1 + got.length) s = .next (cutOff got bad rest s) := by
  match got, hgot, ha with
  | [], _, ha =>
    rw [show 1 + ([] : List Byte).length = 0 + 1 from rfl, run_succ_next (step_read_failed hl (.inl hf) hbad ha).1, run_zero]
    show _ = Host.Outcome.next { s with
      status := { s.status with rxlen := s.status.rxlen }, rxChk := s.rxChk, rxLen := s.rxLen, rxIdx := 0, fsm := .run,
      pt := .ret .comm, env := readNotes [bad] s.env rest }
    rw [← hi]; rfl
  | [c], _, ha =>
    have h1 := hl.step (s := s) (by simp [atRequest, hf])
    have f1 := linkStep_frame s.xfer s
    rw [linkStep_rxChk hf (c := c) (by rw [askRead_cons ha]), askRead_cons ha] at h1 f1
    have h2 := (step_read_failed (hl.frame f1) (.inr (.inl rfl)) hbad rfl).1
    rw [show 1 + [c].length = 0 + 1 + 1 from rfl, run_succ_next h1, run_succ_next h2, run_zero]
    show Host.Outcome.next _ = Host.Outcome.next { s with
      status := { s.status with rxlen := s.status.rxlen }, rxChk := c, rxLen := s.rxLen, rxIdx := 0, fsm := .run,
      pt := .ret .comm, env := readNotes [.byte c, bad] s.env rest }
    rw [← hi]; rfl
  | c :: n :: q, hgot, ha =>
    have hq := hgot c n q rfl
    have hn : n ≠ 0 := by rintro rfl; exact absurd hq (Nat.not_lt_zero _)
    have h1 := run_header (c := c) (n := n) (rest := q.map .byte ++ bad :: rest) hl hf (by rw [ha]; rfl)
    rw [takeLength_pos hn] at h1
    set u : State := { s with
      rxChk := c, rxLen := n, status := { s.status with rxlen := n }, fsm := .rxPay, pt := .setTimeout,
      env := readNotes [.byte c, .byte n] s.env (q.map .byte ++ bad :: rest) }
    have hu : LinkFrame s u :=
      { cmd := rfl, arg0 := rfl, result := rfl, cursor := rfl, ports := rfl, seg := rfl, attempt := rfl, xfer := rfl,
        auxErr := rfl, auxSeg := rfl, status := ⟨n, rfl⟩, params := rfl, turns := rfl, unpolled := rfl, memWf := id,
        memOut := fun _ _ _ => rfl, memIn := id }
    have e0 : u.rxIdx.toNat = 0 := by show s.rxIdx.toNat = 0; rw [hi]; rfl
    have h2 := run_payload (q := q) (rest := bad :: rest) (hl.frame hu) rfl (by rw [e0, Nat.zero_add]; exact hq) rfl
    set v : State := { u with
      mem := u.mem.writeBytes (rxBase + u.rxIdx.toNat) q, rxIdx := u.rxIdx + BitVec.ofNat 8 q.length,
      env := readNotes (q.map .byte) u.env (bad :: rest) }
    have hv : LinkFrame u v :=
      { cmd := rfl, arg0 := rfl, result := rfl, cursor := rfl, ports := rfl, seg := rfl, attempt := rfl, xfer := rfl,
        auxErr := rfl, auxSeg := rfl, status := ⟨n, rfl⟩, params := rfl, turns := rfl, unpolled := rfl,
        memWf := fun h => Memory.writeBytes_wf h _ _,
        memOut := fun h a ha => by
          show Memory.read (Memory.writeBytes _ _ _) a = _
          rw [Memory.read_writeBytes h, if_neg]
          have := n.isLt
          unfold rxBase; omega
        memIn := fun h => Memory.within_writeBytes h _ (by unfold arrayBase rxBase; omega) (by
          have := n.isLt
          unfold arrayEnd rxBase; omega) }
    have h3 := (step_read_failed ((hl.frame hu).frame hv) (.inr (.inr rfl)) hbad rfl).1
    rw [show 1 + (c :: n :: q).length = 2 + (q.length + (0 + 1)) by simp only [List.length_cons]; omega, run_add h1,
      run_add h2, run_succ_next h3, run_zero]
    have e1 : rxBase + u.rxIdx.toNat = rxBase := by rw [e0]; rfl
    have e2 : u.rxIdx + BitVec.ofNat 8 q.length = BitVec.ofNat 8 q.length := by
      show s.rxIdx + _ = _; rw [hi]; exact BitVec.zero_add _
    have e3 : readNotes [bad] v.env rest = readNotes ((c :: n :: q).map .byte ++ [bad]) s.env rest := by
      show readNotes [bad] (readNotes (q.map .byte) (readNotes [.byte c, .byte n] s.env _) _) rest = _
      unfold readNotes; simp
    show Host.Outcome.next { u with
      mem := u.mem.writeBytes (rxBase + u.rxIdx.toNat) q, rxIdx := u.rxIdx + BitVec.ofNat 8 q.length, fsm := .run,
      pt := .ret .comm, env := readNotes [bad] v.env rest } = _
    rw [e1, e2, e3]; rfl

end Sys2Proof.Machine
end

