-- ==== Sys2Proof/Laws/Commands.lean ====
section
/-! SUPPORT. One lemma for each thing a command does at its own points: operands, acknowledgements, builds, returns. -/

namespace Sys2Proof.Machine

/-! ## Running -/

/-- Command `i` runs and the engine moves next. -/
def Running (i : Instr) (s : State) : Prop :=
  s.status.busy = true ∧ decode (.command s.cmd) = .ok i ∧ s.env.turns = []

theorem running_of_started {i : Instr} {s : State} (h : Started i s) : Running i s := ⟨h.1, h.2.1, h.2.2.2.2⟩

/-- Away from a transport request a step is the command's own. -/
theorem step_running {i : Instr} {s : State} (h : Running i s) (hr : atRequest s = false) : step s = exec i s :=
  step_command h.2.2 h.1 (.inl hr) h.2.1

theorem step_started {i : Instr} {s : State} (h : Started i s) : step s = exec i s :=
  step_running (running_of_started h) (by simp [atRequest, h.2.2.1, h.2.2.2.1])

theorem step_at_return {i : Instr} {s : State} (h : Running i s) (hf : s.fsm = .run) {r : Reply} (hp : s.pt = .ret r) :
    step s = exec i s := step_running h (by simp [atRequest, hf, hp])

theorem step_at_build {i : Instr} {s : State} (h : Running i s) (hf : s.fsm = .run) (hp : s.pt = .build) :
    step s = exec i s := step_running h (by simp [atRequest, hf, hp])

theorem step_at_finish {i : Instr} {s : State} (h : Running i s) (hf : s.fsm = .run) {k : ErrKind}
    (hp : s.pt = .finish k) : step s = exec i s := step_running h (by simp [atRequest, hf, hp])

theorem running_frame {i : Instr} {s t : State} (h : Running i s) (f : LinkFrame s t) : Running i t := by
  obtain ⟨n, hn⟩ := f.status
  exact ⟨by rw [hn]; exact h.1, by rw [f.cmd]; exact h.2.1, f.turns.trans h.2.2⟩

/-! ## Operands -/

theorem byteOperand_none {w : Word} (h : 255 < w.toNat) : byteOperand w = none := by
  unfold byteOperand; rw [if_neg (by omega)]

theorem byteOperand_some {w : Word} (h : w.toNat ≤ 255) : byteOperand w = some (BitVec.ofNat 8 w.toNat) := by
  unfold byteOperand; rw [if_pos h]; congr 1

theorem segOperand_none {a : Byte} (h : 1 < a.toNat) : segOperand a = none := by
  unfold segOperand
  split <;> first | omega | rfl

theorem segIx_cases : ∀ g : SegIx, g = 0 ∨ g = 1 := by decide

theorem segOperand_some {a : Byte} {g : SegIx} (h : a.toNat = g.val) : segOperand a = some g := by
  unfold segOperand
  rcases segIx_cases g with rfl | rfl <;> rw [h] <;> rfl

/-! ## Replies -/

/-- The outcome of an acknowledged message in the spec's words (30_encoding.md R136, R144). -/
theorem ackErr_eq (tag : Byte) (r : Reply) (s : State) : ackErr tag r s = ackOutcome tag r s := by
  cases r
  · have : (s.rxLen = 1) ↔ s.rxLen.toNat = 1 := ⟨fun h => by rw [h]; rfl, fun h => BitVec.eq_of_toNat_eq h⟩
    have e : (isAck tag s = true) ↔ (s.rxLen.toNat = 1 ∧ s.mem.read 0x900 = tag) := by
      unfold isAck
      rw [Bool.and_eq_true, decide_eq_true_iff, decide_eq_true_iff, this]; rfl
    show (if isAck tag s = true then ErrKind.ok else .protocol) = if _ then _ else _
    by_cases h : isAck tag s = true
    · rw [if_pos h, if_pos (e.1 h)]
    · rw [if_neg h, if_neg (fun k => h (e.2 k))]
  · rfl
  · rfl

/-- RX_BUF after a payload has been received into it (41_frame.md R172). -/
theorem read_received {m : Memory} (hw : m.wf) (p : List Byte) (hp : p.length < 256)
    (hz : ∀ k, k < 256 → m.read (0x900 + k) = 0) (a : Nat) :
    (m.writeBytes rxBase p).read a = if 0x900 ≤ a ∧ a < 0xA00 then p.getD (a - 0x900) 0 else m.read a := by
  rw [Memory.read_writeBytes hw]
  unfold rxBase
  by_cases h1 : 0x900 ≤ a ∧ a < 0x900 + p.length
  · rw [if_pos h1, if_pos (by omega)]
  · rw [if_neg h1]
    by_cases h2 : 0x900 ≤ a ∧ a < 0xA00
    · rw [if_pos h2, List.getD_eq_default _ _ (by omega)]
      have := hz (a - 0x900) (by omega)
      rwa [show 0x900 + (a - 0x900) = a by omega] at this
    · rw [if_neg h2]

/-- RX_BUF after an exchange that began with clearing it. -/
theorem read_cleared_received {m : Memory} (hw : m.wf) (p : List Byte) (hp : p.length < 256) (a : Nat) :
    ((m.clear rxBase 256).writeBytes rxBase p).read a =
      if 0x900 ≤ a ∧ a < 0xA00 then p.getD (a - 0x900) 0 else m.read a := by
  rw [read_received (Memory.clear_wf hw _ _) p hp]
  · by_cases h : 0x900 ≤ a ∧ a < 0xA00
    · rw [if_pos h, if_pos h]
    · rw [if_neg h, if_neg h, Memory.read_clear, if_neg (by unfold rxBase; omega)]
  · intro k hk
    rw [Memory.read_clear, if_pos (by unfold rxBase; omega)]

/-! ## Acknowledged exchanges -/

/-- What an acknowledged exchange leaves. -/
def acked (tag : Byte) (is ws : List Bool) (rest : List ReadAnswer) (s : State) : State :=
  { s with
    mem := (s.mem.clear rxBase 256).writeBytes rxBase [tag], status := { s.status with rxlen := 1 }, rxChk := 1 + tag,
    rxLen := 1, rxIdx := 1, fsm := .run, pt := .ret .ok,
    env := { s.env with
      isOpenAnswers := is, writeAnswers := ws, readAnswers := rest,
      history := .readByte (.byte tag) :: .readByte (.byte 1) :: .readByte (.byte (1 + tag)) ::
        .wrote (frameOf s.xfer s) true :: .setTimeout s.xfer.tms :: .isOpen true :: s.env.history } }

/-- An exchange answered with the one-byte reply `[tag]` takes six requests and returns OK (30_encoding.md R136,
R144). -/
theorem run_acked {s : State} {tag : Byte} {is ws : List Bool} {rest : List ReadAnswer}
    (hl : Linked s) (hm : s.mem.wf) (hf : s.fsm = .run) (hp : s.pt = .isOpen)
    (hk : s.xfer.kind = .exchange) (hi : s.env.isOpenAnswers = true :: is) (hw : s.env.writeAnswers = true :: ws)
    (hr : s.env.readAnswers = ackAnswers tag ++ rest) : core.run 6 s = .next (acked tag is ws rest s) := by
  have h := run_exchange (c := 1 + tag) (n := 1) (p := [tag]) hl hm hf hp hk hi hw rfl hr
  have e : (if (1 + tag).toNat = ((1 : Byte).toNat + ([tag].map BitVec.toNat).sum) % 256 then Reply.ok
      else .checksum) = .ok := by
    rw [if_pos]
    rw [BitVec.toNat_add]; simp
  rw [show 6 = 5 + (1 : Byte).toNat from rfl, h]
  unfold received
  rw [e]; rfl

theorem ackOutcome_acked {s : State} (tag : Byte) (is ws : List Bool) (rest : List ReadAnswer) (hm : s.mem.wf) :
    ackOutcome tag .ok (acked tag is ws rest s) = .ok := by
  show (if (1 : Byte).toNat = 1 ∧ ((s.mem.clear rxBase 256).writeBytes rxBase [tag]).read 0x900 = tag then
    ErrKind.ok else .protocol) = .ok
  refine if_pos ⟨rfl, ?_⟩
  rw [read_cleared_received hm _ (by simp), if_pos (by omega)]; rfl

theorem acked_wf {s : State} (tag : Byte) (is ws : List Bool) (rest : List ReadAnswer) (hm : s.mem.wf) :
    (acked tag is ws rest s).mem.wf := Memory.writeBytes_wf (Memory.clear_wf hm _ _) _ _

theorem running_acked {i : Instr} {s : State} (h : Running i s) (tag : Byte) (is ws : List Bool)
    (rest : List ReadAnswer) : Running i (acked tag is ws rest s) := h

/-! ## Negotiation -/

theorem negotiateBuild_ok {s u : State} {n : Nat}
    (h : buildNegotiation s.seg (clampSegment s.seg (s.setAttempts 1)) = (u, .ok, n)) :
    negotiateBuild s = callTransport
      { kind := .exchange, addr := segAddr s.seg, payload := txBytes u n, tms := s.env.params.tNegMs } u := by
  unfold negotiateBuild; rw [h]

theorem negotiateBuild_stop {s u : State} {n : Nat} {k : ErrKind}
    (h : buildNegotiation s.seg (clampSegment s.seg (s.setAttempts 1)) = (u, k, n)) (hk : k ≠ .ok) :
    negotiateBuild s = u.goto .run (.finish k) := by
  unfold negotiateBuild; rw [h]; cases k <;> first | exact absurd rfl hk | rfl

/-- What a negotiation build leaves, whatever becomes of it (42_negotiation.md R192, R195). -/
theorem negotiateBuild_cases (s : State) :
    ∃ (u : State) (m : Memory) (c : BitVec 12) (x : Xfer) (p : Point), clampSegment s.seg (s.setAttempts 1) = u ∧
      negotiateBuild s = { u with mem := m, cursor := c, xfer := x, fsm := .run, pt := p } ∧
      TxFrame u { u with mem := m, cursor := c } := by
  generalize hu : clampSegment s.seg (s.setAttempts 1) = u
  have fr := buildRequest_frame Config.negotiationLimit (negotiationHeader s.seg u) (negotiationFields s.seg u) u
    (show 3 ≤ 256 by decide)
  obtain ⟨m, c, hmc⟩ := fr.eq
  rw [hmc] at fr
  have hmc' : (buildNegotiation s.seg u).1 = { u with mem := m, cursor := c } := hmc
  by_cases hk : (buildNegotiation s.seg u).2.1 = .ok
  · refine ⟨u, m, c, ⟨.exchange, segAddr s.seg, txBytes (buildNegotiation s.seg u).1 (buildNegotiation s.seg u).2.2,
      s.env.params.tNegMs⟩, .isOpen, rfl, ?_, fr⟩
    rw [negotiateBuild_ok (s := s) (u := (buildNegotiation s.seg u).1) (n := (buildNegotiation s.seg u).2.2)
      (by rw [hu, ← hk]), callTransport, hmc']
  · refine ⟨u, m, c, u.xfer, .finish (buildNegotiation s.seg u).2.1, rfl, ?_, fr⟩
    rw [negotiateBuild_stop (s := s) (u := (buildNegotiation s.seg u).1) (n := (buildNegotiation s.seg u).2.2)
      (by rw [hu]) hk, State.goto, hmc']

/-- A negotiation build that fits (42_negotiation.md R193). -/
theorem negotiateBuild_fits {s : State} (hw : s.mem.wf) (hlen : (negotiationBits s.seg s).length ≤ 2016) :
    ∃ (u : State) (m : Memory) (c : BitVec 12) (x : Xfer), clampSegment s.seg (s.setAttempts 1) = u ∧
      negotiateBuild s = { u with mem := m, cursor := c, xfer := x, fsm := .run, pt := .isOpen } ∧
      x.kind = .exchange ∧ x.addr = segAddr s.seg ∧ x.tms = s.env.params.tNegMs ∧
      x.payload = (List.range (3 + ceil8 (negotiationBits s.seg s).length)).map (fun k => m.read (0x800 + k)) ∧
      TxFrame u { u with mem := m, cursor := c } ∧ c.toNat = (negotiationBits s.seg s).length ∧
      (∀ k, k < 3 → m.read (0x800 + k) = (negotiationHeader s.seg s).getD k 0) ∧
      ∀ k, 24 + k < 2048 → m.bit 0x800 (24 + k) = (negotiationBits s.seg s).getD k false := by
  generalize hu : clampSegment s.seg (s.setAttempts 1) = u
  have hue : u = { s.setAttempts 1 with ports := u.ports } := by rw [← hu]; exact clampSegment_eq _ _
  have hbits : streamBits (negotiationFields s.seg u) = negotiationBits s.seg s := by
    rw [← hu, streamBits_negotiationFields]; rfl
  have hm : u.mem = s.mem := by rw [hue]; rfl
  have hcode : ∀ p, (u.port p).code = (s.port p).code := by
    intro p; rw [← hu, clampSegment_port]; split_ifs <;> rfl
  have hhead : negotiationHeader s.seg u = negotiationHeader s.seg s := by
    unfold negotiationHeader; rw [hcode, hcode]
  obtain ⟨m, c, hb, hc, hhd, hbit⟩ := buildRequest_ok (limit := Config.negotiationLimit)
    (header := negotiationHeader s.seg u) (fields := negotiationFields s.seg u) (s := u) (by rw [hm]; exact hw)
    (by rw [hbits]; exact hlen) (show 8 * 3 + 2016 ≤ 2048 by decide) (show 3 ≤ 255 by decide)
  have fr := buildRequest_frame Config.negotiationLimit (negotiationHeader s.seg u) (negotiationFields s.seg u) u
    (show 3 ≤ 256 by decide)
  rw [hb] at fr
  have e := negotiateBuild_ok (s := s) (by rw [hu]; exact hb)
  rw [hbits] at hc hbit e
  rw [hhead] at hhd
  exact ⟨u, m, c, _, rfl, e, rfl, rfl, rfl, rfl, fr, hc, fun k hk => hhd k hk, fun k hk => hbit k hk⟩

theorem negotiateRet_ok {after : State → State} {r : Reply} {s : State} (h : ackOutcome 2 r s = .ok) :
    negotiateRet after r s = after s := by
  unfold negotiateRet; rw [ackErr_eq, h]

theorem negotiateRet_fail {after : State → State} {r : Reply} {s : State} (h : ackOutcome 2 r s ≠ .ok) :
    negotiateRet after r s = complete (ackOutcome 2 r s) s := by
  unfold negotiateRet; rw [ackErr_eq]
  generalize ackOutcome 2 r s = k at *
  cases k <;> first | exact absurd rfl h | rfl

/-! ## Update -/

theorem updateBuild_ok {s u : State} {n : Nat} (h : buildUpdate s.seg (s.setAttempts (s.attempt + 1)) = (u, .ok, n)) :
    updateBuild s = callTransport
      { kind := .exchange, addr := segAddr s.seg, payload := txBytes u n, tms := s.env.params.tUpdMs } u := by
  unfold updateBuild; rw [h]

theorem updateBuild_stop {s u : State} {n : Nat} {k : ErrKind}
    (h : buildUpdate s.seg (s.setAttempts (s.attempt + 1)) = (u, k, n)) (hk : k ≠ .ok) :
    updateBuild s = u.goto .run (.finish k) := by
  unfold updateBuild; rw [h]; cases k <;> first | exact absurd rfl hk | rfl

theorem devCountsOk_false {s : State} {p : PortIx} (hp : p = lowPort s.seg ∨ p = highPort s.seg)
    (hc : s.portClass p = .i2c) (hd : (s.port p).devCount.toNat < 1 ∨ 8 < (s.port p).devCount.toNat) :
    devCountsOk s.seg s = false := by
  have : (decide (s.portClass p ≠ .i2c) || (s.port p).devCountInRange) = false := by
    simp [hc, Port.devCountInRange]; omega
  unfold devCountsOk segPorts
  rcases hp with rfl | rfl <;> simp only [List.all_cons, List.all_nil, this] <;> simp

/-- DEVCOUNT out of range (43_update.md R225). -/
theorem updateBuild_rejects {s : State} (h : devCountsOk s.seg s = false) :
    updateBuild s = (s.setAttempts (s.attempt + 1)).goto .run (.finish .validation) := by
  refine updateBuild_stop (n := 0) ?_ (by decide)
  unfold buildUpdate
  rw [if_neg]
  intro hk
  exact absurd (h.symm.trans hk) (by decide)

/-- What an update build leaves, whatever becomes of it (43_update.md R225, R226). -/
theorem updateBuild_cases (s : State) :
    ∃ (m : Memory) (c : BitVec 12) (x : Xfer) (p : Point),
      updateBuild s =
        { s.setAttempts (s.attempt + 1) with mem := m, cursor := c, xfer := x, fsm := .run, pt := p } ∧
      TxFrame (s.setAttempts (s.attempt + 1)) { s.setAttempts (s.attempt + 1) with mem := m, cursor := c } := by
  generalize hu : s.setAttempts (s.attempt + 1) = u
  have fr : TxFrame u (buildUpdate s.seg u).1 := by
    unfold buildUpdate
    split_ifs
    · exact buildRequest_frame Config.updateLimit [3] (updateFields s.seg u) u (by decide)
    · exact TxFrame.refl u
  obtain ⟨m, c, hmc⟩ := fr.eq
  rw [hmc] at fr
  by_cases hk : (buildUpdate s.seg u).2.1 = .ok
  · refine ⟨m, c, ⟨.exchange, segAddr s.seg, txBytes (buildUpdate s.seg u).1 (buildUpdate s.seg u).2.2,
      s.env.params.tUpdMs⟩, .isOpen, ?_, fr⟩
    rw [updateBuild_ok (s := s) (u := (buildUpdate s.seg u).1) (n := (buildUpdate s.seg u).2.2)
      (by rw [hu, ← hk]), callTransport, hmc]
  · refine ⟨m, c, u.xfer, .finish (buildUpdate s.seg u).2.1, ?_, fr⟩
    rw [updateBuild_stop (s := s) (u := (buildUpdate s.seg u).1) (n := (buildUpdate s.seg u).2.2)
      (by rw [hu]) hk, State.goto, hmc]

/-- An update build that fits (43_update.md R218). -/
theorem updateBuild_fits {s : State} (hw : s.mem.wf) (hd : devCountsOk s.seg s = true)
    (ho : ∀ p, (s.port p).encOffset.toInt.natAbs ≤ 2 ^ 30 - 1) (hlen : (updateBits s.seg s).length ≤ 2032) :
    ∃ (m : Memory) (c : BitVec 12) (x : Xfer),
      updateBuild s =
        { s.setAttempts (s.attempt + 1) with mem := m, cursor := c, xfer := x, fsm := .run, pt := .isOpen } ∧
      x.kind = .exchange ∧ x.addr = segAddr s.seg ∧ x.tms = s.env.params.tUpdMs ∧
      x.payload = (List.range (1 + ceil8 (updateBits s.seg s).length)).map (fun k => m.read (0x800 + k)) ∧
      TxFrame (s.setAttempts (s.attempt + 1)) { s.setAttempts (s.attempt + 1) with mem := m, cursor := c } ∧
      c.toNat = (updateBits s.seg s).length ∧ m.read 0x800 = 3 ∧
      ∀ k, 8 + k < 2048 → m.bit 0x800 (8 + k) = (updateBits s.seg s).getD k false := by
  generalize hu : s.setAttempts (s.attempt + 1) = u
  have hbits : streamBits (updateFields s.seg u) = updateBits s.seg s := by
    rw [streamBits_updateFields _ _ (by rw [← hu]; exact ho), ← hu]; rfl
  have hm : u.mem = s.mem := by rw [← hu]; rfl
  have hdu : devCountsOk s.seg u = true := by rw [← hu]; exact hd
  obtain ⟨m, c, hb, hc, hhd, hbit⟩ := buildRequest_ok (limit := Config.updateLimit)
    (header := [3]) (fields := updateFields s.seg u) (s := u) (by rw [hm]; exact hw)
    (by rw [hbits]; exact hlen) (show 8 * 1 + 2032 ≤ 2048 by decide) (show 1 ≤ 255 by decide)
  have fr := buildRequest_frame Config.updateLimit [3] (updateFields s.seg u) u (by decide)
  rw [hb] at fr
  have hb' : buildUpdate s.seg u = ({ u with mem := m, cursor := c }, .ok, 1 + ceil8 (updateBits s.seg s).length) := by
    unfold buildUpdate; rw [if_pos hdu, hb, hbits]; rfl
  have e := updateBuild_ok (s := s) (by rw [hu]; exact hb')
  rw [hbits] at hc hbit
  exact ⟨m, c, _, e, rfl, rfl, rfl, rfl, fr, hc, hhd 0 (by decide), fun k hk => hbit k hk⟩

/-- An update build that does not fit (43_update.md R226). -/
theorem updateBuild_tooLong {s : State} (hd : devCountsOk s.seg s = true)
    (ho : ∀ p, (s.port p).encOffset.toInt.natAbs ≤ 2 ^ 30 - 1) (hlen : 2032 < (updateBits s.seg s).length) :
    ∃ (m : Memory) (c : BitVec 12),
      updateBuild s = { s.setAttempts (s.attempt + 1) with
        mem := m, cursor := c, fsm := .run, pt := .finish .validation } ∧ c.toNat ≤ 2032 := by
  generalize hu : s.setAttempts (s.attempt + 1) = u
  have hbits : streamBits (updateFields s.seg u) = updateBits s.seg s := by
    rw [streamBits_updateFields _ _ (by rw [← hu]; exact ho), ← hu]; rfl
  have hdu : devCountsOk s.seg u = true := by rw [← hu]; exact hd
  have e : buildUpdate s.seg u = buildRequest Config.updateLimit [3] (updateFields s.seg u) u := by
    unfold buildUpdate; rw [if_pos hdu]
  have fr := buildRequest_frame Config.updateLimit [3] (updateFields s.seg u) u (by decide)
  obtain ⟨m, c, hmc⟩ := fr.eq
  rcases buildRequest_kind (limit := Config.updateLimit) (header := [3]) (fields := updateFields s.seg u) (s := u)
    (by decide) (by decide) with ⟨_, h, _⟩ | ⟨h1, _, h3⟩
  · rw [hbits] at h; exact absurd h (by unfold Config.updateLimit; omega)
  · have hs := updateBuild_stop (s := s) (u := (buildUpdate s.seg u).1) (n := (buildUpdate s.seg u).2.2)
      (k := .validation) (by rw [hu, e, ← h1]) (by decide)
    refine ⟨m, c, ?_, ?_⟩
    · rw [hs, e, hmc]; rfl
    · rw [hmc] at h3; exact h3

/-- An update reply whose payload is a READ_VALUES reply (43_update.md R227). -/
theorem isValuesReply_iff (s : State) : isValuesReply s = true ↔ s.rxLen ≠ 0 ∧ s.mem.read 0x900 = 3 := by
  unfold isValuesReply
  rw [Bool.and_eq_true, decide_eq_true_iff, decide_eq_true_iff]; rfl

theorem updateRet_valid {after : State → State} {s : State} (h : isValuesReply s = true) :
    updateRet after .ok s = after (parseReply s.rxLen.toNat s.seg (clearOffsets s.seg s)) := by
  unfold updateRet; rw [if_pos h]

/-- The error kind of a failed update attempt (43_update.md R223, R224, R227). -/
def updateErr : Reply → ErrKind
  | .comm => .comm
  | .checksum => .checksum
  | .ok => .protocol

theorem updateRet_fails {after : State → State} {r : Reply} {s : State} (h : r = .ok → isValuesReply s = false) :
    updateRet after r s = updateFail (updateErr r) (if r = .comm then s else clearOffsets s.seg s) := by
  cases r
  · have := h rfl
    unfold updateRet; rw [this]; rfl
  · rfl
  · rfl

/-! ## What the reply parse depends on besides RX_BUF -/

/-- Two states agree on what a reply parse reads: memory, and of each port its class, DEVCOUNT and device slots. -/
structure SameReply (s t : State) : Prop where
  mem : t.mem = s.mem
  portClass : ∀ p, t.portClass p = s.portClass p
  devCount : ∀ p, (t.port p).devCount = (s.port p).devCount
  dev : ∀ p, (t.port p).dev = (s.port p).dev

section
variable {s t : State} (h : SameReply s t)
include h

theorem rxBits_congr (q w : Nat) : rxBits t q w = rxBits s q w := by unfold rxBits; rw [h.mem]

theorem usedBits_congr (j : Fin 2) : usedBits t j = usedBits s j := rxBits_congr h _ _

theorem presentBytes_congr (p : PortIx) (q d : Nat) : presentBytes t p q d = presentBytes s p q d := by
  unfold presentBytes; simp only [h.mem, h.dev]

theorem sensorWidth_congr (p : PortIx) (q : Nat) : sensorWidth t p q = sensorWidth s p q := by
  unfold sensorWidth; rw [h.portClass, h.devCount, presentBytes_congr h]

theorem lowField_congr : lowField t = lowField s := by unfold lowField; rw [usedBits_congr h, usedBits_congr h]

theorem highField_congr (g : SegIx) : highField g t = highField g s := by
  unfold highField; rw [lowField_congr h, sensorWidth_congr h]

theorem fieldStart_congr (g : SegIx) (p : PortIx) : fieldStart g t p = fieldStart g s p := by
  unfold fieldStart; rw [lowField_congr h, highField_congr h]

theorem replyEnd_congr (g : SegIx) : replyEnd g t = replyEnd g s := by
  unfold replyEnd; rw [highField_congr h, sensorWidth_congr h]

theorem rawAt_congr (p : PortIx) (q : Nat) : rawAt t p q = rawAt s p q := by
  unfold rawAt; rw [h.portClass, h.mem, h.devCount]

theorem colorsAt_congr (q : Nat) : colorsAt t q = colorsAt s q := by simp only [colorsAt, h.mem]

theorem presentAt_congr (p : PortIx) (q : Nat) (d : SlotIx) : presentAt t p q d = presentAt s p q d := by
  unfold presentAt; rw [h.portClass, h.mem, h.devCount]

theorem rxByteAt_congr (q : Nat) : rxByteAt t q = rxByteAt s q := by unfold rxByteAt; rw [h.mem]

theorem devCountsOk_congr (g : SegIx) : devCountsOk g t = devCountsOk g s := by
  unfold devCountsOk segPorts Port.devCountInRange
  simp only [List.all_cons, List.all_nil, h.portClass, h.devCount]

end

theorem clearOffsets_sameReply (g : SegIx) (s : State) : SameReply s (clearOffsets g s) where
  mem := rfl
  portClass p := State.portClass_congr (by rw [clearOffsets_port]; split_ifs <;> rfl) rfl
  devCount p := by rw [clearOffsets_port]; split_ifs <;> rfl
  dev p := by rw [clearOffsets_port]; split_ifs <;> rfl

/-- What a valid update reply does to the channel state (43_update.md R222, R228 to R232). -/
theorem updateParse_spec {s : State} (hn : s.rxLen ≠ 0) (hd : devCountsOk s.seg s = true) :
    ∃ (c : BitVec 12) (ps : Vector Port 4) (m : Memory) (t : State),
      parseReply s.rxLen.toNat s.seg (clearOffsets s.seg s) = t ∧
      t = { s with
        cursor := c, ports := ps, mem := m,
        status := { s.status with underrun := decide (8 * s.rxLen.toNat < replyEnd s.seg s) } } ∧
      c.toNat + 8 = replyEnd s.seg s ∧
      (∀ p, p ≠ lowPort s.seg → p ≠ highPort s.seg → t.port p = s.port p) ∧
      (∀ p, p = lowPort s.seg ∨ p = highPort s.seg → t.port p =
        { s.port p with
          encOffset := 0,
          encoder := BitVec.ofInt 32 (smDecode (if p = lowPort s.seg then rxBits s 18 (usedBits s 0)
            else rxBits s (18 + usedBits s 0) (usedBits s 1))),
          raw := rawAt s p (fieldStart s.seg s p),
          color := if s.portClass p = .colorFull then colorsAt s (fieldStart s.seg s p + 3) else (s.port p).color }) ∧
      (s.mem.wf → m.wf) ∧
      (∀ a, (∀ p d k, (p = lowPort s.seg ∨ p = highPort s.seg) → presentAt s p (fieldStart s.seg s p) d = true →
          k < ((s.port p).dev[d.val]).rlen.toNat → a ≠ i2cInAddr p d k) → m.read a = s.mem.read a) ∧
      (s.mem.wf → ∀ p d k, (p = lowPort s.seg ∨ p = highPort s.seg) →
        presentAt s p (fieldStart s.seg s p) d = true → k < ((s.port p).dev[d.val]).rlen.toNat →
        m.read (i2cInAddr p d k) = rxByteAt s
          (fieldStart s.seg s p + (s.port p).devCount.toNat + 8 * presentBytes s p (fieldStart s.seg s p) d.val + 8 * k)) := by
  have hn0 : 0 < s.rxLen.toNat := by
    rcases Nat.eq_zero_or_pos s.rxLen.toNat with h | h
    · exact absurd (BitVec.eq_of_toNat_eq h) hn
    · exact h
  generalize hu : clearOffsets s.seg s = u
  have sr : SameReply s u := by rw [← hu]; exact clearOffsets_sameReply _ _
  have hue : u = { s with ports := u.ports } := by rw [← hu]; exact clearOffsets_eq _ _
  have hport : ∀ p, u.port p = if p = lowPort s.seg ∨ p = highPort s.seg then { s.port p with encOffset := 0 }
      else s.port p := fun p => by rw [← hu, clearOffsets_port]
  obtain ⟨⟨c, ps, m, e⟩, hc, hp1, hp2, hwf, hout, hin⟩ :=
    parseReply_spec (n := s.rxLen.toNat) (g := s.seg) (s := u) hn0 (by rw [devCountsOk_congr sr]; exact hd)
  generalize ht : parseReply s.rxLen.toNat s.seg u = t at *
  have hm : t.mem = m := by rw [e]
  have hcc : t.cursor = c := by rw [e]
  have hdev : ∀ p, (u.port p).dev = (s.port p).dev := sr.dev
  simp only [fieldStart_congr sr, replyEnd_congr sr, rawAt_congr sr, colorsAt_congr sr, presentAt_congr sr,
    rxByteAt_congr sr, rxBits_congr sr, usedBits_congr sr, presentBytes_congr sr, sr.mem, sr.portClass, sr.devCount, hdev,
    hm, hcc] at hc hp1 hp2 hwf hout hin e
  refine ⟨c, ps, m, t, rfl, ?_, hc, ?_, ?_, hwf, hout, hin⟩
  · rw [e, hue]
  · intro p h1 h2
    rw [hp1 p h1 h2, hport, if_neg (fun e => e.elim h1 h2)]
  · intro p h1
    rw [hp2 p h1, hport, if_pos h1]

end Sys2Proof.Machine
end

