-- ==== Sys2Proof/Laws/Encoding.lean ====
section
/-! SUPPORT. The bits of a command word and of a 32-bit count, and the fields of a command word built from its fields
(30_encoding.md R110, R143). -/

namespace Sys2Proof

/-- Bit `i` of a command word (30_encoding.md R110). -/
theorem getLsbD_commandWord (op : BitVec 5) (a : Byte) (b : BitVec 3) (sel : BufSel) (w : BitVec 6) (i : Nat) :
    (commandWord op a b sel w).getLsbD i =
      if i < 5 then op.getLsbD i
      else if i < 8 then false
      else if i < 16 then a.getLsbD (i - 8)
      else if i < 19 then b.getLsbD (i - 16)
      else if i < 20 then decide (sel = .rx)
      else w.getLsbD (i - 20) := by
  have key : ∀ s1 : BitVec 1, BitVec.getLsbD (w := 6 + 6 + 1 + 3 + 8 + 3 + 5) (0#6 ++ w ++ s1 ++ b ++ a ++ 0#3 ++ op) i =
      if i < 5 then op.getLsbD i
      else if i < 8 then false
      else if i < 16 then a.getLsbD (i - 8)
      else if i < 19 then b.getLsbD (i - 16)
      else if i < 20 then s1.getLsbD 0
      else w.getLsbD (i - 20) := by
    intro s1
    simp only [BitVec.getLsbD_append]
    split_ifs <;> first
      | rfl
      | omega
      | exact BitVec.getLsbD_zero
      | (congr 1; omega)
      | (rw [BitVec.getLsbD_zero, BitVec.getLsbD_of_ge _ _ (by omega)])
  cases sel
  · exact (key 0#1).trans (by simp)
  · exact (key 1#1).trans (by simp)

section
variable (op : BitVec 5) (a : Byte) (b : BitVec 3) (sel : BufSel) (w : BitVec 6)

theorem fieldOp_commandWord : fieldOp (commandWord op a b sel w) = op.toNat := by
  unfold fieldOp; congr 1
  apply BitVec.eq_of_getLsbD_eq; intro i hi
  rw [BitVec.getLsbD_extractLsb', decide_eq_true hi, Bool.true_and, getLsbD_commandWord, Nat.zero_add, if_pos hi]

theorem fieldA_commandWord : fieldA (commandWord op a b sel w) = a := by
  unfold fieldA
  apply BitVec.eq_of_getLsbD_eq; intro i hi
  rw [BitVec.getLsbD_extractLsb', decide_eq_true hi, Bool.true_and, getLsbD_commandWord, if_neg (by omega),
    if_neg (by omega), if_pos (by omega), Nat.add_sub_cancel_left]

theorem fieldB_commandWord : fieldB (commandWord op a b sel w) = b := by
  unfold fieldB
  apply BitVec.eq_of_getLsbD_eq; intro i hi
  rw [BitVec.getLsbD_extractLsb', decide_eq_true hi, Bool.true_and, getLsbD_commandWord]
  simp (disch := omega) only [↓if_pos, ↓if_neg, Nat.add_sub_cancel_left]

theorem fieldS_commandWord : fieldS (commandWord op a b sel w) = sel := by
  unfold fieldS
  rw [getLsbD_commandWord]
  cases sel <;> rfl

theorem fieldW_commandWord : fieldW (commandWord op a b sel w) = w := by
  unfold fieldW
  apply BitVec.eq_of_getLsbD_eq; intro i hi
  rw [BitVec.getLsbD_extractLsb', decide_eq_true hi, Bool.true_and, getLsbD_commandWord]
  simp (disch := omega) only [↓if_neg, Nat.add_sub_cancel_left]

theorem reservedClear_commandWord : reservedClear (commandWord op a b sel w) = true := by
  unfold reservedClear
  simp only [Bool.and_eq_true, beq_iff_eq]
  constructor
  · apply BitVec.eq_of_getLsbD_eq; intro i hi
    rw [BitVec.getLsbD_extractLsb', decide_eq_true hi, Bool.true_and, getLsbD_commandWord, if_neg (by omega),
      if_pos (by omega)]
    simp
  · apply BitVec.eq_of_getLsbD_eq; intro i hi
    rw [BitVec.getLsbD_extractLsb', decide_eq_true hi, Bool.true_and, getLsbD_commandWord]
    simp (disch := omega) [↓if_neg, BitVec.getLsbD_of_ge]

end

/-- Bit `i` of a count built from bytes (30_encoding.md R143). -/
theorem getLsbD_wordOfBytes (b0 b1 b2 b3 : Byte) (i : Nat) :
    (wordOfBytes b0 b1 b2 b3).getLsbD i =
      if i < 8 then b0.getLsbD i
      else if i < 16 then b1.getLsbD (i - 8)
      else if i < 24 then b2.getLsbD (i - 16)
      else b3.getLsbD (i - 24) := by
  show BitVec.getLsbD (w := 8 + 8 + 8 + 8) (b3 ++ b2 ++ b1 ++ b0) i = _
  simp only [BitVec.getLsbD_append]
  split_ifs <;> first
    | rfl
    | omega

/-- The bytes of a count make the count. -/
theorem wordOfBytes_bytes (t : Word) :
    wordOfBytes (t.extractLsb' 0 8) (t.extractLsb' 8 8) (t.extractLsb' 16 8) (t.extractLsb' 24 8) = t := by
  apply BitVec.eq_of_getLsbD_eq; intro i hi
  rw [getLsbD_wordOfBytes]
  simp only [BitVec.getLsbD_extractLsb']
  split_ifs with h1 h2 h3
  · simp [h1]
  · have e : 8 + (i - 8) = i := by omega
    have : i - 8 < 8 := by omega
    simp [e, this]
  · have e : 16 + (i - 16) = i := by omega
    have : i - 16 < 8 := by omega
    simp [e, this]
  · have e : 24 + (i - 24) = i := by omega
    have : i - 24 < 8 := by omega
    simp [e, this]

/-- Byte `k` of a count built from bytes. -/
theorem extract_wordOfBytes (b0 b1 b2 b3 : Byte) :
    (wordOfBytes b0 b1 b2 b3).extractLsb' 0 8 = b0 ∧ (wordOfBytes b0 b1 b2 b3).extractLsb' 8 8 = b1 ∧
      (wordOfBytes b0 b1 b2 b3).extractLsb' 16 8 = b2 ∧ (wordOfBytes b0 b1 b2 b3).extractLsb' 24 8 = b3 := by
  refine ⟨?_, ?_, ?_, ?_⟩ <;>
    (apply BitVec.eq_of_getLsbD_eq; intro i hi
     rw [BitVec.getLsbD_extractLsb', decide_eq_true hi, Bool.true_and, getLsbD_wordOfBytes])
  all_goals simp (disch := omega) only [↓if_pos, ↓if_neg, Nat.zero_add, Nat.add_sub_cancel_left]

/-- The count of bytes has those bytes. -/
theorem bytesOfWord_wordOfBytes (b0 b1 b2 b3 : Byte) : bytesOfWord (wordOfBytes b0 b1 b2 b3) = [b0, b1, b2, b3] := by
  obtain ⟨h0, h1, h2, h3⟩ := extract_wordOfBytes b0 b1 b2 b3
  unfold bytesOfWord; rw [h0, h1, h2, h3]

/-- A byte of a known value. -/
theorem byte_eq_of_toNat {b : Byte} {n : Nat} (h : b.toNat = n) : b = BitVec.ofNat 8 n := by
  rw [← h, BitVec.ofNat_toNat, BitVec.setWidth_eq]

end Sys2Proof
end

