-- ==== Sys2Proof/Laws/HostBus.lean ====
section
/-! SUPPORT. The register map and the host bus, said once: which word an address reaches (10_state.md R31), and what a
host access does (20_memory.md R81 to R86). -/

namespace Sys2Proof.Machine

/-! ## The register map -/

theorem addr_toNat (r : Reg) : r.addr.toNat = r.offset := by
  unfold Reg.addr
  rw [BitVec.toNat_ofNat]
  apply Nat.mod_eq_of_lt
  cases r <;> simp only [Reg.offset] <;> omega

theorem fin_ofNat_eq {n : Nat} [NeZero n] {x : Nat} (i : Fin n) (h : x % n = i.val) : Fin.ofNat n x = i := Fin.ext h

/-- Every mapped word is found at its address. -/
theorem decodeReg_offset (r : Reg) : decodeReg r.offset = some r := by
  have port : ∀ (p : PortIx) (o : Nat), o < 0x80 → decodeReg (0x100 + 0x80 * p.val + o) = portReg p o := by
    intro p o ho
    have := p.isLt
    unfold decodeReg
    simp (disch := omega) only [↓if_pos, ↓if_neg]
    rw [fin_ofNat_eq p (by omega), show (0x100 + 0x80 * p.val + o - 0x100) % 0x80 = o by omega]
  cases r with
  | motorEn p => exact port p 0 (by omega)
  | motorSpeed p => exact port p 4 (by omega)
  | encOffset p => exact port p 8 (by omega)
  | encoder p => exact port p 12 (by omega)
  | sensorType p => exact port p 0x10 (by omega)
  | rawValue p => exact port p 0x14 (by omega)
  | color p i =>
    have := i.isLt
    rw [Reg.offset, Nat.add_assoc, port p _ (by omega)]
    unfold portReg
    simp (disch := omega) only [↓if_pos, ↓if_neg]
    congr 2; apply fin_ofNat_eq; omega
  | i2cCfg p => exact port p 0x28 (by omega)
  | i2cDev p d =>
    have := d.isLt
    rw [Reg.offset, Nat.add_assoc, port p _ (by omega)]
    unfold portReg
    simp (disch := omega) only [↓if_pos, ↓if_neg]
    congr 2; apply fin_ofNat_eq; omega
  | i2cOut p d j =>
    have := p.isLt; have := d.isLt; have := j.isLt
    unfold Reg.offset decodeReg
    simp (disch := omega) only [↓if_pos, ↓if_neg]
    congr 2 <;> (apply fin_ofNat_eq; omega)
  | i2cIn p d j =>
    have := p.isLt; have := d.isLt; have := j.isLt
    unfold Reg.offset decodeReg
    simp (disch := omega) only [↓if_pos, ↓if_neg]
    congr 2 <;> (apply fin_ofNat_eq; omega)
  | txBuf j =>
    have := j.isLt
    unfold Reg.offset decodeReg
    simp (disch := omega) only [↓if_pos, ↓if_neg]
    congr 2; apply fin_ofNat_eq; omega
  | rxBuf j =>
    have := j.isLt
    unfold Reg.offset decodeReg
    simp (disch := omega) only [↓if_pos, ↓if_neg]
    congr 2; apply fin_ofNat_eq; omega
  | _ => rfl

theorem fin_ofNat_val (n : Nat) [NeZero n] (x : Nat) : (Fin.ofNat n x).val = x % n := rfl

theorem portReg_offset {p : PortIx} {o : Nat} {r : Reg} (ho : o % 4 = 0) (h : portReg p o = some r) : r.offset = 0x100 + 0x80 * p.val + o := by
  unfold portReg at h
  repeat' (split at h)
  all_goals (cases h; try simp only [Reg.offset, fin_ofNat_val]; omega)

theorem ite_eq_some {α : Type} {c : Prop} [Decidable c] {x y : Option α} {r : α} (h : (if c then x else y) = some r) :
    (c ∧ x = some r) ∨ (¬c ∧ y = some r) := by
  by_cases hc : c
  · rw [if_pos hc] at h; exact .inl ⟨hc, h⟩
  · rw [if_neg hc] at h; exact .inr ⟨hc, h⟩

/-- The word found at an address is the one mapped there. -/
theorem decodeReg_sound {a : Nat} {r : Reg} (ha : a % 4 = 0) (h : decodeReg a = some r) : r.offset = a := by
  unfold decodeReg at h
  rcases ite_eq_some h with ⟨c1, h⟩ | ⟨c1, h⟩
  · cases h; exact c1.symm
  rcases ite_eq_some h with ⟨c2, h⟩ | ⟨c2, h⟩
  · cases h; exact c2.symm
  rcases ite_eq_some h with ⟨c3, h⟩ | ⟨c3, h⟩
  · cases h; exact c3.symm
  rcases ite_eq_some h with ⟨c4, h⟩ | ⟨c4, h⟩
  · cases h; exact c4.symm
  rcases ite_eq_some h with ⟨c5, h⟩ | ⟨c5, h⟩
  · cases h; exact c5.symm
  rcases ite_eq_some h with ⟨c6, h⟩ | ⟨c6, h⟩
  · cases h
  rcases ite_eq_some h with ⟨c7, h⟩ | ⟨c7, h⟩
  · rw [portReg_offset (by omega) h, fin_ofNat_val]; omega
  rcases ite_eq_some h with ⟨c8, h⟩ | ⟨c8, h⟩
  · cases h
  rcases ite_eq_some h with ⟨c9, h⟩ | ⟨c9, h⟩
  · cases h; simp only [Reg.offset, fin_ofNat_val]; omega
  rcases ite_eq_some h with ⟨c10, h⟩ | ⟨c10, h⟩
  · cases h; simp only [Reg.offset, fin_ofNat_val]; omega
  rcases ite_eq_some h with ⟨c11, h⟩ | ⟨c11, h⟩
  · cases h; simp only [Reg.offset, fin_ofNat_val]; omega
  rcases ite_eq_some h with ⟨c12, h⟩ | ⟨c12, h⟩
  · cases h; simp only [Reg.offset, fin_ofNat_val]; omega
  cases h

theorem portReg_none (p : PortIx) (o : Nat) (h4 : o % 4 = 0) (ho : o < 0x80) : portReg p o = none ↔ ((0x2C ≤ o ∧ o < 0x30) ∨ 0x50 ≤ o) := by
  unfold portReg
  repeat' split
  all_goals (simp only [reduceCtorEq, true_iff, false_iff]; omega)

/-- An aligned address without a word is one 10_state.md R31 lists as unmapped. -/
theorem decodeReg_none (a : Nat) (h4 : a % 4 = 0) : decodeReg a = none ↔ unmapped a := by
  unfold decodeReg unmapped
  by_cases c0 : a = 0x000
  · rw [if_pos c0]; simp only [reduceCtorEq, false_iff]; omega
  rw [if_neg c0]
  by_cases c1 : a = 0x004
  · rw [if_pos c1]; simp only [reduceCtorEq, false_iff]; omega
  rw [if_neg c1]
  by_cases c2 : a = 0x008
  · rw [if_pos c2]; simp only [reduceCtorEq, false_iff]; omega
  rw [if_neg c2]
  by_cases c3 : a = 0x00C
  · rw [if_pos c3]; simp only [reduceCtorEq, false_iff]; omega
  rw [if_neg c3]
  by_cases c4 : a = 0x010
  · rw [if_pos c4]; simp only [reduceCtorEq, false_iff]; omega
  rw [if_neg c4]
  by_cases c5 : a < 0x100
  · rw [if_pos c5]; simp only [true_iff]; omega
  rw [if_neg c5]
  by_cases c6 : a < 0x300
  · rw [if_pos c6, portReg_none _ _ (by omega) (by omega)]; omega
  rw [if_neg c6]
  by_cases c7 : a < 0x400
  · rw [if_pos c7]; simp only [true_iff]; omega
  rw [if_neg c7]
  by_cases c8 : a < 0x600
  · rw [if_pos c8]; simp only [reduceCtorEq, false_iff]; omega
  rw [if_neg c8]
  by_cases c9 : a < 0x800
  · rw [if_pos c9]; simp only [reduceCtorEq, false_iff]; omega
  rw [if_neg c9]
  by_cases c10 : a < 0x900
  · rw [if_pos c10]; simp only [reduceCtorEq, false_iff]; omega
  rw [if_neg c10]
  by_cases c11 : a < 0xA00
  · rw [if_pos c11]; simp only [reduceCtorEq, false_iff]; omega
  rw [if_neg c11]
  simp only [true_iff]; omega

/-- The address of a mapped word is aligned. -/
theorem offset_aligned (r : Reg) : r.offset % 4 = 0 := by
  cases r <;> simp only [Reg.offset] <;> omega

theorem busReg_addr (r : Reg) : busReg r.addr 4 = some r := by
  unfold busReg
  rw [addr_toNat, decodeReg_offset, if_pos ⟨rfl, offset_aligned r⟩]

/-! ## Words of the byte arrays (20_memory.md R84) -/

theorem readWord_congr {m m' : Memory} {a : Nat} (h : ∀ i, i < 4 → m.read (a+i) = m'.read (a+i)) : m.readWord a = m'.readWord a := by
  unfold Memory.readWord
  rw [show m.read a = m'.read a from h 0 (by omega), h 1 (by omega), h 2 (by omega), h 3 (by omega)]

theorem read_writeWord {m : Memory} (hw : m.wf) (a : Nat) (v : Word) (x : Nat) : (m.writeWord a v).read x = if a ≤ x ∧ x < a + 4 then (bytesOfWord v).getD (x - a) 0 else m.read x := by
  unfold Memory.writeWord; rw [Memory.read_writeBytes hw]; rfl

theorem readWord_writeWord {m : Memory} (hw : m.wf) (a : Nat) (v : Word) : (m.writeWord a v).readWord a = v := by
  unfold Memory.readWord
  rw [read_writeWord hw, read_writeWord hw, read_writeWord hw, read_writeWord hw]
  rw [if_pos (by omega), if_pos (by omega), if_pos (by omega), if_pos (by omega)]
  rw [Nat.sub_self, Nat.add_sub_cancel_left, Nat.add_sub_cancel_left, Nat.add_sub_cancel_left]
  exact wordOfBytes_bytes v

theorem readWord_writeWord_ne {m : Memory} (hw : m.wf) (a a' : Nat) (v : Word) (h : a' + 4 ≤ a ∨ a + 4 ≤ a') : (m.writeWord a v).readWord a' = m.readWord a' := by
  apply readWord_congr
  intro i hi
  rw [read_writeWord hw, if_neg (by omega)]

/-! ## Host accesses -/

theorem step_host {s : State} {x : HostAccess} {ts} (h : s.env.turns = .host x :: ts) : step s = hostStep x (popTurn s) := by
  simp only [step, h]
theorem popTurn_eq {s : State} {t} {ts} (h : s.env.turns = t :: ts) : popTurn s = { s with env := { s.env with turns := ts}} := by
  unfold popTurn; rw [h]; rfl

theorem hostRead_mapped (r : Reg) (s : State) :
    hostRead r.addr 4 s = .next ((takePoll r (takeBusyDraw r s)).note (.hostRead r.addr (busValue r s))) := by
  simp only [hostRead, busReg_addr]

theorem mustPoll_eq_false {s : State} : mustPoll s = false ↔ s.status.busy = false ∧ s.env.unpolled = false :=
  Bool.or_eq_false_iff

theorem mustPoll_eq_true {s : State} : mustPoll s = true ↔ s.status.busy = true ∨ s.env.unpolled = true :=
  Bool.or_eq_true_iff

theorem not_barred {s : State} (h : mustPoll s = false) (r : Reg) : ¬(mustPoll s = true ∧ r ≠ .status) := by
  rw [h]; exact fun k => Bool.false_ne_true k.1

theorem takeBusyDraw_status (s : State) : takeBusyDraw .status s = s := if_neg (fun h => h.2 rfl)

theorem busValue_status (s : State) : busValue .status s = s.status.toWord := if_neg (fun h => h.2 rfl)

theorem takePoll_status (s : State) :
    takePoll .status s = s.setEnv { s.env with unpolled := s.env.unpolled && s.status.busy } := rfl

theorem takePoll_other {r : Reg} (hr : r ≠ .status) (s : State) : takePoll r s = s := if_neg hr

/-- Without a duty to poll, a read of any word leaves it so. -/
theorem takePoll_free {s : State} (h : mustPoll s = false) (r : Reg) : takePoll r s = s := by
  unfold takePoll
  split_ifs
  · have e : (s.env.unpolled && s.status.busy) = s.env.unpolled := by rw [(mustPoll_eq_false.1 h).2]; rfl
    rw [e]; rfl
  · rfl

theorem takeBusyDraw_free {s : State} (h : mustPoll s = false) (r : Reg) : takeBusyDraw r s = s := if_neg (not_barred h r)

theorem busValue_free {s : State} (h : mustPoll s = false) (r : Reg) : busValue r s = readReg s r := if_neg (not_barred h r)

theorem takeBusyDraw_barred {s : State} (h : mustPoll s = true) {r : Reg} (hr : r ≠ .status) :
    takeBusyDraw r s = s.setEnv { s.env with draws := s.env.draws + 1 } := if_pos ⟨h, hr⟩

theorem busValue_barred {s : State} (h : mustPoll s = true) {r : Reg} (hr : r ≠ .status) :
    busValue r s = Config.busyReadDraw s.env.draws := if_pos ⟨h, hr⟩

theorem hostWrite_free {s : State} {r : Reg} {v : Word} (h : mustPoll s = false) :
    hostWrite r.addr 4 v s = .next ((writeReg r v s).note (.hostWrite r.addr v (writeAccepted r v))) := by
  simp only [hostWrite, busReg_addr]
  rw [if_neg (not_barred h r)]

theorem hostWrite_status (v : Word) (s : State) :
    hostWrite (Reg.addr .status) 4 v s = .next ((writeReg .status v s).note (.hostWrite (Reg.addr .status) v true)) := by
  simp only [hostWrite, busReg_addr]
  rw [if_neg (fun h => h.2 rfl)]; rfl

theorem hostWrite_barred {s : State} {r : Reg} (h : mustPoll s = true) (hr : r ≠ .status) (v : Word) :
    hostWrite r.addr 4 v s = .fault (.hostContractViolation (faultRecord (.write r.addr 4 v) s)) := by
  simp only [hostWrite, busReg_addr]
  rw [if_pos ⟨h, hr⟩]

/-- Everything a host write that is no fault can do. -/
theorem hostWrite_cases {a : Addr} {size : Nat} {v : Word} {s t : State} (h : hostWrite a size v s = .next t) :
    ∃ r, t = (writeReg r v s).note (.hostWrite a v (writeAccepted r v)) ∧ (mustPoll s = true → r = .status) := by
  unfold hostWrite at h
  cases hr : busReg a size with
  | none => rw [hr] at h; cases h
  | some r =>
    rw [hr] at h
    dsimp only at h
    split_ifs at h with hc
    cases h
    refine ⟨r, rfl, fun hb => ?_⟩
    by_contra hn
    exact hc ⟨hb, hn⟩

/-- Everything a host read that is no fault can do. -/
theorem hostRead_cases {a : Addr} {size : Nat} {s t : State} (h : hostRead a size s = .next t) :
    ∃ e : Env, t = s.setEnv e ∧ e.params = s.env.params ∧ e.turns = s.env.turns ∧
      (s.status.busy = true → e.unpolled = s.env.unpolled) := by
  unfold hostRead at h
  cases hr : busReg a size with
  | none => rw [hr] at h; cases h
  | some r =>
    rw [hr] at h
    cases h
    have hp : s.status.busy = true → (s.env.unpolled && s.status.busy) = s.env.unpolled := by
      intro hb; rw [hb, Bool.and_true]
    unfold takePoll takeBusyDraw
    split_ifs
    · exact ⟨_, rfl, rfl, rfl, hp⟩
    · exact ⟨_, rfl, rfl, rfl, hp⟩
    · exact ⟨_, rfl, rfl, rfl, fun _ => rfl⟩
    · exact ⟨_, rfl, rfl, rfl, fun _ => rfl⟩

/-! ## Turns -/

theorem turns_self {s : State} (h : s.env.turns = []) : { s with env := { s.env with turns := [] } } = s := by
  have : { s.env with turns := [] } = s.env := by
    generalize s.env = e at *
    cases e; simp only at h; subst h; rfl
  rw [this]

end Sys2Proof.Machine
end

