-- ==== Sys2Proof/Laws/PerInstr.lean ====
section
/-! SUPPORT. What holds of every instruction as a term: the code of a well-formed instruction fits its carrier
(30_encoding.md R110, R114, R124, R125). -/

namespace Sys2Proof

/-- A code fits its carrier: a command word has its reserved fields 0; a payload has 1 to 255 bytes, the first of
them a tag 1..5. -/
def Code.fits : Code → Prop
  | .command w => w.extractLsb' 5 3 = 0 ∧ w.extractLsb' 26 6 = 0
  | .message p => 1 ≤ p.length ∧ p.length ≤ 255 ∧ 1 ≤ (p.headD 0).toNat ∧ (p.headD 0).toNat ≤ 5

/-- A command word built from its fields fits. -/
theorem fits_commandWord (op : BitVec 5) (a : Byte) (b : BitVec 3) (sel : BufSel) (w : BitVec 6) :
    (Code.command (commandWord op a b sel w)).fits := by
  have h := reservedClear_commandWord op a b sel w
  rw [reservedClear, Bool.and_eq_true, beq_iff_eq, beq_iff_eq] at h
  exact h

namespace Laws.CodeFits

/-- The code of a well-formed instruction fits its carrier. -/
def Statement (i : Instr) : Prop := i.wellFormed = true → (encode i).fits

theorem nop : Statement .nop := fun _ => fits_commandWord ..

theorem bsClear : Statement .bsClear := fun _ => fits_commandWord ..

theorem bsWrite (a : Byte) (b : BitVec 3) (w : BitVec 6) : Statement (.bsWrite a b w) := fun _ => fits_commandWord ..

theorem bsRead (a : Byte) (b : BitVec 3) (sel : BufSel) (w : BitVec 6) : Statement (.bsRead a b sel w) :=
  fun _ => fits_commandWord ..

theorem bsNeeded : Statement .bsNeeded := fun _ => fits_commandWord ..

theorem frameTx (a : Byte) : Statement (.frameTx a) := fun _ => fits_commandWord ..

theorem frameRx : Statement .frameRx := fun _ => fits_commandWord ..

theorem negotiate : Statement .negotiate := fun _ => fits_commandWord ..

theorem negotiateSeg (a : Byte) : Statement (.negotiateSeg a) := fun _ => fits_commandWord ..

theorem update : Statement .update := fun _ => fits_commandWord ..

theorem updateSeg (a : Byte) : Statement (.updateSeg a) := fun _ => fits_commandWord ..

theorem changeAddr (a : Byte) : Statement (.changeAddr a) := fun _ => fits_commandWord ..

theorem estop : Statement .estop := fun _ => fits_commandWord ..

theorem setTimeout : Statement .setTimeout := fun _ => fits_commandWord ..

theorem wireChangeAddress (newAddr : Byte) : Statement (.wireChangeAddress newAddr) := fun _ => by
  simp [encode, Code.fits]

theorem wireSetSensorType (typeLo typeHi : Byte) (subBlocks : List Byte) :
    Statement (.wireSetSensorType typeLo typeHi subBlocks) := fun h => by
  simp [Instr.wellFormed] at h
  simp [encode, Code.fits]
  omega

theorem wireReadValues (request : List Byte) : Statement (.wireReadValues request) := fun h => by
  simp [Instr.wellFormed] at h
  simp [encode, Code.fits]
  omega

theorem wireEmergencyStop : Statement .wireEmergencyStop := fun _ => by simp [encode, Code.fits]

theorem wireSetTimeout (t : Word) : Statement (.wireSetTimeout t) := fun _ => by simp [encode, Code.fits, bytesOfWord]

end Laws.CodeFits

end Sys2Proof
end

