-- ==== Sys2Proof/Tests/Slice0.lean ====
section
/-! SUPPORT. Tests: ill-formed terms refused, words written out from the spec's encodings, one-step tests whose
expected values are those of 95_test_vectors.md, and a witness of the hypotheses of each obligation. -/

namespace Sys2Proof.Tests

open Sys2Proof.Machine

/-! ## Helpers -/

/-- The state a step or a meaning goes on to. -/
def next? : Host.Outcome State Fault Refusal → Option State
  | .next t => some t
  | .fault _ => none
  | .refused _ => none

/-- The fault a step stops with. -/
def fault? : Host.Outcome State Fault Refusal → Option Fault
  | .next _ => none
  | .fault e => some e
  | .refused _ => none

/-- What `f` reads after instruction `i` at `s`. -/
def result {α : Type} (i : Instr) (s : State) (f : State → α) : Option α := (next? (exec i s)).map f

/-- The reset state with a command word started. -/
def run (w : Word) : State := startCommand w State.reset

/-- A port with a sensor type. -/
def typed (c : Byte) : Port := { Port.reset with code := c }

/-- A device slot's lengths. -/
def lengths (same : Bool) (w r : BitVec 4) : Dev := { Dev.reset with same := same, wlen := w, rlen := r }

/-- Bytes of TX_BUF. -/
def tx (s : State) (n : Nat) : List Nat := (txBytes s n).map BitVec.toNat

/-- A state at the `T.Write` of an exchange or of FRAME_TX, with the answer OK. -/
def sending (w : Word) (k : XferKind) (a : Byte) (p : List Byte) : State :=
  { run w with
    fsm := .send, xfer := { kind := k, addr := a, payload := p, tms := 0 },
    env := { Env.reset with writeAnswers := [true], unpolled := true } }

/-- The last frame written. -/
def frame (s : State) : List Nat :=
  match s.env.history with
  | .wrote f _ :: _ => f.map BitVec.toNat
  | _ => []

/-- A state in which the exchange of a segment has returned `r` with payload `p` in RX_BUF. -/
def returned (w : Word) (g : SegIx) (n : BitVec 2) (r : Reply) (p : List Byte) : State :=
  { run w with
    seg := g, attempt := n, mem := Memory.writeBytes [] 0x900 p, rxLen := BitVec.ofNat 8 p.length, pt := .ret r,
    status := { (run w).status with attempts := n, seg := g, rxlen := BitVec.ofNat 8 p.length } }

/-- The instruction a code decodes to. -/
def decoded (c : Code) : Option Instr := (decode c).toOption

/-- Why a code does not decode. -/
def rejected (c : Code) : Option DecodeError :=
  match decode c with
  | .ok _ => none
  | .error e => some e

/-! ## Well-formedness: every check refuses an ill-formed term -/

theorem test_refuses_write_width : (Instr.bsWrite 0 0 33).wellFormed = false := by decide

theorem test_refuses_read_width : (Instr.bsRead 0 0 .rx 33).wellFormed = false := by decide

theorem test_refuses_long_negotiation : (Instr.wireSetSensorType 0 0 (List.replicate 253 0)).wellFormed = false := by
  decide +kernel

theorem test_refuses_short_request : (Instr.wireReadValues [0, 0]).wellFormed = false := by decide

theorem test_refuses_long_request : (Instr.wireReadValues (List.replicate 255 0)).wellFormed = false := by
  decide +kernel

/-! ## Decoding: words written out from 30_encoding.md R110, fields W, S, B, A, reserved, OP from the left -/

/-- A command word from its fields, bit for bit: reserved, W, S, B, A, reserved, OP. -/
theorem test_decode_bitstream :
    decoded (.command 0b000000_000000_0_000_00000000_000_00000) = some .nop ∧
    decoded (.command 0b000000_111111_1_111_11111111_000_00001) = some .bsClear ∧
    decoded (.command 0b000000_000101_0_011_00000001_000_00010) = some (.bsWrite 1 3 5) ∧
    decoded (.command 0b000000_000010_0_111_11111111_000_00011) = some (.bsRead 255 7 .tx 2) ∧
    decoded (.command 0b000000_001010_1_000_00000001_000_00011) = some (.bsRead 1 0 .rx 10) ∧
    decoded (.command 0b000000_111111_0_000_00000000_000_00100) = some .bsNeeded := by decide

theorem test_decode_frame :
    decoded (.command 0b000000_000000_0_000_00000010_000_00101) = some (.frameTx 2) ∧
    decoded (.command 0b000000_000000_0_000_00000010_000_00110) = some .frameRx := by decide

theorem test_decode_negotiation :
    decoded (.command 0b000000_000000_0_000_00000000_000_00111) = some .negotiate ∧
    decoded (.command 0b000000_000000_0_000_00000001_000_01000) = some (.negotiateSeg 1) := by decide

theorem test_decode_update :
    decoded (.command 0b000000_000000_0_000_00000101_000_01001) = some .update ∧
    decoded (.command 0b000000_000000_0_000_00000010_000_01010) = some (.updateSeg 2) := by decide

theorem test_decode_auxiliary :
    decoded (.command 0b000000_000000_0_000_00000111_000_01011) = some (.changeAddr 7) ∧
    decoded (.command 0b000000_000000_0_000_00000000_000_01100) = some .estop ∧
    decoded (.command 0b000000_000000_0_000_00000000_000_01101) = some .setTimeout := by decide

/-- V1.6, V1.7, V1.12 to V1.15. -/
theorem test_decode_boundaries :
    decoded (.command 0x02000002) = some (.bsWrite 0 0 32) ∧ rejected (.command 0x02100002) = some .width ∧
    rejected (.command 0x0000000E) = some .reservedOp ∧ rejected (.command 0x0000001F) = some .reservedOp ∧
    rejected (.command 0x00000020) = some .reservedBits ∧ rejected (.command 0x04000009) = some .reservedBits := by
  decide

/-- 30_encoding.md R125, R133, R127, R143; the payloads are V9.5, V7.1, V8.1, V9.1, V9.4. -/
theorem test_decode_messages :
    decoded (.message [0x01, 0x03]) = some (.wireChangeAddress 3) ∧
    decoded (.message [0x02, 0x00, 0x00]) = some (.wireSetSensorType 0 0 []) ∧
    decoded (.message [0x03, 0x00, 0x00, 0x00]) = some (.wireReadValues [0, 0, 0]) ∧
    decoded (.message [0x04]) = some .wireEmergencyStop ∧
    decoded (.message [0x05, 0x78, 0x56, 0x34, 0x12]) = some (.wireSetTimeout 0x12345678) ∧
    rejected (.message [0x00]) = some .unknownTag ∧ rejected (.message [0x06]) = some .unknownTag ∧
    rejected (.message []) = some .badLength ∧ rejected (.message [0x04, 0x00]) = some .badLength := by decide

/-- Every row of the opcode table decodes to its constructor. -/
theorem test_table_rows :
    (List.range 14).map (decodeTableWord 32) =
      [some .nop, some .bsClear, some (.bsWrite 0 0 0), some (.bsRead 0 0 .tx 0), some .bsNeeded, some (.frameTx 0),
        some .frameRx, some .negotiate, some (.negotiateSeg 0), some .update, some (.updateSeg 0),
        some (.changeAddr 0), some .estop, some .setTimeout] ∧
    [1, 2, 3, 4, 5].map (decodeTableWord 8) =
      [some (.wireChangeAddress 0), some (.wireSetSensorType 0 0 []), some (.wireReadValues [0, 0, 0]),
        some .wireEmergencyStop, some (.wireSetTimeout 0)] := by decide

/-- The next step after loading a row's word fetches its instruction. -/
theorem test_fetch_rows :
    (List.range 14).all (fun w => fetch (State.reset.withFetchWord 32 w) == decodeTableWord 32 w) = true ∧
    [1, 2, 3, 4, 5].all (fun w => fetch (State.reset.withFetchWord 8 w) == decodeTableWord 8 w) = true := by decide

/-- The next step after loading a row's word goes on. -/
theorem test_step_rows :
    (List.range 14).all (fun w => (next? (step (State.reset.withFetchWord 32 w))).isSome) = true ∧
    [1, 2, 3, 4, 5].all (fun w => (next? (step (State.reset.withFetchWord 8 w))).isSome) = true := by decide

/-! ## One step of each command -/

/-- STATUS reads DONE = 1 and nothing else. -/
theorem test_nop : result .nop (run 0) (readReg · .status) = some 2 := by decide

/-- V3.14. -/
theorem test_bs_clear :
    result .bsClear { run 1 with mem := [(0x800, 0xF6), (0x8FF, 7), (0x900, 5)], cursor := 9 }
      (fun t => (t.mem, t.cursor)) = some ([(0x900, 5)], 0) := by decide

/-- V3.4. -/
theorem test_bs_write_straddles :
    result (.bsWrite 1 0 12) { run 2 with cursor := 3, arg0 := 0xABC } (fun t => (tx t 3, t.cursor)) =
      some ([0x00, 0xE0, 0x55], 15) := by decide

/-- V3.5. -/
theorem test_bs_write_assigns_zeros :
    result (.bsWrite 0 0 3) { run 2 with cursor := 2, arg0 := 0b010, mem := [(0x800, 0xFF)] } (fun t => tx t 1) =
      some [0xEB] := by decide

/-- V3.3, the second read. -/
theorem test_bs_read_straddles :
    result (.bsRead 0 0 .tx 6) { run 3 with cursor := 5, mem := [(0x800, 0xF6), (0x801, 0x07)] }
      (fun t => (t.result, t.cursor)) = some (63, 11) := by decide

/-- V3.9. -/
theorem test_bs_read_bounds :
    result (.bsRead 255 7 .tx 2) { run 3 with result := 7 } (fun t => (t.result, t.cursor, t.status.err)) =
      some (7, 0, .bounds) := by decide

/-- BitsNeeded (95_test_vectors.md 2.3). -/
theorem test_bs_needed :
    [(100, 7), (255, 8), (256, 9), (0xFFFFFFFF, 32), (0, 0)].all
      (fun v => result .bsNeeded { run 4 with arg0 := v.1 } (·.result) == some v.2) = true := by decide +kernel

/-- V6.12. -/
theorem test_frame_tx_length :
    result (.frameTx 1) { run 0x105 with arg0 := 256 } (fun t => (t.status.err, t.env.history)) =
      some (.validation, []) := by decide

/-- V6.1. -/
theorem test_frame_tx_frame :
    result (.frameTx 1) (sending 0x105 .transmit 1 [3, 1, 2]) (fun t => (frame t, t.pt)) =
      some ([0x01, 0x07, 0x03, 0x03, 0x01, 0x02], .ret .ok) := by decide

/-- V6.9: the last byte of `07 03 03 01 02` gives CHECKSUM with the payload kept. -/
theorem test_frame_rx_checksum :
    result .frameRx
      { run 6 with
        fsm := .rxPay, rxChk := 7, rxLen := 3, rxIdx := 2, mem := [(0x900, 3), (0x901, 1)],
        xfer := { kind := .receive, addr := 0, payload := [], tms := 100 },
        env := { Env.reset with readAnswers := [.byte 2] } }
      (fun t => (t.pt, t.mem)) = some (.ret .checksum, [(0x900, 3), (0x901, 1), (0x902, 2)]) := by decide

/-- V6.5. -/
theorem test_frame_rx_result :
    result .frameRx (returned 6 0 0 .ok [2]) (fun t => (t.result, t.status.err)) = some (1, .ok) := by decide

/-- V7.2: the payload of the request, in stream order. -/
theorem test_negotiate_builds :
    result .negotiate
      { run 7 with
        pt := .build,
        ports := #v[typed 32,
          { typed 41 with
            i2cSpeed := 10, devCount := 2,
            dev := (Port.reset.dev.set 0 { Dev.reset with addr := 0xA0 }).set 1 { Dev.reset with addr := 2 } },
          Port.reset, Port.reset] }
      (fun t => (t.xfer.payload, t.cursor)) = some ([0x02, 0x20, 0x29, 0x0A, 0x81, 0x12, 0x00], 29) := by
  decide +kernel

/-- V7.12: segment 1 is not tried after segment 0 failed. -/
theorem test_negotiate_stops :
    result .negotiate (returned 7 0 1 .comm []) (fun t => (t.status.err, t.status.seg, t.fsm)) =
      some (.comm, 0, .idle) := by decide

/-- V7.4. -/
theorem test_negotiate_seg_clamps :
    result (.negotiateSeg 0)
      { run 8 with pt := .build, ports := State.reset.ports.set 0 { typed 41 with devCount := 12 } }
      (fun t => ((t.port 0).devCount, t.xfer.payload, t.cursor)) =
      some (8, [2, 0x29, 0, 0, 7, 0, 0, 0, 0, 0, 0, 0, 0, 0], 83) := by decide +kernel

/-- V7.7. -/
theorem test_negotiate_seg_two_bytes :
    result (.negotiateSeg 0) (returned 8 0 1 .ok [2, 0]) (·.status.err) = some .protocol := by decide

/-- V8.3. -/
theorem test_update_builds :
    result .update
      { run 9 with
        pt := .build,
        ports := #v[{ typed 32 with en := true, speed := 200, encOffset := 5 },
          { typed 36 with en := true, speed := 0xFFFFFF01, encOffset := 0xFFFFFFFF }, Port.reset, Port.reset] }
      (fun t => (t.xfer.payload, t.cursor)) = some ([0x03, 0x89, 0x16, 0x87, 0xFC, 0x3F], 38) := by decide +kernel

/-- V8.6. -/
theorem test_update_parses_color :
    result .update
      { returned 9 0 1 .ok [0x03, 0x00, 0x94, 0x0C, 0x64, 0x58, 0x82, 0x0C, 0x00] with
        ports := State.reset.ports.set 0 (typed 36) }
      (fun t => ((t.port 0).raw, (t.port 0).color, t.cursor, t.pt)) =
      some (5, #v[200, 300, 400, 100], 63, .enter 1) := by decide +kernel

/-- V8.9b: the absent device keeps its byte. -/
theorem test_update_seg_parses_i2c :
    result (.updateSeg 1)
      { returned 0x10A 1 1 .ok [0x03, 0x00, 0xD8, 0xFC, 0x7E, 0x00] with
        mem := Memory.writeBytes [(0x700, 0x11)] 0x900 [0x03, 0x00, 0xD8, 0xFC, 0x7E, 0x00],
        ports := State.reset.ports.set 2
          { typed 42 with
            devCount := 2, dev := (Port.reset.dev.set 0 (lengths false 2 1)).set 1 (lengths true 1 2) } }
      (fun t => ((t.port 2).raw, t.mem.read 0x700, t.mem.read 0x710, t.mem.read 0x711, (t.port 3).raw, t.cursor)) =
      some (2, 0x11, 0xCD, 0xEF, 7, 38) := by decide +kernel

/-- V8.12: the second bad reply. -/
theorem test_update_seg_second_failure :
    result (.updateSeg 0)
      { returned 0xA 0 2 .checksum [3, 0, 0, 0, 0] with
        ports := State.reset.ports.set 0 { Port.reset with encOffset := 5 } }
      (fun t => ((t.port 0).encOffset, t.status.err, t.status.attempts, t.fsm)) =
      some (0, .checksum, 2, .idle) := by decide

/-- V9.5. -/
theorem test_change_addr_sends :
    result (.changeAddr 1) { run 0x10B with arg0 := 3 } (·.xfer) =
      some { kind := .exchange, addr := 1, payload := [1, 3], tms := 2500 } := by decide

/-- V9.6. -/
theorem test_change_addr_validates :
    result (.changeAddr 1) { run 0x10B with arg0 := 0x103 } (fun t => (t.status.err, t.env.history)) =
      some (.validation, []) := by decide

/-- V9.1. -/
theorem test_estop_sends :
    result .estop (run 0xC) (·.xfer) = some { kind := .exchange, addr := 1, payload := [4], tms := 2500 } := by decide

/-- V9.7: segment 1 still gets the message. -/
theorem test_estop_goes_on :
    result .estop (returned 0xC 0 1 .ok [5]) (fun t => (t.auxErr, t.auxSeg, t.xfer.addr, t.pt)) =
      some (.protocol, 0, 2, .isOpen) := by decide

/-- V9.4. -/
theorem test_set_timeout_sends :
    result .setTimeout { run 0xD with arg0 := 0x12345678 } (·.xfer.payload) =
      some [0x05, 0x78, 0x56, 0x34, 0x12] := by decide

/-- V9.2, the end: the error of segment 0 is reported though segment 1 acknowledged. -/
theorem test_set_timeout_ends :
    result .setTimeout { returned 0xD 1 1 .ok [5] with auxErr := .comm, auxSeg := 0 } (fun t => (t.pt, t.status.seg)) =
      some (.finish .comm, 0) := by decide

/-! ## One step of each message: the frame written -/

/-- V9.5. -/
theorem test_wire_change_address :
    result (.wireChangeAddress 3) (sending 0x10B .exchange 1 [1, 3]) (fun t => (frame t, t.fsm)) =
      some ([0x01, 0x05, 0x02, 0x01, 0x03], .rxChk) := by decide

/-- V7.2. -/
theorem test_wire_set_sensor_type :
    result (.wireSetSensorType 0x20 0x29 [0x0A, 0x81, 0x12, 0x00])
      (sending 8 .exchange 1 [2, 0x20, 0x29, 0x0A, 0x81, 0x12, 0x00]) frame =
      some [0x01, 0xE9, 0x07, 0x02, 0x20, 0x29, 0x0A, 0x81, 0x12, 0x00] := by decide

/-- V8.3. -/
theorem test_wire_read_values :
    result (.wireReadValues [0x89, 0x16, 0x87, 0xFC, 0x3F])
      (sending 0xA .exchange 1 [3, 0x89, 0x16, 0x87, 0xFC, 0x3F]) frame =
      some [0x01, 0x65, 0x06, 0x03, 0x89, 0x16, 0x87, 0xFC, 0x3F] := by decide

/-- V9.1, the frame to segment 1. -/
theorem test_wire_emergency_stop :
    result .wireEmergencyStop (sending 0xC .exchange 2 [4]) frame = some [0x02, 0x06, 0x01, 0x04] := by decide

/-- V9.4. -/
theorem test_wire_set_timeout :
    result (.wireSetTimeout 0x12345678) (sending 0xD .exchange 1 [5, 0x78, 0x56, 0x34, 0x12]) frame =
      some [0x01, 0x1A, 0x05, 0x05, 0x78, 0x56, 0x34, 0x12] := by decide

/-! ## Arithmetic and the host bus -/

/-- SMEncode and SMDecode (95_test_vectors.md 2.3). -/
theorem test_sign_magnitude :
    [(1, 2, 2), (-1, 2, 3), (-3, 3, 7), (5, 4, 10), (-5, 4, 11), (-256, 10, 513), (1073741823, 31, 2147483646),
      (-1073741823, 31, 2147483647), (0, 1, 0)].all (fun v => smEncode v.1 == v.2) = true ∧
    [(0, 0), (1, 0), (2, 1), (3, -1), (7, -3), (200, 100), (2147483647, -1073741823)].all
      (fun v => smDecode v.1 == v.2) = true := by decide +kernel

/-- The motor words of 95_test_vectors.md 2.4. -/
theorem test_motor_word :
    [(255, true, 0x3FD), (0xFFFFFF01, true, 0x3FF), (0, false, 0), (0, true, 1), (0xFFFFFFFF, false, 6), (200, true, 0x321),
      (0xFFFFFF38, false, 0x322)].all
      (fun v => motorWord { Port.reset with speed := v.1, en := v.2.1 } == v.2.2) = true := by decide

/-- V2.1 to V2.9. -/
theorem test_validation :
    [(255, true), (0xFFFFFF01, true), (256, false), (0xFFFFFF00, false), (0x100000FF, false)].all
      (fun v => speedAccepted v.1 == v.2) = true ∧
    [(0x3FFFFFFF, true), (0x40000000, false), (0xC0000001, true), (0xC0000000, false)].all
      (fun v => offsetAccepted v.1 == v.2) = true := by decide

/-- V2.15, V2.16. -/
theorem test_unmapped :
    [0x014, 0x12C, 0x150, 0x300, 0xA00, 0x002].all (fun a => busReg (BitVec.ofNat 12 a) 4 == none) = true := by decide

/-- A state whose next turn is a host access. -/
def hosted (busy : Bool) (x : HostAccess) : State :=
  { (if busy then run 0 else State.reset) with env := { Env.reset with turns := [.host x], unpolled := busy } }

/-- A state whose next turn is a host access, a command having completed of which the host has not read BUSY = 0. -/
def completed (x : HostAccess) : State := complete .ok (hosted true x)

/-- V2.15 and 20_memory.md R86: each fault carries the faulting access (20_memory.md R101). -/
theorem test_faults_carry_the_access :
    fault? (step (hosted false (.read 0x014 4))) = some (.busError [.faulted (.read 0x014 4)]) ∧
    fault? (step (hosted true (.write 0x008 4 1))) = some (.hostContractViolation [.faulted (.write 0x008 4 1)]) := by
  decide

/-- 70_reset_and_hazards.md R310: after a completion a write faults and a read is a draw until STATUS was read. -/
theorem test_wait_for_completion :
    fault? (step (completed (.write 0x008 4 1))) = some (.hostContractViolation [.faulted (.write 0x008 4 1)]) ∧
    (next? (step (completed (.read 0x008 4)))).map (·.env.draws) = some 1 ∧
    (next? (step (completed (.read 0x004 4)))).map (·.env.unpolled) = some false ∧
    (next? (step (hosted true (.read 0x004 4)))).map (·.env.unpolled) = some true := by decide

/-- V2.10, V2.11. -/
theorem test_status_write :
    [(0x4, false), (0xFFFFFFFB, true)].all (fun v =>
      let s := hosted false (.write 0x004 4 v.1)
      (next? (step { s with status := { s.status with verr := true } })).map (·.status) ==
        some { Status.reset with verr := v.2 }) = true := by decide

/-- STATUS as a word: the end of program 4a (95_test_vectors.md), and VERR and UNDERRUN. -/
theorem test_status_word :
    Status.toWord { Status.reset with done := true, err := .comm, attempts := 2, rxlen := 5 } = 0x00050432 ∧
    Status.toWord { Status.reset with verr := true, underrun := true } = 0xC := by decide

/-! ## Witnesses: states that meet the hypotheses of the obligations -/

/-- A state with a command started and answers to come. -/
def answered (w : Word) (is os ws : List Bool) (rs : List ReadAnswer) : State :=
  { run w with
    env := { Env.reset with
      isOpenAnswers := is, openAnswers := os, writeAnswers := ws, readAnswers := rs, unpolled := true } }

/-- An I2C port with eight devices of the given write lengths. -/
def i2cPort (same : Bool) (ws : Vector (BitVec 4) 8) : Port :=
  { typed 41 with devCount := 8, dev := ws.map (fun w => lengths same w 0) }

/-- The ports of segment 0 with sixteen devices whose last two write lengths are `a` and `b`. -/
def fullPorts (same : Bool) (x : Word) (a b : BitVec 4) : Vector Port 4 :=
  #v[{ i2cPort same (Vector.replicate 8 15) with encOffset := x }, i2cPort same #v[15, 15, 15, 15, 15, 15, a, b],
    Port.reset, Port.reset]

/-- A state at the build of an update or negotiation of segment 0. -/
def building (w : Word) (ps : Vector Port 4) : State := { run w with pt := .build, ports := ps }

/-- A state that waits for a reply of a message exchange, with answers to come. -/
def awaiting (rs : List ReadAnswer) : State :=
  { run 0xC with
    fsm := .rxChk, xfer := { kind := .exchange, addr := 1, payload := [4], tms := 2500 },
    env := { Env.reset with readAnswers := rs, unpolled := true } }

theorem witness_EveryWellFormedInstructionDecodesFromItsCode :
    (Instr.bsWrite 255 7 32).wellFormed = true ∧ (Instr.wireReadValues [0, 0, 0]).wellFormed = true := by decide

theorem witness_MessagePayloadsHaveOneMeaning : decode (.message [4]) = .ok .wireEmergencyStop := rfl

theorem witness_IllegalWordsCompleteWithIllegal :
    (illegalWord 0x0E ∧ illegalWord 0x20 ∧ illegalWord 0x04000000 ∧ illegalWord 0x02100002 ∧ ¬ illegalWord 0x02000002) ∧
    (run 0x0E).status.busy = true ∧ (run 0x0E).fsm = .run ∧ (run 0x0E).pt = .start ∧ (run 0x0E).env.turns = [] ∧
    (scheduleEngine (run 0x0E)).env.turns = .engine :: [] := by
  unfold illegalWord; decide

/-- A word for each clause, the widths at 32. -/
theorem witness_OpcodeMapIgnoresUnnamedFields :
    (List.range 14).all (fun op =>
      let w : Word := BitVec.ofNat 32 (op + 0x020F_FF00)
      decide (w.extractLsb' 5 3 = 0) && decide (w.extractLsb' 26 6 = 0) && decide ((w.extractLsb' 0 5).toNat = op) &&
        decide ((w.extractLsb' 20 6).toNat ≤ 32)) = true := by decide

theorem witness_RegisterMapReachesEachWordAtItsAddress : busReg 0x9FC 4 = some (.rxBuf 63) := by decide

theorem witness_StepRunsTheFetchedInstruction :
    (State.reset.status.busy = false ∧ State.reset.env.turns = []) ∧
    ((run 0).status.busy = true ∧ (run 0).env.turns = [] ∧ fetch (run 0) = some .nop) ∧
    ((run 0).fsm = .run ∧ (run 0).pt ≠ .isOpen ∧ (run 0).pt ≠ .setTimeout ∧ decode (.command (run 0).cmd) = .ok .nop) ∧
    (run 0).xfer.kind ≠ .exchange ∧
    (awaiting []).fsm ≠ .idle ∧ ((awaiting []).fsm = .run → (awaiting []).pt = .isOpen ∨ (awaiting []).pt = .setTimeout) ∧
    (awaiting []).xfer.kind = .exchange ∧ decode (.message (awaiting []).xfer.payload) = .ok .wireEmergencyStop :=
  ⟨by decide, by decide, ⟨rfl, by decide, by decide, rfl⟩, by decide, by decide, by decide, rfl, rfl⟩

theorem witness_HostWriteToCmdStartsTheCommand :
    (hosted false (.write 0x000 4 9)).status.busy = false ∧ (hosted false (.write 0x000 4 9)).env.unpolled = false ∧
    (hosted false (.write 0x000 4 9)).env.turns = .host (.write 0x000 4 9) :: [] := by decide

theorem witness_FinishCompletesTheCommand :
    commandKind .update ≠ .single ∧ { run 9 with pt := .finish .validation }.fsm = .run ∧
    { run 9 with pt := .finish .validation }.pt = .finish .validation := by decide

theorem witness_ResetClearsTheEngineAndNotTheTransport :
    { run 9 with env := { Env.reset with turns := [.reset] } }.env.turns = .reset :: [] := rfl

/-- W 33; W 32 ending at 2049; W 32 ending at 2048. -/
theorem witness_BsWriteAssignsExactlyTheField :
    (run 2).mem.wf ∧ 32 < (33 : BitVec 6).toNat ∧
    ((32 : BitVec 6).toNat ≤ 32 ∧ 2048 < 8 * (252 : Byte).toNat + (1 : BitVec 3).toNat + (run 2).cursor.toNat + (32 : BitVec 6).toNat) ∧
    8 * (252 : Byte).toNat + (0 : BitVec 3).toNat + (run 2).cursor.toNat + (32 : BitVec 6).toNat ≤ 2048 := by decide

/-- W 33; W 2 ending at 2049; W 1 ending at 2048 (V3.9, V3.10). -/
theorem witness_BsReadReturnsExactlyTheField :
    32 < (33 : BitVec 6).toNat ∧
    ((2 : BitVec 6).toNat ≤ 32 ∧ 2048 < 8 * (255 : Byte).toNat + (7 : BitVec 3).toNat + (run 3).cursor.toNat + (2 : BitVec 6).toNat) ∧
    8 * (255 : Byte).toNat + (7 : BitVec 3).toNat + (run 3).cursor.toNat + (1 : BitVec 6).toNat ≤ 2048 := by decide

theorem witness_BsNeededReturnsTheSmallestWidth :
    (run 4).arg0.toNat = 0 ∧ 0 < { run 4 with arg0 := 1 }.arg0.toNat := by decide

theorem witness_SignMagnitudeEncodesAndDecodes :
    (2 ^ 30 - 1 : Int).natAbs ≤ 2 ^ 30 - 1 ∧ 2 ^ 31 - 1 < 2 ^ 31 := by decide

theorem witness_SignMagnitudeFieldsRoundTripThroughABuffer :
    (run 0).mem.wf ∧ (-(2 ^ 30 - 1) : Int).natAbs < 2 ^ 30 ∧
    8 * (252 : Byte).toNat + (1 : BitVec 3).toNat + (run 0).cursor.toNat + (smEncode (-(2 ^ 30 - 1))).1 ≤ 2048 := by
  decide +kernel

/-- L 256; L 255 with each answer of the transport. -/
theorem witness_FrameTxWritesTheFrame :
    Started (.frameTx 1) { answered 0x105 [] [] [] [] with arg0 := 256 } ∧ 255 < (256 : Word).toNat ∧
    Started (.frameTx 1) { answered 0x105 [true] [] [true] [] with arg0 := 255 } ∧ (255 : Word).toNat ≤ 255 ∧
    Started (.frameTx 1) { answered 0x105 [false] [true] [false] [] with arg0 := 255 } ∧
    Started (.frameTx 1) { answered 0x105 [false] [false] [] [] with arg0 := 0 } :=
  ⟨⟨rfl, rfl, rfl, rfl, rfl⟩, by decide, ⟨rfl, rfl, rfl, rfl, rfl⟩, by decide, ⟨rfl, rfl, rfl, rfl, rfl⟩,
    ⟨rfl, rfl, rfl, rfl, rfl⟩⟩

/-- Lengths 255 and 256 at the start; each return. -/
theorem witness_FrameCommandsCallTheTransportAndCompleteAtItsReturn :
    ((run 5).fsm = .run ∧ (run 5).pt = .start ∧ 255 < { run 5 with arg0 := 256 }.arg0.toNat ∧
      { run 5 with arg0 := 255 }.arg0.toNat ≤ 255) ∧
    [Reply.ok, .checksum, .comm].all
      (fun r => decide ((returned 5 0 0 r []).fsm = .run) && decide ((returned 5 0 0 r []).pt = .ret r)) = true := by decide

/-- Each link; a reply of no payload byte and one of 255; replies that break off after 0, 1, 2 and 256 bytes. -/
theorem witness_FrameRxReceivesAReply :
    Started .frameRx (answered 6 [true] [] [] (replyAnswers 0 0 [])) ∧
    Started .frameRx (answered 6 [false] [true] [] (replyAnswers 255 255 (List.replicate 255 0))) ∧
    Started .frameRx (answered 6 [false] [false] [] []) ∧ (answered 6 [true] [] [] []).mem.wf ∧
    (answered 6 [true] [] [] []).env.isOpenAnswers = true :: [] ∧
    (answered 6 [false] [true] [] []).env.openAnswers = true :: [] ∧
    (answered 6 [false] [false] [] []).env.openAnswers = false :: [] ∧
    ([] : List Byte).length = (0 : Byte).toNat ∧ (List.replicate 255 (0 : Byte)).length = (255 : Byte).toNat ∧
    (answered 6 [true] [] [] (replyAnswers 0 0 [])).env.readAnswers = replyAnswers 0 0 [] ++ [] ∧
    [[], [6], [6, 1], 6 :: 255 :: List.replicate 254 (0 : Byte)].all (fun got =>
      (match got with
        | _ :: n :: q => decide (q.length < n.toNat)
        | _ => true) &&
      (answered 6 [true] [] [] (got.map .byte ++ [.timeout])).env.readAnswers == got.map .byte ++ .timeout :: []) = true :=
  ⟨⟨rfl, rfl, rfl, rfl, rfl⟩, ⟨rfl, rfl, rfl, rfl, rfl⟩, ⟨rfl, rfl, rfl, rfl, rfl⟩, by decide, rfl, rfl, rfl, rfl,
    by decide +kernel, rfl, by decide +kernel⟩

theorem witness_ExchangeReceivesAReply :
    let s := awaiting (replyAnswers 5 1 [4])
    s.status.busy = true ∧ s.env.turns = [] ∧ s.fsm = .rxChk ∧ s.rxIdx = 0 ∧ s.xfer.kind = .exchange ∧
    decode (.message s.xfer.payload) = .ok .wireEmergencyStop ∧ s.mem.wf ∧ (∀ k, k < 256 → s.mem.read (0x900 + k) = 0) ∧
    [(4 : Byte)].length = (1 : Byte).toNat ∧ s.env.readAnswers = replyAnswers 5 1 [4] ++ [] :=
  ⟨rfl, rfl, rfl, rfl, rfl, rfl, by decide, fun _ _ => rfl, rfl, rfl⟩

/-- V6.11: one byte of five, then a timeout; the same in the receive of FRAME_RX. -/
theorem witness_FailedReceiveKeepsTheBytesReceived :
    let s := awaiting (replyAnswers 6 5 [3] ++ [.timeout])
    let t := { s with cmd := 6, xfer := { kind := .receive, addr := 0, payload := [], tms := 9 } }
    s.status.busy = true ∧ s.env.turns = [] ∧ s.fsm = .rxChk ∧ s.rxIdx = 0 ∧
    (s.xfer.kind = .exchange ∧ decode (.message s.xfer.payload) = .ok .wireEmergencyStop) ∧
    (t.xfer.kind = .receive ∧ decode (.command t.cmd) = .ok .frameRx) ∧ s.mem.wf ∧
    (∀ k, k < 256 → s.mem.read (0x900 + k) = 0) ∧
    [(3 : Byte)].length < (5 : Byte).toNat ∧ s.env.readAnswers = replyAnswers 6 5 [3] ++ .timeout :: [] :=
  ⟨rfl, rfl, rfl, rfl, ⟨rfl, rfl⟩, ⟨rfl, rfl⟩, by decide, fun _ _ => rfl, by decide, rfl⟩

/-- Each message has a payload; each point of the exchange, with its answers, at boundary lengths. -/
theorem witness_WireMessagesFollowTheExchangeStateMachine :
    encode (.wireChangeAddress 3) = .message [1, 3] ∧ encode (.wireSetSensorType 0 0 []) = .message [2, 0, 0] ∧
    encode (.wireReadValues [0, 0, 0]) = .message [3, 0, 0, 0] ∧ encode .wireEmergencyStop = .message [4] ∧
    encode (.wireSetTimeout 1) = .message [5, 1, 0, 0, 0] ∧ (awaiting []).mem.wf ∧
    ({ awaiting [] with fsm := .run, pt := .isOpen }.fsm = .run ∧ { awaiting [] with fsm := .send }.fsm = .send) ∧
    ((sending 0xC .exchange 1 [4]).env.askWrite [1]).1 = true ∧ (awaiting [.timeout]).env.askRead.1 = .timeout ∧
    (awaiting [.fail]).env.askRead.1 = .fail ∧ (awaiting [.byte 0]).env.askRead.1 = .byte 0 ∧
    (awaiting [.byte 1]).env.askRead.1 = .byte 1 ∧ 0 < (1 : Byte).toNat ∧
    (0 : Byte).toNat + 1 < (2 : Byte).toNat ∧ (1 : Byte).toNat ≤ (0 : Byte).toNat + 1 := by decide

theorem witness_MessageStepIsTheCommandsExchangeStep :
    commandKind .estop ≠ .single ∧ atRequest (awaiting []) = true ∧ (awaiting []).xfer.kind = .exchange ∧
    decode (.message (awaiting []).xfer.payload) = .ok .wireEmergencyStop :=
  ⟨by decide, rfl, rfl, rfl⟩

/-- Segment operands 1 and 2. -/
theorem witness_SegmentOperandsAreCheckedAtTheStart :
    (run 0x108).fsm = .run ∧ (run 0x108).pt = .start ∧ 1 < (2 : Byte).toNat ∧ (1 : Byte).toNat = (1 : SegIx).val := by decide

/-- 2014 bits, the most a request of the segment can have (V7.6 has 2022 or more). -/
theorem witness_NegotiationBuildsTheRequest :
    let s := building 7 (fullPorts true 0 5 0)
    s.fsm = .run ∧ s.pt = .build ∧ s.mem.wf ∧ (negotiationBits s.seg s).length = 2014 := by decide +kernel

theorem witness_NegotiationTooLongIsRejectedBeforeAnyRequest :
    let s := building 7 (fullPorts true 0 6 0)
    s.fsm = .run ∧ s.pt = .build ∧ (negotiationBits s.seg s).length = 2022 := by decide +kernel

theorem witness_NegotiationClampsDeviceCounts :
    let s := building 8 (State.reset.ports.set 0 { typed 41 with devCount := 12 })
    s.fsm = .run ∧ s.pt = .build ∧ s.portClass 0 = .i2c ∧ (next? (exec (.negotiateSeg 0) s)).isSome = true := by
  decide +kernel

theorem witness_NegotiationReplyIsCheckedWithoutRetry :
    (returned 7 0 1 .ok [2]).fsm = .run ∧ (returned 7 0 1 .ok [2]).pt = .ret .ok ∧
    ackOutcome 2 .ok (returned 7 0 1 .ok [2]) = .ok ∧ (returned 7 0 1 .ok [2]).seg = 0 ∧
    ackOutcome 2 .ok (returned 7 0 1 .ok [2, 0]) ≠ .ok ∧ (returned 7 1 1 .ok [2]).seg = 1 := by decide

theorem witness_NegotiationFrame : (run 7).mem.wf ∧ (next? (exec .negotiate (run 7))).isSome = true := by decide

theorem witness_NegotiateCompletesWhenBothSegmentsAcknowledge :
    let s := answered 7 [true, true] [] [true, true] (ackAnswers 2 ++ ackAnswers 2)
    Started .negotiate s ∧ s.mem.wf ∧ (negotiationBits 0 s).length ≤ 2016 ∧ (negotiationBits 1 s).length ≤ 2016 ∧
    s.env.isOpenAnswers = true :: true :: [] ∧ s.env.writeAnswers = true :: true :: [] ∧
    s.env.readAnswers = ackAnswers 2 ++ ackAnswers 2 ++ [] :=
  ⟨⟨rfl, rfl, rfl, rfl, rfl⟩, by decide, by decide, by decide, rfl, rfl, rfl⟩

/-- 2032 bits: sixteen devices, an offset of width 5. -/
theorem witness_UpdateBuildsTheRequest :
    let s := building 9 (fullPorts false 8 15 9)
    s.fsm = .run ∧ s.pt = .build ∧ s.mem.wf ∧ devCountsOk s.seg s = true ∧
    (∀ p, (s.port p).encOffset.toInt.natAbs ≤ 2 ^ 30 - 1) ∧ (updateBits s.seg s).length = 2032 := by decide +kernel

/-- DEVCOUNT 0 and 9. -/
theorem witness_UpdateRejectsDeviceCountsOutOfRange :
    [(0 : Byte), 9].all (fun n =>
      let s := building 9 (State.reset.ports.set 0 { typed 41 with devCount := n })
      decide (s.fsm = .run) && decide (s.pt = .build) && decide (0 = lowPort s.seg) && decide (s.portClass 0 = .i2c) &&
        (decide ((s.port 0).devCount.toNat < 1) || decide (8 < (s.port 0).devCount.toNat))) = true := by decide +kernel

/-- 2033 bits: an offset of width 6. -/
theorem witness_UpdateTooLongIsRejectedBeforeAnyRequest :
    let s := building 9 (fullPorts false 16 15 9)
    s.fsm = .run ∧ s.pt = .build ∧ devCountsOk s.seg s = true ∧
    (∀ p, (s.port p).encOffset.toInt.natAbs ≤ 2 ^ 30 - 1) ∧ (updateBits s.seg s).length = 2033 := by decide +kernel

/-- Each reply, after the first and after the second attempt; the replies of V8.16 and V8.17. -/
theorem witness_UpdateFailuresClassifyAndRetry :
    (returned 9 0 1 .comm []).pt = .ret .comm ∧ (returned 9 0 1 .checksum [3]).pt = .ret .checksum ∧
    (returned 9 0 1 .ok []).rxLen.toNat = 0 ∧ (returned 9 0 2 .ok [2]).mem.read 0x900 ≠ 3 ∧
    (returned 9 0 1 .ok []).attempt.toNat < 2 ∧ 2 ≤ (returned 9 0 2 .ok [2]).attempt.toNat ∧
    (returned 9 0 2 .ok [2]).fsm = .run := by decide

/-- V8.9c: a valid reply of the tag alone, and its segment. -/
theorem witness_ValidReply :
    ValidReply (returned 9 0 1 .ok [3]) ∧ ValidReply (returned 9 1 1 .ok [3]) ∧ (returned 9 0 1 .ok [3]).mem.wf := by
  unfold ValidReply; decide

theorem witness_UpdateSucceedsOnAValidReply :
    ValidReply (returned 9 0 1 .ok [3]) ∧ { run 9 with pt := .enter 1 }.fsm = .run ∧
    { run 9 with pt := .enter 1 }.pt = .enter 1 := ⟨witness_ValidReply.1, rfl, rfl⟩

theorem witness_UpdateParsesTheEncoders : ValidReply (returned 9 0 1 .ok [3]) := witness_ValidReply.1

/-- A port of each class. -/
theorem witness_UpdateParsesTheSensorFields :
    [(32, SensorClass.touch), (33, .ultrasonic), (34, .ultrasonic), (36, .colorFull), (41, .i2c), (42, .i2c), (0, .default),
      (255, .default)].all (fun v => classify Config.sensorCodeDefault v.1 == v.2) = true ∧
    ValidReply (returned 9 0 1 .ok [3]) := ⟨by decide, witness_ValidReply.1⟩

/-- V8.9a's first port: a valid reply with a device present. -/
theorem witness_UpdateParsesTheI2cBytes :
    let s :=
      { returned 0x10A 1 1 .ok [0x03, 0x00, 0xBC, 0xDA, 0xFC, 0x7E, 0x00] with
        ports := State.reset.ports.set 2 { typed 42 with devCount := 1, dev := Port.reset.dev.set 0 (lengths false 2 1) } }
    ValidReply s ∧ s.mem.wf ∧ 2 = lowPort s.seg ∧ s.portClass 2 = .i2c ∧ s.mem.bit 0x900 (fieldStart s.seg s 2) = true := by
  unfold ValidReply; decide +kernel

theorem witness_UpdateFlagsUnderrun : ValidReply (returned 9 0 1 .ok [3]) := witness_ValidReply.1

theorem witness_UpdateFrame : (run 9).mem.wf ∧ (next? (exec .update (run 9))).isSome = true := by decide

/-- The good reply of V8.15. -/
theorem witness_UpdateSegCompletesOnAValidFirstReply :
    let s := answered 0xA [true] [] [true] (replyAnswers 8 5 [3, 0, 0, 0, 0])
    Started (.updateSeg 0) s ∧ s.mem.wf ∧ (0 : Byte).toNat = (0 : SegIx).val ∧ devCountsOk 0 s = true ∧
    (∀ q, (s.port q).encOffset.toInt.natAbs ≤ 2 ^ 30 - 1) ∧ (updateBits 0 s).length ≤ 2032 ∧
    [(3 : Byte), 0, 0, 0, 0].length = (5 : Byte).toNat ∧ [(3 : Byte), 0, 0, 0, 0].head? = some 3 ∧
    (8 : Byte).toNat = ((5 : Byte).toNat + ([(3 : Byte), 0, 0, 0, 0].map BitVec.toNat).sum) % 256 ∧
    s.env.isOpenAnswers = true :: [] ∧ s.env.writeAnswers = true :: [] ∧
    s.env.readAnswers = replyAnswers 8 5 [3, 0, 0, 0, 0] ++ [] :=
  ⟨⟨rfl, rfl, rfl, rfl, rfl⟩, by decide, rfl, by decide, by decide, by decide, rfl, rfl, rfl, rfl, rfl, rfl⟩

/-- ARG0 256 and 255; V9.5. -/
theorem witness_ChangeAddrSendsTheNewAddress :
    ((run 0x10B).fsm = .run ∧ (run 0x10B).pt = .start ∧ 255 < (256 : Word).toNat ∧ (255 : Word).toNat ≤ 255) ∧
    Started (.changeAddr 1) { answered 0x10B [true] [] [true] (ackAnswers 1) with arg0 := 255 } ∧ (run 0x10B).mem.wf :=
  ⟨by decide, ⟨rfl, rfl, rfl, rfl, rfl⟩, by decide⟩

/-- Both commands at the start and at the return of each segment. -/
theorem witness_BroadcastsReachBothSegments :
    (run 0xC).fsm = .run ∧ (run 0xC).pt = .start ∧ (returned 0xC 0 1 .ok [4]).pt = .ret .ok ∧
    (returned 0xC 0 1 .ok [4]).seg = 0 ∧ (returned 0xD 1 1 .comm []).pt = .ret .comm ∧ (returned 0xD 1 1 .comm []).seg = 1 := by
  decide

theorem witness_BroadcastsCompleteOnEitherOutcome :
    Started .estop (answered 0xC [true, true] [] [true, true] (ackAnswers 4 ++ ackAnswers 4)) ∧
    Started .setTimeout (answered 0xD [true, true] [] [true, true] (.timeout :: ackAnswers 5)) ∧ (run 0xC).mem.wf :=
  ⟨⟨rfl, rfl, rfl, rfl, rfl⟩, ⟨rfl, rfl, rfl, rfl, rfl⟩, by decide⟩

theorem witness_OtherFamiliesLeaveTheChannelState :
    commandKind .estop ≠ .negotiation ∧ commandKind .estop ≠ .update ∧ (run 0xC).mem.wf ∧
    (next? (exec .estop (run 0xC))).isSome = true := by decide

theorem witness_CommandOperandRegistersAreNotWritten : (next? (exec .estop (run 0xC))).isSome = true := by decide

/-- MOTOR_SPEED ±255, ±256 and ENC_OFFSET ±(2^30 - 1), ±2^30 at every port's addresses. -/
theorem witness_ValidatedWritesStoreOrSetVerr :
    let s := hosted false (.write 0x104 4 255)
    s.status.busy = false ∧ s.env.unpolled = false ∧ (0x104 : Addr) = BitVec.ofNat 12 (0x104 + 0x80 * (0 : PortIx).val) ∧
    (0x288 : Addr) = BitVec.ofNat 12 (0x108 + 0x80 * (3 : PortIx).val) ∧ s.env.turns = .host (.write 0x104 4 255) :: [] ∧
    (-255 ≤ (0xFFFFFF01 : Word).toInt ∧ (255 : Word).toInt ≤ 255) ∧
    ((0xFFFFFF00 : Word).toInt < -255 ∧ 255 < (256 : Word).toInt) ∧
    (0xC0000001 : Word).toInt.natAbs ≤ 2 ^ 30 - 1 ∧ 2 ^ 30 - 1 < (0x40000000 : Word).toInt.natAbs := by decide

/-- Addresses 0x013 and 0x014, sizes 2 and 4, and the ends of the unmapped ranges. -/
theorem witness_BusErrorsAreExactlyTheUnmappedAccesses :
    (hosted false (.read 0x014 4)).env.turns = .host (.read 0x014 4) :: [] ∧ (2 ≠ 4 ∧ 0x002 % 4 ≠ 0) ∧
    (unmapped 0x014 ∧ unmapped 0x0FC ∧ unmapped 0x12C ∧ unmapped 0x150 ∧ unmapped 0x17C ∧ unmapped 0x300 ∧
      unmapped 0x3FC ∧ unmapped 0xA00) ∧
    (¬ unmapped 0x010 ∧ ¬ unmapped 0x100 ∧ ¬ unmapped 0x128 ∧ ¬ unmapped 0x130 ∧ ¬ unmapped 0x14C ∧ ¬ unmapped 0x400 ∧
      ¬ unmapped 0x9FC) ∧
    ((hosted false (.write 0x010 4 0)).status.busy = false ∧ (hosted false (.write 0x010 4 0)).env.unpolled = false) := by
  refine ⟨rfl, by decide, ?_, ?_, rfl, rfl⟩ <;> unfold unmapped <;> omega

theorem witness_AccessesWhileBusy :
    (hosted true (.read 0x004 4)).status.busy = true ∧ Reg.arg0 ≠ .status ∧
    ((completed (.write 0x008 4 1)).status.busy = false ∧ (completed (.write 0x008 4 1)).env.unpolled = true ∧
      (completed (.write 0x008 4 1)).env.turns = .host (.write (Reg.addr .arg0) 4 1) :: []) ∧
    (hosted true (.read 0x004 4)).env.turns = .host (.read 0x004 4) :: [] ∧
    (hosted false (.write 0x004 4 4)).env.turns = .host (.write 0x004 4 4) :: [] ∧
    (hosted true (.write 0x004 4 4)).env.turns = .host (.write 0x004 4 4) :: [] ∧
    (hosted true (.write 0x008 4 1)).env.turns = .host (.write (Reg.addr .arg0) 4 1) :: [] ∧
    (hosted true (.read 0x008 4)).env.turns = .host (.read (Reg.addr .arg0) 4) :: [] := by decide

theorem witness_HostReadsHaveNoSideEffect :
    (hosted false (.read 0x9FC 4)).status.busy = false ∧ (hosted false (.read 0x9FC 4)).env.unpolled = false ∧
    (hosted false (.read 0x9FC 4)).env.turns = .host (.read (Reg.addr (.rxBuf 63)) 4) :: [] := by decide

theorem witness_WritesToReadOnlyWordsAreIgnored :
    (hosted false (.write 0x10C 4 7)).status.busy = false ∧ (hosted false (.write 0x10C 4 7)).env.unpolled = false ∧
    (hosted false (.write 0x10C 4 7)).env.turns = .host (.write (Reg.addr (.encoder 0)) 4 7) :: [] := by decide

/-- One write to each register, the array words at their ends. -/
theorem witness_WrittenRegistersReadBackMasked :
    [Reg.arg0, .cursor, .motorEn 3, .sensorType 3, .i2cCfg 3, .i2cDev 3 7, .i2cOut 3 7 3, .txBuf 63].all (fun r =>
      let s := hosted false (.write r.addr 4 0xFFFFFFFF)
      decide s.mem.wf && decide (s.status.busy = false) && decide (s.env.unpolled = false) &&
        decide (s.env.turns = .host (.write r.addr 4 0xFFFFFFFF) :: [])) = true := by decide

theorem inv_nop : Inv (run 0) where
  memory := by unfold memoryOk; decide
  status := by unfold statusOk; decide
  point := fun _ => trivial
  values := by unfold Port.valuesOk; decide
  attempts := by unfold attemptsOk; decide
  rxlen := rfl
  rxTail := rfl
  config := fun _ h => absurd h (by decide)
  message := fun _ h => absurd h (by decide)
  poll := fun _ => rfl

theorem inv_sending : Inv (sending 0xC .exchange 1 [4]) where
  memory := by unfold memoryOk; decide
  status := by unfold statusOk; decide
  point := fun _ => ⟨rfl, by decide⟩
  values := by unfold Port.valuesOk; decide
  attempts := by unfold attemptsOk; decide
  rxlen := rfl
  rxTail := rfl
  config := fun _ h => absurd h (by decide)
  message := fun _ _ => ⟨by decide, fun _ => ⟨_, rfl⟩⟩
  poll := fun _ => rfl

theorem witness_EveryStepKeepsMemoryCanonical : memoryOk (run 0) ∧ (next? (step (run 0))).isSome = true :=
  ⟨inv_nop.memory, by decide⟩

theorem witness_EveryStepKeepsStatusConsistent : statusOk (run 0) ∧ (next? (step (run 0))).isSome = true :=
  ⟨inv_nop.status, by decide⟩

theorem witness_EveryStepKeepsTheInvariant : Inv (run 0) ∧ (next? (step (run 0))).isSome = true := ⟨inv_nop, by decide⟩

theorem witness_EveryCommandCompletes : Inv (run 0) ∧ (run 0).status.busy = true ∧ (run 0).env.turns = [] :=
  ⟨inv_nop, rfl, rfl⟩

theorem witness_EveryFrameWrittenIsWellFormed :
    Inv (sending 0xC .exchange 1 [4]) ∧
    (next? (step (sending 0xC .exchange 1 [4]))).map (·.env.history) = some [.wrote [1, 5, 1, 4] true] :=
  ⟨inv_sending, by decide⟩

end Sys2Proof.Tests
end

-- The byte order of the host bus (20_memory.md R84).
section
namespace Sys2Proof.Machine

/-- A word of the byte memory has the bytes it was read from, least significant first. -/
theorem arrayWord_readWord (m : Memory) (a : Nat) : arrayWord m a (m.readWord a) := by
  obtain ⟨h0, h1, h2, h3⟩ := extract_wordOfBytes (m.read a) (m.read (a + 1)) (m.read (a + 2)) (m.read (a + 3))
  intro i
  match i with
  | 0 => exact h0
  | 1 => exact h1
  | 2 => exact h2
  | 3 => exact h3

/-- Settles O54: a host read of an array's word is `readWord` at the address of the array's word. -/
theorem byteArraysAreLittleEndian : Obligations.ByteArraysAreLittleEndian := by
  intro s p d j i k
  exact ⟨arrayWord_readWord s.mem (txBase + 4 * k.val) i,
    arrayWord_readWord s.mem (rxBase + 4 * k.val) i,
    arrayWord_readWord s.mem (i2cOutAddr p d (4 * j.val)) i,
    arrayWord_readWord s.mem (i2cInAddr p d (4 * j.val)) i⟩

end Sys2Proof.Machine
end

-- The frames the engine writes (30_encoding.md R120, R122, R124).
section
namespace Sys2Proof.Machine

/-! ## The payload of a message -/

theorem checkLength_eq_ok {i j : Instr} (h : checkLength i = .ok j) : i = j := by
  unfold checkLength at h
  split_ifs at h
  exact Except.ok.inj h

/-- A payload that decodes is the payload of its instruction (30_encoding.md R125, R126). -/
theorem encode_of_decode_message {p : List Byte} {m : Instr} (h : decode (.message p) = .ok m) :
    encode m = .message p := by
  cases p with
  | nil => exact absurd h (by simp [decode, decodeMessage])
  | cons tag rest =>
    change decodeTagged tag.toNat rest = .ok m at h
    generalize ht : tag.toNat = n at h
    rw [byte_eq_of_toNat ht]
    unfold decodeTagged at h
    split at h
    · obtain rfl := Except.ok.inj h; rfl
    · obtain rfl := checkLength_eq_ok h; rfl
    · obtain rfl := checkLength_eq_ok h; rfl
    · obtain rfl := Except.ok.inj h; rfl
    · obtain rfl := Except.ok.inj h
      exact congrArg (fun bs => Code.message (5 :: bs)) (bytesOfWord_wordOfBytes _ _ _ _)
    · split_ifs at h

/-! ## What a transport request records -/

theorem linkOpen_env (x : Xfer) (s : State) : (linkOpen x s).env = s.env := by
  unfold linkOpen; cases x.kind <;> rfl

theorem checkReply_env (s : State) : (checkReply s).env = s.env := by rw [checkReply_eq]; rfl

theorem takeLength_env (n : Byte) (s : State) : (takeLength n s).env = s.env := by
  unfold takeLength
  split_ifs
  · exact checkReply_env _
  · rfl

theorem takePayload_env (b : Byte) (s : State) : (takePayload b s).env = s.env := by
  unfold takePayload
  split_ifs
  · rfl
  · exact checkReply_env _

theorem askIsOpen_history (e : Env) : e.askIsOpen.2.history = .isOpen e.askIsOpen.1 :: e.history := by
  unfold Env.askIsOpen; cases e.isOpenAnswers <;> rfl

theorem askOpen_history (e : Env) : e.askOpen.2.history = .opened e.askOpen.1 :: e.history := by
  unfold Env.askOpen; cases e.openAnswers <;> rfl

theorem askWrite_history (e : Env) (f : List Byte) :
    (e.askWrite f).2.history = .wrote f (e.askWrite f).1 :: e.history := by
  unfold Env.askWrite; cases e.writeAnswers <;> rfl

theorem askRead_history (e : Env) : e.askRead.2.history = .readByte e.askRead.1 :: e.history := by
  unfold Env.askRead; cases e.readAnswers <;> rfl

/-- The surroundings after one transport request: those of the request asked, if one is asked (20_memory.md R95). -/
theorem linkStep_env_cases (x : Xfer) (s : State) :
    (linkStep x s).env = s.env ∨ (linkStep x s).env = s.env.askIsOpen.2 ∨ (linkStep x s).env = s.env.askOpen.2 ∨
      (linkStep x s).env = s.env.note (.setTimeout x.tms) ∨ (linkStep x s).env = s.env.askRead.2 ∨
      (linkStep x s).env = (s.env.askWrite (frameOf x s)).2 := by
  have read (h : s.fsm = .rxChk ∨ s.fsm = .rxLen ∨ s.fsm = .rxPay) : (linkStep x s).env = s.env.askRead.2 := by
    cases ha : s.env.askRead.1 with
    | byte b =>
      rcases h with h | h | h
      · rw [linkStep_rxChk h ha]; rfl
      · rw [linkStep_rxLen h ha]; exact takeLength_env _ _
      · rw [linkStep_rxPay h ha]; exact takePayload_env _ _
    | timeout => rw [linkStep_read_fail h (.inl ha)]; rfl
    | fail => rw [linkStep_read_fail h (.inr ha)]; rfl
  cases hf : s.fsm with
  | idle => left; simp only [linkStep, hf]
  | run =>
    cases hp : s.pt with
    | isOpen =>
      right; left
      cases ha : s.env.askIsOpen.1
      · rw [linkStep_isOpen_false hf hp ha]; rfl
      · rw [linkStep_isOpen_true hf hp ha]; exact linkOpen_env _ _
    | setTimeout =>
      right; right; right; left
      by_cases hk : x.kind = .receive
      · rw [linkStep_setTimeout_receive hf hp hk]; rfl
      · rw [linkStep_setTimeout_send hf hp hk]; rfl
    | start | enter | build | ret | finish => left; simp only [linkStep, hf, hp]
  | opening =>
    right; right; left
    cases ha : s.env.askOpen.1
    · rw [linkStep_opening_false hf ha]; rfl
    · rw [linkStep_opening_true hf ha]; exact linkOpen_env _ _
  | send =>
    right; right; right; right; right
    cases ha : (s.env.askWrite (frameOf x s)).1
    · rw [linkStep_send_fail hf ha]; rfl
    · by_cases hk : x.kind = .transmit
      · rw [linkStep_send_transmit hf hk ha]; rfl
      · rw [linkStep_send_receive hf hk ha]; rfl
  | rxChk => exact .inr (.inr (.inr (.inr (.inl (read (.inl hf))))))
  | rxLen => exact .inr (.inr (.inr (.inr (.inl (read (.inr (.inl hf)))))))
  | rxPay => exact .inr (.inr (.inr (.inr (.inl (read (.inr (.inr hf)))))))

/-- A frame that a transport request writes is the frame of the procedure in progress. -/
theorem frameOf_of_linkStep_wrote {x : Xfer} {s : State} {f : List Byte} {ok : Bool}
    (h : (linkStep x s).env.history = .wrote f ok :: s.env.history) : f = frameOf x s := by
  rcases linkStep_env_cases x s with e | e | e | e | e | e <;> rw [e] at h
  · exact absurd h.symm (List.cons_ne_self _ _)
  · rw [askIsOpen_history] at h; cases h
  · rw [askOpen_history] at h; cases h
  · cases h
  · rw [askRead_history] at h; cases h
  · rw [askWrite_history] at h; cases h; rfl

/-! ## Away from the requests nothing is recorded -/

section
variable (onStart : State → State) (onEnter : SegIx → State → State) (onBuild : State → State)
  (onRet : Reply → State → State) {s : State}

/-- A command whose own internal steps keep the surroundings keeps them away from the transport requests. -/
theorem atPoint_env (hr : atRequest s = false) (hstart : (onStart s).env = s.env)
    (henter : ∀ g, (onEnter g s).env = s.env) (hbuild : (onBuild s).env = s.env)
    (hret : ∀ r, (onRet r s).env = s.env) : (atPoint onStart onEnter onBuild onRet s).env = s.env :=
  atPoint_cases onStart onEnter onBuild onRet (fun t => t.env = s.env) (fun _ => rfl) (fun _ _ => hstart)
    (fun g _ _ => henter g) (fun _ _ => hbuild) (fun r _ _ => hret r) (fun _ _ _ => rfl)
    (fun h => absurd (hr.symm.trans h) Bool.false_ne_true)

end

theorem bsWrite_env (a : Byte) (b : BitVec 3) (w : BitVec 6) (s : State) : (bsWrite a b w s).env = s.env := by
  unfold bsWrite writeBits
  split_ifs <;> rfl

theorem bsRead_env (a : Byte) (b : BitVec 3) (sel : BufSel) (w : BitVec 6) (s : State) :
    (bsRead a b sel w s).env = s.env := by
  unfold bsRead readBits
  split_ifs <;> rfl

theorem frameTxStart_env (a : Byte) (s : State) : (frameTxStart a s).env = s.env := by
  unfold frameTxStart; cases byteOperand s.arg0 <;> rfl

theorem frameRxRet_env (r : Reply) (s : State) : (frameRxRet r s).env = s.env := by cases r <;> rfl

theorem changeAddrStart_env (a : Byte) (s : State) : (changeAddrStart a s).env = s.env := by
  unfold changeAddrStart; cases byteOperand s.arg0 <;> rfl

theorem broadcastEnter_env (p : List Byte) (g : SegIx) (s : State) : (broadcastEnter p g s).env = s.env := rfl

theorem broadcastStart_env (p : List Byte) (s : State) : (broadcastStart p s).env = s.env := rfl

theorem broadcastRet_env (tag : Byte) (p : List Byte) (r : Reply) (s : State) :
    (broadcastRet tag p r s).env = s.env := by
  unfold broadcastRet noteAuxErr
  split_ifs <;> rfl

theorem negotiateSegStart_env (a : Byte) (s : State) : (negotiateSegStart a s).env = s.env := by
  unfold negotiateSegStart; cases segOperand a <;> rfl

theorem negotiateBuild_env (s : State) : (negotiateBuild s).env = s.env := by
  obtain ⟨u, m, c, x, p, hu, e, -⟩ := negotiateBuild_cases s
  rw [e, ← hu, clampSegment_eq]; rfl

theorem negotiateRet_env {after : State → State} {s : State} (h : (after s).env = s.env) (r : Reply) :
    (negotiateRet after r s).env = s.env := by
  by_cases hk : ackOutcome 2 r s = .ok
  · rw [negotiateRet_ok hk, h]
  · rw [negotiateRet_fail hk]; rfl

theorem negotiateAfter_env (s : State) : (negotiateAfter s).env = s.env := by
  unfold negotiateAfter; split_ifs <;> rfl

theorem updateSegStart_env (a : Byte) (s : State) : (updateSegStart a s).env = s.env := by
  unfold updateSegStart; cases segOperand a <;> rfl

theorem updateBuild_env (s : State) : (updateBuild s).env = s.env := by
  obtain ⟨m, c, x, p, e, -⟩ := updateBuild_cases s
  rw [e]; rfl

theorem updateFail_env (k : ErrKind) (s : State) : (updateFail k s).env = s.env := by
  unfold updateFail; split_ifs <;> rfl

theorem parseReply_env (n : Nat) (g : SegIx) (s : State) : (parseReply n g s).env = s.env := by
  rw [(ParseFrame.parseReply g n s).eq]

theorem updateRet_env {after : State → State} (h : ∀ u, (after u).env = u.env) (r : Reply) (s : State) :
    (updateRet after r s).env = s.env := by
  cases r with
  | comm => exact updateFail_env _ _
  | checksum => exact updateFail_env _ _
  | ok =>
    unfold updateRet
    dsimp only
    split_ifs
    · rw [h, parseReply_env]; rfl
    · exact updateFail_env _ _

theorem updateAfter_env (s : State) : (updateAfter s).env = s.env := by unfold updateAfter; split_ifs <;> rfl

/-- A message that no request is waited for is handed to the exchange. -/
theorem messageStep_env {s : State} (hr : atRequest s = false) (p : List Byte) : (messageStep p s).env = s.env := by
  cases hf : s.fsm with
  | idle => simp only [messageStep, hf, callTransport_env]
  | run =>
    cases hp : s.pt with
    | isOpen | setTimeout => simp [atRequest, hf, hp] at hr
    | start | enter | build | ret | finish => simp only [messageStep, hf, hp, callTransport_env]
  | opening | send | rxChk | rxLen | rxPay => simp [atRequest, hf] at hr

/-- Away from the transport requests no instruction touches the surroundings of the engine. -/
theorem exec_env {i : Instr} {s t : State} (hr : atRequest s = false) (h : exec i s = .next t) : t.env = s.env := by
  cases i <;> obtain rfl := next_eq_next_iff.1 h
  case nop | bsClear | bsNeeded => rfl
  case bsWrite => exact bsWrite_env ..
  case bsRead => exact bsRead_env ..
  case frameTx => exact atPoint_env _ _ _ _ hr (frameTxStart_env ..) (fun _ => rfl) rfl (fun _ => rfl)
  case frameRx => exact atPoint_env _ _ _ _ hr rfl (fun _ => rfl) rfl (fun r => frameRxRet_env r s)
  case negotiate =>
    exact atPoint_env _ _ _ _ hr rfl (fun _ => rfl) (negotiateBuild_env s) (negotiateRet_env (negotiateAfter_env s))
  case negotiateSeg =>
    exact atPoint_env _ _ _ _ hr (negotiateSegStart_env ..) (fun _ => rfl) (negotiateBuild_env s)
      (negotiateRet_env rfl)
  case update =>
    exact atPoint_env _ _ _ _ hr rfl (fun _ => rfl) (updateBuild_env s) (fun r => updateRet_env updateAfter_env r s)
  case updateSeg =>
    exact atPoint_env _ _ _ _ hr (updateSegStart_env ..) (fun _ => rfl) (updateBuild_env s)
      (fun r => updateRet_env (after := updateSegAfter) (fun _ => rfl) r s)
  case changeAddr => exact atPoint_env _ _ _ _ hr (changeAddrStart_env ..) (fun _ => rfl) rfl (fun _ => rfl)
  case estop =>
    exact atPoint_env _ _ _ _ hr (broadcastStart_env ..) (fun g => broadcastEnter_env _ g s) rfl
      (fun r => broadcastRet_env 4 _ r s)
  case setTimeout =>
    exact atPoint_env _ _ _ _ hr (broadcastStart_env ..) (fun g => broadcastEnter_env _ g s) rfl
      (fun r => broadcastRet_env 5 _ r s)
  case wireChangeAddress | wireSetSensorType | wireReadValues | wireEmergencyStop | wireSetTimeout =>
    exact messageStep_env hr _

/-! ## Steps -/

/-- A command at a transport request is one that uses the transport. -/
theorem runningKind_of_request {s : State} (hp : pointOk s) (hr : atRequest s = true) : runningKind s ≠ .single := by
  have hx : xferOk s := by
    unfold pointOk at hp
    unfold atRequest at hr
    cases hf : s.fsm with
    | idle => simp [hf] at hp
    | run =>
      simp only [hf] at hp hr
      cases hpt : s.pt <;> simp only [hpt] at hp hr
      case isOpen => exact hp
      case setTimeout => exact hp.1
      all_goals exact absurd hr Bool.false_ne_true
    | opening => simpa only [hf] using hp
    | send => simp only [hf] at hp; exact hp.1
    | rxChk => simp only [hf] at hp; exact hp.1
    | rxLen => simp only [hf] at hp; exact hp.1
    | rxPay => simp only [hf] at hp; exact hp.1
  intro h
  rw [xferOk, h] at hx
  cases hx

/-- The message in flight is what the payload of an exchange decodes to. -/
theorem decode_of_messageInFlight {s : State} {m : Instr} (h : messageInFlight s = some m) :
    s.xfer.kind = .exchange ∧ decode (.message s.xfer.payload) = .ok m := by
  unfold messageInFlight at h
  split_ifs at h with hc
  rw [Bool.and_eq_true, decide_eq_true_iff] at hc
  refine ⟨hc.2, ?_⟩
  cases hd : decode (.message s.xfer.payload) with
  | ok i => rw [hd] at h; exact congrArg Except.ok (Option.some.inj h)
  | error e => rw [hd] at h; cases h

/-- At a transport request the engine's turn is that request (41_frame.md R176). -/
theorem engineStep_request {s : State} (hb : s.status.busy = true) (hp : pointOk s) (hr : atRequest s = true) :
    engineStep s = .next (linkStep s.xfer s) := by
  have hk := runningKind_of_request hp hr
  unfold runningKind at hk
  cases hm : messageInFlight s with
  | some m =>
    have hf : fetch s = some m := by simp only [fetch, hm]
    obtain ⟨hx, hd⟩ := decode_of_messageInFlight hm
    simp only [engineStep, hb, hf, if_true]
    exact exec_message_request hx hr (encode_of_decode_message hd)
  | none =>
    cases hd : decode (.command s.cmd) with
    | error e => rw [hd] at hk; exact absurd rfl hk
    | ok i =>
      rw [hd] at hk
      have hf : fetch s = some i := by simp only [fetch, hm, hd]; rfl
      simp only [engineStep, hb, hf, if_true]
      exact exec_command_request hk hr

/-- Away from the transport requests the engine's turn records nothing. -/
theorem engineStep_env {s t : State} (hr : atRequest s = false) (h : engineStep s = .next t) : t.env = s.env := by
  unfold engineStep at h
  split_ifs at h
  · cases hf : fetch s with
    | some i => rw [hf] at h; exact exec_env hr h
    | none => rw [hf] at h; cases h; rfl
  · cases h; rfl

/-- A frame that the engine's turn writes is the frame of the procedure in progress, at a transport request. -/
theorem engineStep_wrote {s t : State} {f : List Byte} {ok : Bool} (hp : s.status.busy = true → pointOk s)
    (h : engineStep s = .next t) (hw : t.env.history = .wrote f ok :: s.env.history) :
    s.status.busy = true ∧ atRequest s = true ∧ f = frameOf s.xfer s := by
  cases hr : atRequest s with
  | false =>
    rw [engineStep_env hr h] at hw
    exact absurd hw.symm (List.cons_ne_self _ _)
  | true =>
    cases hb : s.status.busy with
    | false =>
      obtain rfl : s = t := by simpa [engineStep, hb] using h
      exact absurd hw.symm (List.cons_ne_self _ _)
    | true =>
      rw [engineStep_request hb (hp hb) hr] at h
      obtain rfl := next_eq_next_iff.1 h
      exact ⟨rfl, rfl, frameOf_of_linkStep_wrote hw⟩

theorem takeBusyDraw_history (r : Reg) (s : State) : (takeBusyDraw r s).env.history = s.env.history := by
  unfold takeBusyDraw; split_ifs <;> rfl

theorem takePoll_history (r : Reg) (s : State) : (takePoll r s).env.history = s.env.history := by
  unfold takePoll; split_ifs <;> rfl

theorem writeReg_history (r : Reg) (v : Word) (s : State) : (writeReg r v s).env.history = s.env.history := by
  unfold writeReg
  split_ifs
  · cases r <;> rfl
  · rfl

/-- A host access records a read or a write of a register (20_memory.md R101). -/
theorem hostStep_history {x : HostAccess} {s t : State} (h : hostStep x s = .next t) :
    (∃ a v, t.env.history = .hostRead a v :: s.env.history) ∨
      ∃ a v b, t.env.history = .hostWrite a v b :: s.env.history := by
  cases x with
  | read a size =>
    change hostRead a size s = .next t at h
    unfold hostRead at h
    cases hr : busReg a size with
    | none => rw [hr] at h; cases h
    | some r =>
      rw [hr] at h
      obtain rfl := next_eq_next_iff.1 h
      refine .inl ⟨a, busValue r s, ?_⟩
      rw [← takeBusyDraw_history r s, ← takePoll_history r (takeBusyDraw r s)]; rfl
  | write a size v =>
    obtain ⟨r, rfl, -⟩ := hostWrite_cases h
    exact .inr ⟨a, v, _, by rw [← writeReg_history r v s]; rfl⟩

/-- A frame that a step writes is the frame of the procedure in progress, at a transport request. -/
theorem step_wrote {s t : State} {f : List Byte} {ok : Bool} (hp : s.status.busy = true → pointOk s)
    (h : step s = .next t) (hw : t.env.history = .wrote f ok :: s.env.history) :
    s.status.busy = true ∧ atRequest s = true ∧ f = frameOf s.xfer s := by
  cases ht : s.env.turns with
  | nil => simp only [step, ht] at h; exact engineStep_wrote hp h hw
  | cons turn rest =>
    simp only [step, ht] at h
    cases turn with
    | engine => exact engineStep_wrote (s := popTurn s) hp h hw
    | host x =>
      rcases hostStep_history h with ⟨a, v, e⟩ | ⟨a, v, b, e⟩ <;> rw [e] at hw <;> cases hw
    | reset => cases h; cases hw

/-- Settles O60: the frame a step writes is the encoding of the payload in flight, which the invariant bounds. -/
theorem everyFrameWrittenIsWellFormed : Obligations.EveryFrameWrittenIsWellFormed := by
  intro s t f ok hI h hw
  obtain ⟨hb, hr, hf⟩ := step_wrote hI.point h hw
  exact ⟨s.xfer.addr, s.xfer.payload, (hI.message hb hr).1, hf⟩

end Sys2Proof.Machine
end

-- The requests of the negotiation and update families, and the encoder readings (30_encoding.md R127 to R138).
section
namespace Sys2Proof.Machine

/-! ## The points at which a request is built and a reply comes back -/

theorem exec_negotiation_build {s : State} {i : Instr} (hi : i = .negotiate ∨ ∃ a, i = .negotiateSeg a)
    (hf : s.fsm = .run) (hp : s.pt = .build) : exec i s = .next (negotiateBuild s) := by
  rcases hi with rfl | ⟨a, rfl⟩
  · exact congrArg Host.Outcome.next (atPoint_build _ _ _ _ hf hp)
  · exact congrArg Host.Outcome.next (atPoint_build _ _ _ _ hf hp)

theorem exec_update_build {s : State} {i : Instr} (hi : i = .update ∨ ∃ a, i = .updateSeg a)
    (hf : s.fsm = .run) (hp : s.pt = .build) : exec i s = .next (updateBuild s) := by
  rcases hi with rfl | ⟨a, rfl⟩
  · exact congrArg Host.Outcome.next (atPoint_build _ _ _ _ hf hp)
  · exact congrArg Host.Outcome.next (atPoint_build _ _ _ _ hf hp)

/-- The exchange of a request whose parts are known. -/
theorem Xfer.eq_of_parts {x : Xfer} {a : Byte} {p : List Byte} {t : Word} (hk : x.kind = .exchange) (ha : x.addr = a)
    (hp : x.payload = p) (ht : x.tms = t) : x = { kind := .exchange, addr := a, payload := p, tms := t } := by
  subst ha hp ht; rw [← hk]

/-- Settles O26: the build writes its fields one after the other, and their bits are the stream R133 lays out. -/
theorem negotiationBuildsTheRequest : Obligations.NegotiationBuildsTheRequest := by
  intro s i hi hf hp hw hlen
  obtain ⟨u, m, c, x, hu, e, hk, ha, ht, hpl, fr, hc, hhd, hbit⟩ := negotiateBuild_fits hw hlen
  have hu' : u = { s.setAttempts 1 with ports := u.ports } := by rw [← hu]; exact clampSegment_eq _ _
  have hmem : u.mem = s.mem := by rw [hu']; rfl
  refine ⟨_, (exec_negotiation_build hi hf hp).trans (congrArg Host.Outcome.next e), rfl, rfl, hc,
    Xfer.eq_of_parts hk ha hpl ht, hhd 0 (by decide), hhd 1 (by decide), hhd 2 (by decide), hbit,
    fun a h => (fr.memOut (hmem.symm ▸ hw) a h).trans (by rw [hmem]), ?_, ?_⟩
  · exact (congrArg State.status hu').trans rfl
  · exact (congrArg State.env hu').trans rfl

/-- Settles O32: the build writes its fields one after the other, and their bits are the stream R127 lays out. -/
theorem updateBuildsTheRequest : Obligations.UpdateBuildsTheRequest := by
  intro s i hi hf hp hw hd ho hlen
  obtain ⟨m, c, x, e, hk, ha, ht, hpl, fr, hc, hhd, hbit⟩ := updateBuild_fits hw hd ho hlen
  exact ⟨_, (exec_update_build hi hf hp).trans (congrArg Host.Outcome.next e), rfl, rfl, hc,
    Xfer.eq_of_parts hk ha hpl ht, hhd, hbit, fr.memOut hw, rfl, rfl, rfl, rfl⟩

theorem updateAfter_ports (s : State) : (updateAfter s).ports = s.ports := by unfold updateAfter; split_ifs <;> rfl

theorem updateSegAfter_ports (s : State) : (updateSegAfter s).ports = s.ports := rfl

/-- A valid reply is parsed; what follows the parse leaves the ports alone. -/
theorem exec_update_valid {s : State} {i : Instr} (hi : i = .update ∨ ∃ a, i = .updateSeg a) (hv : ValidReply s) :
    ∃ t, exec i s = .next t ∧ t.ports = (parseReply s.rxLen.toNat s.seg (clearOffsets s.seg s)).ports := by
  obtain ⟨hf, hp, hn, h3, -⟩ := hv
  have hr := (isValuesReply_iff s).2 ⟨hn, h3⟩
  rcases hi with rfl | ⟨a, rfl⟩
  · exact ⟨_, congrArg Host.Outcome.next ((atPoint_ret _ _ _ _ hf hp).trans (updateRet_valid hr)),
      updateAfter_ports _⟩
  · exact ⟨_, congrArg Host.Outcome.next ((atPoint_ret _ _ _ _ hf hp).trans (updateRet_valid hr)),
      updateSegAfter_ports _⟩

/-- Settles O37: the parse puts the values of the two fields into the segment's ports and keeps the other ports. -/
theorem updateParsesTheEncoders : Obligations.UpdateParsesTheEncoders := by
  intro s i hi hv
  obtain ⟨t, ht, hports⟩ := exec_update_valid hi hv
  obtain ⟨-, -, hn, -, hd⟩ := hv
  obtain ⟨c, ps, m, u, hu, -, -, hother, hown, -, -, -⟩ := updateParse_spec hn hd
  have hport : ∀ p, t.port p = u.port p := port_congr (hports.trans (congrArg State.ports hu))
  refine ⟨t, ht, ?_, ?_, fun p hl hh => (hport p).trans (hother p hl hh)⟩
  · rw [hport, hown _ (.inl rfl)]
    dsimp only
    rw [if_pos rfl]
  · rw [hport, hown _ (.inr rfl)]
    dsimp only
    rw [if_neg (lowPort_ne_highPort _).symm]

end Sys2Proof.Machine
end

-- The bitstream commands (40_bitstream.md R153 to R160).
section
namespace Sys2Proof.Machine

/-! ## NOP and BS_CLEAR -/

/-- Settles O11: NOP is the completion alone. -/
theorem nopCompletesChangingStatusOnly : Obligations.NopCompletesChangingStatusOnly :=
  fun s => congrArg Host.Outcome.next (complete_eq_doneState .ok s)

/-- Settles O12: the bytes cleared are those from TX[0] to the end of TX_BUF. -/
theorem bsClearZeroesTxBufAndCursor : Obligations.BsClearZeroesTxBufAndCursor :=
  fun s => ⟨s.mem.clear txBase 256, congrArg Host.Outcome.next (complete_eq_doneState .ok (clearTx s)),
    Memory.read_clear s.mem txBase 256⟩

/-! ## BS_WRITE -/

section
variable {a : Byte} {b : BitVec 3} {w : BitVec 6} {s : State}

theorem bsWrite_illegal (h : maxWidth < w.toNat) : bsWrite a b w s = doneState .illegal s := by
  unfold bsWrite
  rw [if_neg (Nat.not_le.2 h)]
  exact complete_eq_doneState _ _

theorem bsWrite_bounds (hw : w.toNat ≤ maxWidth) (h : 2048 < startBit a b s.cursor + w.toNat) :
    bsWrite a b w s = doneState .bounds s := by
  unfold bsWrite
  rw [if_pos hw, writeBits_bounds h]
  exact complete_eq_doneState _ _

theorem bsWrite_ok (hw : w.toNat ≤ maxWidth) (h : startBit a b s.cursor + w.toNat ≤ 2048) :
    bsWrite a b w s = doneState .ok
      { s with
        mem := s.mem.storeBits txBase (startBit a b s.cursor) s.arg0 w.toNat, cursor := advance s.cursor w.toNat } := by
  unfold bsWrite
  rw [if_pos hw, writeBits_ok h]
  exact complete_eq_doneState _ _

end

/-- A field that starts in a buffer and ends in it leaves room in the 12 bits of CURSOR. -/
theorem toNat_advance_of_startBit {a : Byte} {b : BitVec 3} {c : BitVec 12} {w : Nat}
    (h : startBit a b c + w ≤ 2048) : (advance c w).toNat = c.toNat + w := by
  unfold startBit at h
  exact toNat_advance (by omega)

/-- Settles O13: BS_WRITE is the store of one field at `startBit`, which assigns no bit outside the field. -/
theorem bsWriteAssignsExactlyTheField : Obligations.BsWriteAssignsExactlyTheField := by
  intro s a b w hwf q
  refine ⟨fun h => congrArg Host.Outcome.next (bsWrite_illegal h),
    fun hw h => congrArg Host.Outcome.next (bsWrite_bounds hw h),
    fun hw h => ⟨_, _, congrArg Host.Outcome.next (bsWrite_ok hw h), toNat_advance_of_startBit h, ?_, ?_⟩⟩
  · exact fun i _ => Memory.bit_storeBits hwf txBase q s.arg0 w.toNat i
  · intro x hx
    apply Memory.read_storeBits_of_outside hwf
    change q + w.toNat ≤ 2048 at h
    change x < 0x800 + q / 8 ∨ 0x800 + (q + w.toNat + 7) / 8 ≤ x
    omega

/-! ## BS_READ -/

section
variable {a : Byte} {b : BitVec 3} {sel : BufSel} {w : BitVec 6} {s : State}

theorem bsRead_illegal (h : maxWidth < w.toNat) : bsRead a b sel w s = doneState .illegal s := by
  unfold bsRead
  rw [if_neg (Nat.not_le.2 h)]
  exact complete_eq_doneState _ _

theorem bsRead_bounds (hw : w.toNat ≤ maxWidth) (h : 2048 < startBit a b s.cursor + w.toNat) :
    bsRead a b sel w s = doneState .bounds s := by
  unfold bsRead
  rw [if_pos hw, readBits_bounds h]
  exact complete_eq_doneState _ _

theorem bsRead_ok (hw : w.toNat ≤ maxWidth) (h : startBit a b s.cursor + w.toNat ≤ 2048) :
    bsRead a b sel w s = doneState .ok
      { s with
        result := s.mem.loadBits (bufBase sel) (startBit a b s.cursor) w.toNat,
        cursor := advance s.cursor w.toNat } := by
  unfold bsRead
  rw [if_pos hw, readBits_ok h]
  exact complete_eq_doneState _ _

end

/-- Settles O14: BS_READ is the load of one field at `startBit` of the selected buffer. -/
theorem bsReadReturnsExactlyTheField : Obligations.BsReadReturnsExactlyTheField := by
  intro s a b sel w q base
  have hbase : base = bufBase sel := by cases sel <;> rfl
  refine ⟨fun h => congrArg Host.Outcome.next (bsRead_illegal h),
    fun hw h => congrArg Host.Outcome.next (bsRead_bounds hw h),
    fun hw h => ⟨_, _, congrArg Host.Outcome.next (bsRead_ok hw h), toNat_advance_of_startBit h, fun i hi => ?_⟩⟩
  rw [hbase, Memory.getLsbD_loadBits, decide_eq_true hi, Bool.and_true]; rfl

/-! ## BS_NEEDED -/

theorem bitsNeeded_zero : bitsNeeded 0 = 0 := rfl

theorem bitsNeeded_of_pos {v : Nat} (h : 0 < v) : bitsNeeded v = Nat.log2 v + 1 := if_neg (Nat.ne_of_gt h)

theorem lt_two_pow_bitsNeeded {v : Nat} (h : 0 < v) : v < 2 ^ bitsNeeded v := by
  rw [bitsNeeded_of_pos h]; exact Nat.lt_log2_self

theorem two_pow_bitsNeeded_pred_le {v : Nat} (h : 0 < v) : 2 ^ (bitsNeeded v - 1) ≤ v := by
  rw [bitsNeeded_of_pos h]; exact Nat.log2_self_le (Nat.ne_of_gt h)

/-- The width of a word's value fits RESULT: it is at most 32. -/
theorem toNat_ofNat_bitsNeeded (v : Word) : (BitVec.ofNat 32 (bitsNeeded v.toNat)).toNat = bitsNeeded v.toNat := by
  have h : bitsNeeded v.toNat ≤ 32 := bitsNeeded_le v.isLt
  rw [BitVec.toNat_ofNat, Nat.mod_eq_of_lt (by omega)]

/-- Settles O15: RESULT is `bitsNeeded`, whose two bounds say that no smaller width will do. -/
theorem bsNeededReturnsTheSmallestWidth : Obligations.BsNeededReturnsTheSmallestWidth := by
  intro s
  refine ⟨BitVec.ofNat 32 (bitsNeeded s.arg0.toNat), congrArg Host.Outcome.next (complete_eq_doneState .ok _), ?_⟩
  rw [toNat_ofNat_bitsNeeded]
  refine ⟨fun h => by rw [h, bitsNeeded_zero], fun h => ⟨?_, two_pow_bitsNeeded_pred_le h, lt_two_pow_bitsNeeded h⟩⟩
  rw [bitsNeeded_of_pos h]; exact Nat.succ_pos _

end Sys2Proof.Machine
end

-- The clamp and the reply of a negotiation (42_negotiation.md R190, R192, R197).
section
namespace Sys2Proof.Machine

/-! ## The ports after a build -/

/-- The ports a negotiation build leaves are the clamped ones, whatever becomes of the build. -/
theorem negotiateBuild_port (s : State) (p : PortIx) :
    (negotiateBuild s).port p = (clampSegment s.seg (s.setAttempts 1)).port p := by
  obtain ⟨u, m, c, x, q, hu, e, -⟩ := negotiateBuild_cases s
  rw [e, hu]; rfl

/-- Settles O28: the build's ports are the clamped ones, and the clamp is known port by port. -/
theorem negotiationClampsDeviceCounts : Obligations.NegotiationClampsDeviceCounts := by
  intro s t i hi hf hp h p
  obtain rfl : negotiateBuild s = t := next_eq_next_iff.1 ((exec_negotiation_build hi hf hp).symm.trans h)
  exact (negotiateBuild_port s p).trans (clampSegment_port s.seg (s.setAttempts 1) p)

/-! ## The reply -/

section
variable {s : State} {r : Reply}

theorem exec_negotiate_ret (hf : s.fsm = .run) (hp : s.pt = .ret r) :
    exec .negotiate s = .next (negotiateRet negotiateAfter r s) :=
  congrArg Host.Outcome.next (atPoint_ret _ _ _ _ hf hp)

theorem exec_negotiateSeg_ret (a : Byte) (hf : s.fsm = .run) (hp : s.pt = .ret r) :
    exec (.negotiateSeg a) s = .next (negotiateRet (complete .ok) r s) :=
  congrArg Host.Outcome.next (atPoint_ret _ _ _ _ hf hp)

/-- When success completes with OK as well, the command completes with the reply's outcome in every case. -/
theorem negotiateRet_eq_doneState {after : State → State} (h : ackOutcome 2 r s = .ok → after s = complete .ok s) :
    negotiateRet after r s = doneState (ackOutcome 2 r s) s := by
  by_cases hk : ackOutcome 2 r s = .ok
  · rw [negotiateRet_ok hk, h hk, hk]; exact complete_eq_doneState _ _
  · rw [negotiateRet_fail hk]; exact complete_eq_doneState _ _

/-- The begin of a segment's cycle by a command that already runs. -/
theorem negotiateEnter_of_run (g : SegIx) (hf : s.fsm = .run) :
    negotiateEnter g s = { s with seg := g, status := { s.status with seg := g }, pt := .build } := by
  unfold negotiateEnter State.goto
  rw [← hf]; rfl

end

/-- Settles O29: success goes to segment 1 from NEGOTIATE's segment 0 only; every other outcome completes. -/
theorem negotiationReplyIsCheckedWithoutRetry : Obligations.NegotiationReplyIsCheckedWithoutRetry := by
  intro s r a hf hp
  rw [exec_negotiate_ret hf hp, exec_negotiateSeg_ret a hf hp]
  refine ⟨congrArg Host.Outcome.next (negotiateRet_eq_doneState fun _ => rfl), fun ⟨hk, hg⟩ => ?_,
    fun h => congrArg Host.Outcome.next (negotiateRet_eq_doneState fun hk => ?_)⟩
  · rw [negotiateRet_ok hk, negotiateAfter, if_pos hg, negotiateEnter_of_run 1 hf]
  · have hg : s.seg = 1 := h.resolve_left (absurd hk)
    rw [negotiateAfter, if_neg (hg ▸ by decide)]

end Sys2Proof.Machine
end

-- Rejected builds, failed attempts and the sensor fields of an update (43_update.md R223 to R225, R229, R230).
section
namespace Sys2Proof.Machine

/-! ## DEVCOUNT out of range -/

/-- Settles O33: `devCountsOk` fails at the port p, and the build it guards then leaves TX_BUF and CURSOR alone. -/
theorem updateRejectsDeviceCountsOutOfRange : Obligations.UpdateRejectsDeviceCountsOutOfRange := by
  intro s i p hi hf hp hport hc hd
  rw [exec_update_build hi hf hp, updateBuild_rejects (devCountsOk_false hport hc hd), State.goto, ← hf]
  rfl

/-! ## Failed attempts -/

section
variable {s : State} {r : Reply} {k : ErrKind}

theorem isValuesReply_eq_false (h : s.rxLen.toNat = 0 ∨ s.mem.read 0x900 ≠ 3) : isValuesReply s = false := by
  refine Bool.eq_false_iff.2 fun hv => ?_
  obtain ⟨hn, h3⟩ := (isValuesReply_iff s).1 hv
  exact h.elim (fun h0 => hn (BitVec.eq_of_toNat_eq h0)) (absurd h3)

/-- The state in which a failed attempt is classified: COMM alone keeps the segment's pending offsets. -/
def clearUnlessComm (r : Reply) (s : State) : State := if r = .comm then s else clearOffsets s.seg s

theorem clearUnlessComm_port (r : Reply) (s : State) (p : PortIx) : (clearUnlessComm r s).port p =
    if r ≠ .comm ∧ (p = lowPort s.seg ∨ p = highPort s.seg) then { s.port p with encOffset := 0 } else s.port p := by
  unfold clearUnlessComm
  by_cases hr : r = .comm
  · rw [if_pos hr, if_neg fun h => h.1 hr]
  · rw [if_neg hr, clearOffsets_port]
    exact if_congr (and_iff_right hr).symm rfl rfl

theorem clearUnlessComm_eq (r : Reply) (s : State) :
    clearUnlessComm r s = { s with ports := (clearUnlessComm r s).ports } := by
  unfold clearUnlessComm; split_ifs <;> rfl

/-- UPDATE and UPDATE_SEG differ after a successful attempt only. -/
theorem exec_update_fails {i : Instr} (hi : i = .update ∨ ∃ a, i = .updateSeg a) (hf : s.fsm = .run)
    (hp : s.pt = .ret r) (h : r = .ok → isValuesReply s = false) :
    exec i s = .next (updateFail (updateErr r) (clearUnlessComm r s)) := by
  rcases hi with rfl | ⟨a, rfl⟩
  · exact congrArg Host.Outcome.next ((atPoint_ret _ _ _ _ hf hp).trans (updateRet_fails h))
  · exact congrArg Host.Outcome.next ((atPoint_ret _ _ _ _ hf hp).trans (updateRet_fails h))

theorem updateFail_retry (hf : s.fsm = .run) (h : s.attempt.toNat < 2) : updateFail k s = { s with pt := .build } :=
  (if_pos h).trans (by rw [State.goto, ← hf])

theorem updateFail_last (h : 2 ≤ s.attempt.toNat) : updateFail k s = doneState k s :=
  (if_neg (Nat.not_lt.2 h)).trans (complete_eq_doneState k s)

end

/-- Settles O35: the attempt is classified first, and the number of attempts alone decides between retry and end. -/
theorem updateFailuresClassifyAndRetry : Obligations.UpdateFailuresClassifyAndRetry := by
  intro s i r hi hf hp hbad k
  have hk : updateErr r = k := by cases r <;> rfl
  have hexec := exec_update_fails hi hf hp fun hr => isValuesReply_eq_false (hbad hr)
  rw [hk, clearUnlessComm_eq] at hexec
  exact ⟨_, clearUnlessComm_port r s, fun h => hexec.trans (congrArg Host.Outcome.next (updateFail_retry hf h)),
    fun h => hexec.trans (congrArg Host.Outcome.next (updateFail_last h))⟩

/-! ## The sensor fields -/

/-- The readings a valid reply leaves in the segment's ports. -/
theorem exec_update_readings {s : State} {i : Instr} (hi : i = .update ∨ ∃ a, i = .updateSeg a) (hv : ValidReply s) :
    ∃ t, exec i s = .next t ∧ ∀ p, p = lowPort s.seg ∨ p = highPort s.seg →
      (t.port p).raw = rawAt s p (fieldStart s.seg s p) ∧
      (t.port p).color =
        if s.portClass p = .colorFull then colorsAt s (fieldStart s.seg s p + 3) else (s.port p).color := by
  obtain ⟨t, ht, hports⟩ := exec_update_valid hi hv
  obtain ⟨-, -, hn, -, hd⟩ := hv
  obtain ⟨c, ps, m, u, hu, -, -, -, hown, -⟩ := updateParse_spec hn hd
  refine ⟨t, ht, fun p hp => ?_⟩
  rw [port_congr (hports.trans (congrArg State.ports hu)) p, hown p hp]
  exact ⟨rfl, rfl⟩

/-- RAW_VALUE is as wide as the class of the port says (43_update.md R229, R231). -/
theorem toNat_rawAt (s : State) (p : PortIx) (q : Nat) :
    (s.portClass p = .touch → (rawAt s p q).toNat = rxBits s q 1) ∧
      (s.portClass p = .ultrasonic → (rawAt s p q).toNat = rxBits s q 8) ∧
      (s.portClass p = .default → (rawAt s p q).toNat = rxBits s q 10) ∧
      (s.portClass p = .colorFull → (rawAt s p q).toNat = rxBits s q 3) ∧
      (s.portClass p = .i2c → (rawAt s p q).toNat = rxBits s q (s.port p).devCount.toNat) := by
  refine ⟨fun hc => ?_, fun hc => ?_, fun hc => ?_, fun hc => ?_, fun hc => ?_⟩ <;> rw [rawAt, hc] <;> rfl

/-- A colour component of the wire fits its 10-bit slot. -/
theorem toNat_setWidth_loadBits (s : State) (q : Nat) :
    ((s.mem.loadBits rxBase q 10).setWidth 10).toNat = rxBits s q 10 := by
  rw [BitVec.toNat_setWidth]
  exact Nat.mod_eq_of_lt (Memory.loadBits_lt s.mem rxBase q 10)

/-- The slots red, green, blue, blank hold the components that follow blank on the wire, and blank (R230). -/
theorem colorsAt_slots (s : State) (q : Nat) :
    ((colorsAt s q)[3]).toNat = rxBits s q 10 ∧ ((colorsAt s q)[0]).toNat = rxBits s (q + 10) 10 ∧
      ((colorsAt s q)[1]).toNat = rxBits s (q + 20) 10 ∧ ((colorsAt s q)[2]).toNat = rxBits s (q + 30) 10 :=
  ⟨toNat_setWidth_loadBits s q, toNat_setWidth_loadBits s (q + 10), toNat_setWidth_loadBits s (q + 20),
    toNat_setWidth_loadBits s (q + 30)⟩

/-- Settles O38: RAW_VALUE is `rawAt` of the port's field by its class, and a colour port's slots are `colorsAt`. -/
theorem updateParsesTheSensorFields : Obligations.UpdateParsesTheSensorFields := by
  intro s i hi hv
  obtain ⟨t, ht, hread⟩ := exec_update_readings hi hv
  refine ⟨t, ht, fun p hp => ?_⟩
  obtain ⟨hraw, hcolor⟩ := hread p hp
  obtain ⟨htouch, hultra, hdefault, hcolorRaw, hi2c⟩ := toNat_rawAt s p (fieldStart s.seg s p)
  rw [hraw]
  refine ⟨htouch, hultra, hdefault, fun hc => ⟨hcolorRaw hc, ?_⟩, hi2c, fun hc => hcolor.trans (if_neg hc)⟩
  simp only [hcolor.trans (if_pos hc)]
  exact colorsAt_slots s (fieldStart s.seg s p + 3)

end Sys2Proof.Machine
end

-- The broadcasts to both segments, ESTOP and SET_TIMEOUT (44_aux_messages.md R251 to R254).
section
namespace Sys2Proof.Machine

section
variable {s : State} {tag : Byte} {p : List Byte} {r : Reply}

/-! ## The message to one segment -/

/-- The message to a segment by a command that already runs: attempt 1, timeout T_AUX_MS (R253). -/
theorem broadcastEnter_of_run {w : Word} (p : List Byte) (g : SegIx) (hf : s.fsm = .run)
    (hw : s.env.params.tAuxMs = w) :
    broadcastEnter p g s =
      { s with
        seg := g, attempt := 1, status := { s.status with attempts := 1 }, pt := .isOpen,
        xfer := { kind := .exchange, addr := BitVec.ofNat 8 (g.val + 1), payload := p, tms := w } } := by
  unfold broadcastEnter auxCall callTransport
  rw [← hf, ← hw]; rfl

/-- The end of a broadcast by a command that already runs. -/
theorem broadcastEnd_of_run (hf : s.fsm = .run) :
    broadcastEnd s = { s with status := { s.status with seg := s.auxSeg }, pt := .finish s.auxErr } := by
  unfold broadcastEnd State.goto
  rw [← hf]; rfl

/-! ## The return from a segment -/

theorem noteAuxErr_fsm (k : ErrKind) (s : State) : (noteAuxErr k s).fsm = s.fsm := by
  unfold noteAuxErr; split_ifs <;> rfl

theorem noteAuxErr_env (k : ErrKind) (s : State) : (noteAuxErr k s).env = s.env := by
  unfold noteAuxErr; split_ifs <;> rfl

/-- From segment 0 the message goes on to segment 1, whatever the outcome. -/
theorem broadcastRet_first (hg : s.seg = 0) :
    broadcastRet tag p r s = broadcastEnter p 1 (noteAuxErr (ackOutcome tag r s) s) := by
  rw [← ackErr_eq]; exact if_pos hg

/-- After segment 1 the broadcast ends. -/
theorem broadcastRet_last (hg : s.seg = 1) :
    broadcastRet tag p r s = broadcastEnd (noteAuxErr (ackOutcome tag r s) s) := by
  rw [← ackErr_eq]; exact if_neg (hg ▸ by decide)

/-! ## The two commands -/

/-- ESTOP and SET_TIMEOUT are one sequence; they differ in the tag and the payload only. -/
theorem exec_broadcast {i : Instr}
    (hi : (i = .estop ∧ tag = 4 ∧ p = estopPayload) ∨ (i = .setTimeout ∧ tag = 5 ∧ p = setTimeoutPayload s.arg0)) :
    exec i s = .next (atPoint (broadcastStart p) (broadcastEnter p) noBuild (broadcastRet tag p) s) := by
  obtain ⟨rfl, rfl, rfl⟩ | ⟨rfl, rfl, rfl⟩ := hi
  · rfl
  · rfl

end

/-- Settles O44: the reply decides what is noted, and the segment alone what comes next. -/
theorem broadcastsReachBothSegments : Obligations.BroadcastsReachBothSegments := by
  intro s i tag p hi hf send
  rw [exec_broadcast hi]
  refine ⟨fun hp => ?_, fun r hp => ?_⟩
  · rw [atPoint_start _ _ _ _ hf hp]
    exact congrArg Host.Outcome.next (broadcastEnter_of_run p 0 hf rfl)
  · intro k u
    have hn : noteAuxErr (ackOutcome tag r s) s = u := rfl
    have hfu : u.fsm = .run := hn ▸ (noteAuxErr_fsm _ s).trans hf
    have htu : u.env.params.tAuxMs = s.env.params.tAuxMs := by rw [← hn, noteAuxErr_env]
    rw [atPoint_ret _ _ _ _ hf hp]
    refine ⟨fun hg => ?_, fun hg => ?_⟩
    · rw [broadcastRet_first hg, hn, broadcastEnter_of_run p 1 hfu htu]
    · rw [broadcastRet_last hg, hn, broadcastEnd_of_run hfu]

end Sys2Proof.Machine
end

-- The start of a command by a host write to CMD (60_exceptions.md R280).
section
namespace Sys2Proof.Machine

/-- An engine that waits for no answer of the transport fetches the command latched in CMD (10_state.md R57). -/
theorem fetch_of_not_atRequest {s : State} (h : atRequest s = false) : fetch s = (decode (.command s.cmd)).toOption := by
  have hm : messageInFlight s = none := by rw [messageInFlight, h]; rfl
  rw [fetch, hm]

/-- The validated words are not CMD: the write is always stored, and storing it is the command start (R280). -/
theorem writeReg_cmd (v : Word) (s : State) : writeReg .cmd v s = startCommand v s := rfl

/-- A host's turn that writes CMD is the command start (R280); `hfree` holds as `mustPoll` does not look at the
schedule. -/
theorem step_host_write_cmd {s : State} {v : Word} {ts : List Turn} (hm : mustPoll s = false)
    (ht : s.env.turns = .host (.write (Reg.addr .cmd) 4 v) :: ts) :
    step s = .next
      ((startCommand v { s with env := { s.env with turns := ts } }).note (.hostWrite (Reg.addr .cmd) v true)) := by
  have hfree : mustPoll (popTurn s) = false := hm
  rw [step_host ht, hostStep, hostWrite_free hfree, writeReg_cmd, popTurn_eq ht]; rfl

/-- Settles O8: the step is `startCommand`, which leaves the engine at the start of the command, at no request. -/
theorem hostWriteToCmdStartsTheCommand : Obligations.HostWriteToCmdStartsTheCommand := by
  intro s v ts hbusy hpolled hturns
  exact ⟨step_host_write_cmd (mustPoll_eq_false.2 ⟨hbusy, hpolled⟩) hturns, fetch_of_not_atRequest rfl⟩

end Sys2Proof.Machine
end

-- The encoding of instructions (30_encoding.md parts A and B).
section
namespace Sys2Proof.Machine

/-! ## Command words by their opcode -/

/-- The reserved fields of a command word are 0 (30_encoding.md R110). -/
theorem reservedClear_iff {w : Word} : reservedClear w = true ↔ w.extractLsb' 5 3 = 0 ∧ w.extractLsb' 26 6 = 0 := by
  rw [reservedClear, Bool.and_eq_true, beq_iff_eq, beq_iff_eq]

theorem checkWidth_of_wellFormed {i : Instr} (h : i.wellFormed = true) : checkWidth i = .ok i := if_pos h

theorem checkLength_of_wellFormed {i : Instr} (h : i.wellFormed = true) : checkLength i = .ok i := if_pos h

/-- Settles O4: with the reserved fields 0 the decoder looks at OP, and then at the fields its command names. -/
theorem opcodeMapIgnoresUnnamedFields : Obligations.OpcodeMapIgnoresUnnamedFields := by
  intro w h5 h26 op a b sel wd
  have hclear : reservedClear w = true := reservedClear_iff.2 ⟨h5, h26⟩
  have hop : fieldOp w = op := rfl
  simp only [decode, decodeCommand, hclear, if_true, hop]
  refine ⟨?_, ?_, fun h hw => ?_, fun h hw => ?_, ?_, ?_, ?_, ?_, ?_, ?_, ?_, ?_, ?_, ?_⟩
  case refine_3 => rw [h]; exact checkWidth_of_wellFormed (decide_eq_true hw)
  case refine_4 => rw [h]; exact checkWidth_of_wellFormed (decide_eq_true hw)
  all_goals intro h; rw [h]; rfl

/-- Settles O5: each of the worked words is decoded by computation. -/
theorem workedWordsDecode : Obligations.WorkedWordsDecode := by
  unfold Obligations.WorkedWordsDecode
  decide

/-! ## Decoding what the encoder gives -/

/-- Settles O1: a command word gives its fields back, and a payload its bytes; the width and the length are those of a
well-formed instruction. -/
theorem everyWellFormedInstructionDecodesFromItsCode : Obligations.EveryWellFormedInstructionDecodesFromItsCode := by
  intro i hi
  cases i
  case wireChangeAddress | wireEmergencyStop => rfl
  case wireSetSensorType | wireReadValues => exact checkLength_of_wellFormed hi
  case wireSetTimeout t => exact congrArg (fun u => Except.ok (Instr.wireSetTimeout u)) (wordOfBytes_bytes t)
  all_goals
    simp only [encode, decode, decodeCommand, reservedClear_commandWord, fieldOp_commandWord, fieldA_commandWord,
      fieldB_commandWord, fieldS_commandWord, fieldW_commandWord, if_true]
  case bsWrite | bsRead => exact checkWidth_of_wellFormed hi
  all_goals rfl

theorem wellFormed_of_checkLength {i j : Instr} (h : checkLength i = .ok j) : j.wellFormed = true := by
  unfold checkLength at h
  split_ifs at h with hw
  exact Except.ok.inj h ▸ hw

/-- A payload decodes to well-formed instructions only: the lengths are tested where they vary (R124, R126). -/
theorem wellFormed_of_decode_message {p : List Byte} {i : Instr} (h : decode (.message p) = .ok i) :
    i.wellFormed = true := by
  cases p with
  | nil => cases h
  | cons tag rest =>
    change decodeTagged tag.toNat rest = .ok i at h
    unfold decodeTagged at h
    split at h
    · cases h; rfl
    · exact wellFormed_of_checkLength h
    · exact wellFormed_of_checkLength h
    · cases h; rfl
    · cases h; rfl
    · split_ifs at h

/-- Settles O2: the encoder inverts the decoder on payloads, whose lengths the decoder tests. -/
theorem messagePayloadsHaveOneMeaning : Obligations.MessagePayloadsHaveOneMeaning :=
  fun _ _ h => ⟨encode_of_decode_message h, wellFormed_of_decode_message h⟩

/-! ## The words that do not decode (30_encoding.md R114) -/

theorem decode_reserved {w : Word} (h : reservedClear w = false) : decode (.command w) = .error .reservedBits := by
  simp only [decode, decodeCommand, h, Bool.false_eq_true, if_false]

/-- The width test fails exactly above 32 bits. -/
theorem checkWidth_fails_iff {i : Instr} {n : Nat} (h : i.wellFormed = decide (n ≤ maxWidth)) :
    (∃ e, checkWidth i = .error e) ↔ 32 < n := by
  unfold checkWidth
  rw [h]
  by_cases hn : n ≤ maxWidth
  · simp only [hn, decide_true, if_true, reduceCtorEq, exists_false, false_iff]
    exact Nat.not_lt.2 hn
  · simp only [hn, decide_false, Bool.false_eq_true, if_false, Except.error.injEq, exists_eq', true_iff]
    exact Nat.lt_of_not_le hn

/-- Exactly the listed words do not decode: reserved bits, then OP, then the width of BS_WRITE and BS_READ. -/
theorem decode_fails_iff (w : Word) : (∃ e, decode (.command w) = .error e) ↔ illegalWord w := by
  cases hr : reservedClear w with
  | false =>
    have hbad : w.extractLsb' 5 3 ≠ 0 ∨ w.extractLsb' 26 6 ≠ 0 := by
      rw [← not_and_or, ← reservedClear_iff, hr]; exact Bool.false_ne_true
    refine iff_of_true ⟨_, decode_reserved hr⟩ ?_
    exact .inr (hbad.elim .inl fun h => .inr (.inl h))
  | true =>
    obtain ⟨h5, h26⟩ := reservedClear_iff.1 hr
    have hop : (w.extractLsb' 0 5).toNat = fieldOp w := rfl
    have hlt : fieldOp w < 32 := (w.extractLsb' 0 5).isLt
    simp only [illegalWord, h5, h26, hop, ne_eq, not_true_eq_false, false_or, decode, decodeCommand, hr, if_true]
    generalize fieldOp w = n at hlt ⊢
    split
    case h_3 => exact (checkWidth_fails_iff rfl).trans (by simp [fieldW])
    case h_4 => exact (checkWidth_fails_iff rfl).trans (by simp [fieldW])
    case h_15 =>
      simp only [imp_false] at *
      exact iff_of_true ⟨_, rfl⟩ (.inl (by omega))
    all_goals exact iff_of_false (fun ⟨_, h⟩ => by cases h) (by omega)

/-! ## The engine's turn -/

/-- At the engine's turn, scheduled or not, the engine moves and the turn is taken (log 5). -/
theorem step_engine_turn {s : State} (ht : s.env.turns = [] ∨ ∃ ts, s.env.turns = .engine :: ts) :
    step s = engineStep (popTurn s) := by
  rcases ht with ht | ⟨ts, ht⟩
  · have h : popTurn s = s := by unfold popTurn; rw [ht]; exact turns_self ht
    simp only [step, ht, h]
  · simp only [step, ht]

theorem engineStep_idle {s : State} (hb : s.status.busy = false) : engineStep s = .next s := by
  simp only [engineStep, hb, Bool.false_eq_true, if_false]

theorem engineStep_fetched {s : State} {i : Instr} (hb : s.status.busy = true) (hf : fetch s = some i) :
    engineStep s = exec i s := by
  simp only [engineStep, hb, hf, if_true]

theorem engineStep_illegal {s : State} (hb : s.status.busy = true) (hf : fetch s = none) :
    engineStep s = .next (doneState .illegal s) := by
  simp only [engineStep, hb, hf, if_true]; rfl

/-- Settles O3: a word that does not decode leaves nothing to fetch, and the engine then completes with ILLEGAL. -/
theorem illegalWordsCompleteWithIllegal : Obligations.IllegalWordsCompleteWithIllegal := by
  refine ⟨decode_fails_iff, fun s hill hb hf hp ht => ?_⟩
  obtain ⟨e, he⟩ := (decode_fails_iff s.cmd).2 hill
  have hreq : atRequest (popTurn s) = false := by simp [atRequest, popTurn, hf, hp]
  have hfetch : fetch (popTurn s) = none := by
    rw [fetch_of_not_atRequest hreq]
    change (decode (.command s.cmd)).toOption = none
    rw [he]; rfl
  exact (step_engine_turn ht).trans (engineStep_illegal (s := popTurn s) hb hfetch)

/-- An engine that is idle or at a point of the command's own waits for no answer of the transport. -/
theorem atRequest_eq_false {s : State} (h : s.fsm = .idle ∨ (s.fsm = .run ∧ s.pt ≠ .isOpen ∧ s.pt ≠ .setTimeout)) :
    atRequest s = false := by
  rcases h with hf | ⟨hf, h1, h2⟩
  · simp [atRequest, hf]
  · cases hp : s.pt
    case isOpen => exact absurd hp h1
    case setTimeout => exact absurd hp h2
    all_goals simp [atRequest, hf, hp]

theorem atRequest_eq_true {s : State} (h : s.fsm ≠ .idle ∧ (s.fsm = .run → s.pt = .isOpen ∨ s.pt = .setTimeout)) :
    atRequest s = true := by
  obtain ⟨hne, hrun⟩ := h
  cases hf : s.fsm
  case idle => exact absurd hf hne
  case run => rcases hrun hf with hp | hp <;> simp [atRequest, hf, hp]
  all_goals simp [atRequest, hf]

/-- Settles O7: the turn is taken, and what is fetched depends on whether an exchange waits for an answer. -/
theorem stepRunsTheFetchedInstruction : Obligations.StepRunsTheFetchedInstruction := by
  refine ⟨fun s hb ht => ?_, fun s i hb ht hf => ?_, fun s i h hd => fetch_command (.inl (atRequest_eq_false h)) hd,
    fun s i h hd => fetch_command (.inr h) hd, fun s i h hk hd => fetch_message (atRequest_eq_true h) hk hd⟩
  · exact (step_engine_turn ht).trans (engineStep_idle hb)
  · exact (step_engine_turn ht).trans (engineStep_fetched (s := popTurn s) hb hf)

end Sys2Proof.Machine
end

-- The register map, the reset event and the ends of a command's own steps.
section
namespace Sys2Proof.Machine

/-! ## The register map (10_state.md R31) -/

/-- An access that reaches a word has 4 bytes and the word's address. -/
theorem eq_addr_of_busReg {a : Addr} {n : Nat} {r : Reg} (h : busReg a n = some r) : a = r.addr ∧ n = 4 := by
  unfold busReg at h
  split_ifs at h with hc
  obtain ⟨hn, ha⟩ := hc
  exact ⟨BitVec.eq_of_toNat_eq ((decodeReg_sound ha h).symm.trans (addr_toNat r).symm), hn⟩

/-- Settles O6: `decodeReg` and `Reg.offset` are inverse to each other on aligned addresses. -/
theorem registerMapReachesEachWordAtItsAddress : Obligations.RegisterMapReachesEachWordAtItsAddress :=
  ⟨busReg_addr, fun _ _ _ => eq_addr_of_busReg⟩

/-! ## Reset (10_state.md R61) -/

theorem port_reset (p : PortIx) : State.reset.port p = Port.reset := Vector.getElem_replicate ..

theorem color_reset (i : Fin 4) : Port.reset.color[i.val] = 0 := Vector.getElem_replicate ..

theorem dev_reset (d : SlotIx) : Port.reset.dev[d.val] = Dev.reset := Vector.getElem_replicate ..

theorem readWord_nil (a : Nat) : Memory.readWord [] a = 0 := by
  simp only [Memory.readWord, Memory.read_nil]; rfl

/-- Every register of the reset state reads 0. -/
theorem readReg_reset (r : Reg) : readReg State.reset r = 0 := by
  cases r
  case color p i => simp only [readReg, port_reset, color_reset]; rfl
  case i2cDev p d => simp only [readReg, port_reset, dev_reset]; rfl
  case motorEn p | motorSpeed p | encOffset p | encoder p | sensorType p | rawValue p | i2cCfg p =>
    simp only [readReg, port_reset]; rfl
  case i2cOut | i2cIn | txBuf | rxBuf => exact readWord_nil _
  case cmd | status | arg0 | result | cursor => rfl

theorem step_reset {s : State} {ts : List Turn} (ht : s.env.turns = .reset :: ts) :
    step s = .next (State.reset.setEnv
      { s.env with turns := ts, history := .reset :: s.env.history, unpolled := false }) := by
  simp only [step, ht, popTurn_eq ht, resetEvent]

/-- Settles O10: the reset event is the reset state with the surroundings that were, and those are not read. -/
theorem resetClearsTheEngineAndNotTheTransport : Obligations.ResetClearsTheEngineAndNotTheTransport := by
  intro s ts ht
  have hread (r : Reg) (e : Env) : readReg (State.reset.setEnv e) r = readReg State.reset r := by cases r <;> rfl
  exact ⟨_, step_reset ht, fun r => (hread r _).trans (readReg_reset r), Memory.read_nil, rfl, rfl, rfl, rfl, rfl, rfl, rfl, rfl⟩

/-- Settles O58: no command runs after reset, and its registers are 0. -/
theorem resetMeetsTheInvariant : Obligations.ResetMeetsTheInvariant where
  memory := ⟨Memory.wf_nil, by simp [State.reset]⟩
  status := by unfold statusOk; decide
  point h := absurd h (by decide)
  values p := by rw [port_reset]; unfold Port.valuesOk; decide
  attempts := by unfold attemptsOk; decide
  rxlen := rfl
  rxTail := rfl
  config h := absurd h (by decide)
  message h := absurd h (by decide)
  poll h := absurd h (by decide)

/-! ## Completion, and the two views of an exchange -/

/-- A command that uses the sequencer completes at its `finish` point. -/
theorem exec_finish {i : Instr} {s : State} {k : ErrKind} (hi : commandKind i ≠ .single) (hf : s.fsm = .run)
    (hp : s.pt = .finish k) : exec i s = .next (complete k s) := by
  cases i
  case frameTx | frameRx | negotiate | negotiateSeg | update | updateSeg | changeAddr | estop | setTimeout =>
    exact congrArg Host.Outcome.next (atPoint_finish _ _ _ _ hf hp)
  all_goals exact absurd rfl hi

/-- Settles O9: every command with a completion point does there what `complete` does. -/
theorem finishCompletesTheCommand : Obligations.FinishCompletesTheCommand := by
  intro i s k hi hf hp
  rw [exec_finish hi hf hp, complete_eq_doneState]

/-- Settles O24: both are the transport request of the procedure in progress. -/
theorem messageStepIsTheCommandsExchangeStep : Obligations.MessageStepIsTheCommandsExchangeStep := by
  intro i m s hi hr hk hd
  rw [exec_command_request hi hr, exec_message_request hk hr (encode_of_decode_message hd)]

/-! ## The segment operands (42_negotiation.md R191, 43_update.md R211) -/

section
variable {s : State} (hf : s.fsm = .run) (hp : s.pt = .start)
include hf hp

theorem exec_frameTx_start (a : Byte) : exec (.frameTx a) s = .next (frameTxStart a s) :=
  congrArg Host.Outcome.next (atPoint_start _ _ _ _ hf hp)

theorem exec_frameRx_start : exec .frameRx s = .next (frameRxStart s) :=
  congrArg Host.Outcome.next (atPoint_start _ _ _ _ hf hp)

theorem exec_negotiate_start : exec .negotiate s = .next (negotiateEnter 0 s) :=
  congrArg Host.Outcome.next (atPoint_start _ _ _ _ hf hp)

theorem exec_negotiateSeg_start (a : Byte) : exec (.negotiateSeg a) s = .next (negotiateSegStart a s) :=
  congrArg Host.Outcome.next (atPoint_start _ _ _ _ hf hp)

theorem exec_update_start : exec .update s = .next (updateEnter 0 s) :=
  congrArg Host.Outcome.next (atPoint_start _ _ _ _ hf hp)

theorem exec_updateSeg_start (a : Byte) : exec (.updateSeg a) s = .next (updateSegStart a s) :=
  congrArg Host.Outcome.next (atPoint_start _ _ _ _ hf hp)

theorem exec_changeAddr_start (a : Byte) : exec (.changeAddr a) s = .next (changeAddrStart a s) :=
  congrArg Host.Outcome.next (atPoint_start _ _ _ _ hf hp)

end

/-- The begin of a segment's update cycle by a command that already runs. -/
theorem updateEnter_of_run {s : State} (g : SegIx) (hf : s.fsm = .run) : updateEnter g s =
    { s with seg := g, status := { s.status with seg := g }, attempt := 0, pt := .build } := by
  unfold updateEnter
  rw [← hf]; rfl

theorem negotiateSegStart_none {s : State} {a : Byte} (h : 1 < a.toNat) :
    negotiateSegStart a s = doneState .validation s := by
  rw [negotiateSegStart, segOperand_none h]; rfl

theorem negotiateSegStart_some {s : State} {a : Byte} {g : SegIx} (h : a.toNat = g.val) :
    negotiateSegStart a s = negotiateEnter g s := by
  rw [negotiateSegStart, segOperand_some h]

theorem updateSegStart_none {s : State} {a : Byte} (h : 1 < a.toNat) :
    updateSegStart a s = doneState .validation s := by
  rw [updateSegStart, segOperand_none h]; rfl

theorem updateSegStart_some {s : State} {a : Byte} {g : SegIx} (h : a.toNat = g.val) :
    updateSegStart a s = updateEnter g s := by
  rw [updateSegStart, segOperand_some h]

/-- Settles O25: the operand is a segment or none, and a segment is entered at its build. -/
theorem segmentOperandsAreCheckedAtTheStart : Obligations.SegmentOperandsAreCheckedAtTheStart := by
  intro s a hf hp enter
  rw [exec_negotiate_start hf hp, exec_negotiateSeg_start hf hp, exec_update_start hf hp, exec_updateSeg_start hf hp,
    negotiateEnter_of_run 0 hf, updateEnter_of_run 0 hf]
  refine ⟨fun h => ?_, fun g h => ?_, rfl, rfl⟩
  · rw [negotiateSegStart_none h, updateSegStart_none h]; exact ⟨rfl, rfl⟩
  · rw [negotiateSegStart_some h, updateSegStart_some h, negotiateEnter_of_run g hf, updateEnter_of_run g hf]
    exact ⟨rfl, rfl⟩

/-! ## FRAME_TX, FRAME_RX and CHANGE_ADDR (41_frame.md R177, R178, 44_aux_messages.md R250) -/

/-- `Transmit` of the first `n` bytes of TX_BUF. -/
def transmitXfer (a : Byte) (s : State) : Xfer :=
  { kind := .transmit, addr := a, payload := (List.range s.arg0.toNat).map (fun i => s.mem.read (0x800 + i)), tms := 0 }

theorem frameTxStart_none {s : State} (a : Byte) (h : 255 < s.arg0.toNat) :
    frameTxStart a s = doneState .validation s := by
  rw [frameTxStart, byteOperand_none h]; rfl

theorem frameTxStart_some {s : State} (a : Byte) (h : s.arg0.toNat ≤ 255) :
    frameTxStart a s = callTransport (transmitXfer a s) s := by
  have hn : (BitVec.ofNat 8 s.arg0.toNat).toNat = s.arg0.toNat := toNat_headerOffset (by omega)
  simp only [frameTxStart, byteOperand_some h, hn]; rfl

theorem callTransport_of_run {s : State} (x : Xfer) (hf : s.fsm = .run) :
    callTransport x s = { s with pt := .isOpen, xfer := x } := by
  rw [callTransport, ← hf]

section
variable {s : State} {r : Reply} (hf : s.fsm = .run) (hp : s.pt = .ret r)
include hf hp

theorem exec_frameTx_ret (a : Byte) : exec (.frameTx a) s = .next (doneState r.err s) :=
  congrArg Host.Outcome.next (atPoint_ret _ _ _ _ hf hp)

theorem exec_frameRx_ret : exec .frameRx s = .next (frameRxRet r s) :=
  congrArg Host.Outcome.next (atPoint_ret _ _ _ _ hf hp)

theorem exec_changeAddr_ret (a : Byte) : exec (.changeAddr a) s = .next (doneState (ackOutcome 1 r s) s) := by
  rw [← ackErr_eq]
  exact congrArg Host.Outcome.next (atPoint_ret _ _ _ _ hf hp)

end

/-- Settles O19: each of the three has one step before its transport procedure and one after it. -/
theorem frameCommandsCallTheTransportAndCompleteAtItsReturn :
    Obligations.FrameCommandsCallTheTransportAndCompleteAtItsReturn := by
  intro s a hf
  have ret (r : Reply) (hp : s.pt = .ret r) : exec (.frameTx a) s = .next (doneState r.err s) ∧
      exec .frameRx s = .next (frameRxRet r s) ∧ exec (.changeAddr a) s = .next (doneState (ackOutcome 1 r s) s) :=
    ⟨exec_frameTx_ret hf hp a, exec_frameRx_ret hf hp, exec_changeAddr_ret hf hp a⟩
  refine ⟨fun hp => ⟨fun h => ?_, fun h => ?_, ?_⟩, ret .ok, ret .checksum, ret .comm⟩
  · rw [exec_frameTx_start hf hp, frameTxStart_none a h]
  · rw [exec_frameTx_start hf hp, frameTxStart_some a h, callTransport_of_run _ hf]; rfl
  · rw [exec_frameRx_start hf hp, frameRxStart, callTransport_of_run _ hf]

end Sys2Proof.Machine
end

-- The sign-magnitude fields (40_bitstream.md R157 to R161).
section
namespace Sys2Proof.Machine

/-! ## The encoding of a number -/

theorem smEncode_width (x : Int) : (smEncode x).1 = bitsNeeded x.natAbs + 1 := rfl

theorem smEncode_value (x : Int) : (smEncode x).2 = 2 * x.natAbs + (if x < 0 then 1 else 0) := rfl

theorem natAbs_lt_two_pow_bitsNeeded (x : Int) : x.natAbs < 2 ^ bitsNeeded x.natAbs := by
  rcases Nat.eq_zero_or_pos x.natAbs with h | h
  · rw [h]; exact Nat.two_pow_pos _
  · exact lt_two_pow_bitsNeeded h

/-- The value of a field fits its width: one bit for the sign below the magnitude. -/
theorem smEncode_lt (x : Int) : (smEncode x).2 < 2 ^ (smEncode x).1 := by
  have h := natAbs_lt_two_pow_bitsNeeded x
  rw [smEncode_width, smEncode_value, Nat.pow_succ]
  split_ifs <;> omega

/-- A field of a number below 2^30 in magnitude is at most 31 bits wide. -/
theorem smEncode_width_le {x : Int} (h : x.natAbs < 2 ^ 30) : (smEncode x).1 ≤ 31 :=
  Nat.succ_le_succ (bitsNeeded_le h)

/-- Decoding an encoded number gives it back: the sign is the lowest bit, the magnitude the rest. -/
theorem smDecode_smEncode (x : Int) : smDecode (smEncode x).2 = x := by
  rw [smEncode_value, smDecode]
  by_cases hx : x < 0
  · rw [if_pos hx, if_pos (by omega)]; omega
  · rw [if_neg hx, if_neg (by omega)]; omega

theorem smDecode_eq_testBit (v : Nat) :
    smDecode v = if v.testBit 0 then -((v >>> 1 : Nat) : Int) else ((v >>> 1 : Nat) : Int) := by
  rw [smDecode, Nat.testBit_zero, Nat.shiftRight_eq_div_pow, Nat.pow_one]
  simp only [decide_eq_true_eq]

theorem natAbs_smDecode (v : Nat) : (smDecode v).natAbs = v / 2 := by
  unfold smDecode
  split_ifs <;> omega

/-- Settles O16: width, value and sign of a field are read off `bitsNeeded` of the magnitude. -/
theorem signMagnitudeEncodesAndDecodes : Obligations.SignMagnitudeEncodesAndDecodes := by
  refine ⟨fun x hx => ⟨Nat.succ_pos _, smEncode_width_le (by omega), natAbs_lt_two_pow_bitsNeeded x, fun h0 => ?_,
    rfl, smEncode_lt x, smDecode_smEncode x⟩, rfl, fun v => ⟨smDecode_eq_testBit v, fun hv => ?_⟩⟩
  · exact two_pow_bitsNeeded_pred_le (Int.natAbs_pos.2 h0)
  · rw [natAbs_smDecode]; omega

/-! ## Through a buffer -/

/-- A field that fits its width, written anywhere in a buffer, reads back from the same cursor (R161). -/
theorem readBits_writeBits {buf : BufSel} {a : Byte} {b : BitVec 3} {w : Nat} {v : Word} {s : State} (hw : s.mem.wf)
    (hfit : startBit a b s.cursor + w ≤ 2048) (hv : v.toNat < 2 ^ w) :
    ∃ s' s'' : State, writeBits buf a b w v s = some s' ∧
      readBits buf a b w { s' with cursor := s.cursor } = some (v, s'') := by
  let t : State := { s with mem := s.mem.storeBits (bufBase buf) (startBit a b s.cursor) v w }
  have hread := readBits_ok (buf := buf) (s := t) hfit
  rw [show t.mem.loadBits (bufBase buf) (startBit a b t.cursor) w = v from
    Memory.loadBits_storeBits hw (bufBase buf) _ v w hv] at hread
  exact ⟨_, _, writeBits_ok hfit, hread⟩

/-- Settles O17: the field fits its width and the word, so that it reads back and decodes to the number. -/
theorem signMagnitudeFieldsRoundTripThroughABuffer : Obligations.SignMagnitudeFieldsRoundTripThroughABuffer := by
  intro s buf a b x hw hx hfit
  have hlt := smEncode_lt x
  have hvalue : (BitVec.ofNat 32 (smEncode x).2).toNat = (smEncode x).2 := by
    have h31 : 2 ^ (smEncode x).1 ≤ 2 ^ 31 := Nat.pow_le_pow_right (by omega) (smEncode_width_le hx)
    rw [BitVec.toNat_ofNat, Nat.mod_eq_of_lt (by omega)]
  obtain ⟨s', s'', hwrite, hread⟩ := readBits_writeBits (buf := buf) hw hfit (hvalue.symm ▸ hlt)
  exact ⟨s', s'', _, hwrite, hread, hvalue, hvalue.symm ▸ smDecode_smEncode x⟩

end Sys2Proof.Machine
end

-- Everything an instruction can do in one step, and everything a step of the machine can do.
section
namespace Sys2Proof.Machine

/-! ## The rows of the exchange, as one case analysis (41_frame.md R176) -/

section
variable {x : Xfer} {s : State}

theorem linkStep_cases (P : State → Prop) (hr : atRequest s = true)
    (hopen : ∀ e, (s.fsm = .run ∧ s.pt = .isOpen) ∨ s.fsm = .opening → P (linkOpen x (s.setEnv e)))
    (hclosed : ∀ e, s.fsm = .run → s.pt = .isOpen → P ((s.setEnv e).goto .opening .isOpen))
    (htimeout : ∀ e, s.fsm = .run → s.pt = .setTimeout → x.kind ≠ .receive → P ((s.setEnv e).goto .send .setTimeout))
    (hbegin : ∀ e, (s.fsm = .run ∧ s.pt = .setTimeout) ∨ s.fsm = .send → x.kind ≠ .transmit →
      P (beginReceive (s.setEnv e)))
    (hsent : ∀ e, s.fsm = .send → x.kind = .transmit → P (returnReply .ok (s.setEnv e)))
    (hcomm : ∀ e, P (returnReply .comm (s.setEnv e)))
    (hchk : ∀ e c, s.fsm = .rxChk → P { s.setEnv e with rxChk := c, fsm := .rxLen })
    (hlen : ∀ e n, s.fsm = .rxLen → P (takeLength n (s.setEnv e)))
    (hpay : ∀ e b, s.fsm = .rxPay → P (takePayload b (s.setEnv e))) : P (linkStep x s) := by
  have readFails (h : s.fsm = .rxChk ∨ s.fsm = .rxLen ∨ s.fsm = .rxPay)
      (ha : s.env.askRead.1 = .timeout ∨ s.env.askRead.1 = .fail) : P (linkStep x s) := by
    rw [linkStep_read_fail h ha]; exact hcomm _
  cases hf : s.fsm with
  | idle => simp [atRequest, hf] at hr
  | run =>
    cases hp : s.pt with
    | isOpen =>
      cases ha : s.env.askIsOpen.1
      · rw [linkStep_isOpen_false hf hp ha]; exact hclosed _ hf hp
      · rw [linkStep_isOpen_true hf hp ha]; exact hopen _ (.inl ⟨hf, hp⟩)
    | setTimeout =>
      by_cases hk : x.kind = .receive
      · rw [linkStep_setTimeout_receive hf hp hk]; exact hbegin _ (.inl ⟨hf, hp⟩) (by rw [hk]; decide)
      · rw [linkStep_setTimeout_send hf hp hk]; exact htimeout _ hf hp hk
    | start | enter | build | ret | finish => simp [atRequest, hf, hp] at hr
  | opening =>
    cases ha : s.env.askOpen.1
    · rw [linkStep_opening_false hf ha]; exact hcomm _
    · rw [linkStep_opening_true hf ha]; exact hopen _ (.inr hf)
  | send =>
    cases ha : (s.env.askWrite (frameOf x s)).1
    · rw [linkStep_send_fail hf ha]; exact hcomm _
    · by_cases hk : x.kind = .transmit
      · rw [linkStep_send_transmit hf hk ha]; exact hsent _ hf hk
      · rw [linkStep_send_receive hf hk ha]; exact hbegin _ (.inr hf) hk
  | rxChk =>
    cases ha : s.env.askRead.1 with
    | byte c => rw [linkStep_rxChk hf ha]; exact hchk _ c hf
    | timeout => exact readFails (.inl hf) (.inl ha)
    | fail => exact readFails (.inl hf) (.inr ha)
  | rxLen =>
    cases ha : s.env.askRead.1 with
    | byte n => rw [linkStep_rxLen hf ha]; exact hlen _ n hf
    | timeout => exact readFails (.inr (.inl hf)) (.inl ha)
    | fail => exact readFails (.inr (.inl hf)) (.inr ha)
  | rxPay =>
    cases ha : s.env.askRead.1 with
    | byte b => rw [linkStep_rxPay hf ha]; exact hpay _ b hf
    | timeout => exact readFails (.inr (.inr hf)) (.inl ha)
    | fail => exact readFails (.inr (.inr hf)) (.inr ha)

/-- A transport request leaves the engine running. -/
theorem linkStep_fsm_ne_idle (hr : atRequest s = true) : (linkStep x s).fsm ≠ .idle := by
  refine linkStep_cases (fun t => t.fsm ≠ .idle) hr (fun e _ => ?opened) (fun _ _ _ => ?_) (fun _ _ _ _ => ?_) (fun _ _ _ => ?_)
    (fun _ _ _ => ?_) (fun _ => ?_) (fun _ _ _ => ?_) (fun e n _ => ?length) (fun e b hf => ?payload)
  case opened => unfold linkOpen; cases x.kind <;> exact Fsm.noConfusion
  case length => dsimp only [takeLength]; rw [checkReply_eq]; split_ifs <;> exact Fsm.noConfusion
  case payload =>
    dsimp only [takePayload]
    split_ifs
    · change s.fsm ≠ .idle; rw [hf]; exact Fsm.noConfusion
    · rw [checkReply_eq]; split_ifs <;> exact Fsm.noConfusion
  all_goals exact Fsm.noConfusion

end

/-! ## A command's own steps -/

/-- `t` differs from `s` only in what a command's own steps write before they complete: of STATUS the fields UNDERRUN,
SEG and ATTEMPTS, of memory nothing from RX_BUF on. -/
structure OwnFrame (s t : State) : Prop where
  cmd : t.cmd = s.cmd
  arg0 : t.arg0 = s.arg0
  result : t.result = s.result
  env : t.env = s.env
  rxLen : t.rxLen = s.rxLen
  status : ∃ u g n, t.status = { s.status with underrun := u, seg := g, attempts := n }
  memWf : s.mem.wf → t.mem.wf
  memIn : s.mem.within arrayBase arrayEnd → t.mem.within arrayBase arrayEnd
  memRx : s.mem.wf → ∀ a, 0x900 ≤ a → t.mem.read a = s.mem.read a

namespace OwnFrame

variable {s t u : State}

/-- A step that leaves memory alone. -/
theorem of_mem (hcmd : t.cmd = s.cmd) (harg : t.arg0 = s.arg0) (hres : t.result = s.result) (henv : t.env = s.env)
    (hlen : t.rxLen = s.rxLen) (hst : ∃ u g n, t.status = { s.status with underrun := u, seg := g, attempts := n })
    (hmem : t.mem = s.mem) : OwnFrame s t :=
  ⟨hcmd, harg, hres, henv, hlen, hst, fun h => hmem ▸ h, fun h => hmem ▸ h, fun _ _ _ => by rw [hmem]⟩

theorem refl (s : State) : OwnFrame s s := of_mem rfl rfl rfl rfl rfl ⟨_, _, _, rfl⟩ rfl

theorem trans (h : OwnFrame s t) (k : OwnFrame t u) : OwnFrame s u where
  cmd := k.cmd.trans h.cmd
  arg0 := k.arg0.trans h.arg0
  result := k.result.trans h.result
  env := k.env.trans h.env
  rxLen := k.rxLen.trans h.rxLen
  status := by
    obtain ⟨u1, g1, n1, e1⟩ := h.status
    obtain ⟨u2, g2, n2, e2⟩ := k.status
    exact ⟨u2, g2, n2, by rw [e2, e1]⟩
  memWf w := k.memWf (h.memWf w)
  memIn w := k.memIn (h.memIn w)
  memRx w a ha := (k.memRx (h.memWf w) a ha).trans (h.memRx w a ha)

theorem of_txFrame (h : TxFrame s t) : OwnFrame s t := by
  obtain ⟨m, c, e⟩ := h.eq
  exact ⟨by rw [e], by rw [e], by rw [e], by rw [e], by rw [e], ⟨_, _, _, by rw [e]⟩, h.memWf, h.memIn,
    fun w a ha => h.memOut w a (.inr ha)⟩

theorem of_parseFrame {g : SegIx} (h : ParseFrame g s t) : OwnFrame s t := by
  have e := h.eq
  exact ⟨by rw [e], by rw [e], by rw [e], by rw [e], by rw [e], ⟨_, _, _, by rw [e]⟩, h.memWf, h.memIn,
    fun w a ha => h.memOut w a (.inr (by omega))⟩

theorem callTransport (x : Xfer) (s : State) : OwnFrame s (callTransport x s) :=
  of_mem rfl rfl rfl rfl rfl ⟨_, _, _, rfl⟩ rfl

theorem goto (f : Fsm) (p : Point) (s : State) : OwnFrame s (s.goto f p) :=
  of_mem rfl rfl rfl rfl rfl ⟨_, _, _, rfl⟩ rfl

theorem setAttempts (n : BitVec 2) (s : State) : OwnFrame s (s.setAttempts n) :=
  of_mem rfl rfl rfl rfl rfl ⟨_, _, _, rfl⟩ rfl

theorem broadcastEnter (p : List Byte) (g : SegIx) (s : State) : OwnFrame s (broadcastEnter p g s) :=
  of_mem rfl rfl rfl rfl rfl ⟨_, _, _, rfl⟩ rfl

theorem noteAuxErr (k : ErrKind) (s : State) : OwnFrame s (noteAuxErr k s) := by
  unfold Machine.noteAuxErr
  split_ifs
  · exact of_mem rfl rfl rfl rfl rfl ⟨_, _, _, rfl⟩ rfl
  · exact refl s

theorem broadcastEnd (s : State) : OwnFrame s (broadcastEnd s) := of_mem rfl rfl rfl rfl rfl ⟨_, _, _, rfl⟩ rfl

theorem negotiateEnter (g : SegIx) (s : State) : OwnFrame s (negotiateEnter g s) :=
  of_mem rfl rfl rfl rfl rfl ⟨_, _, _, rfl⟩ rfl

theorem updateEnter (g : SegIx) (s : State) : OwnFrame s (updateEnter g s) :=
  of_mem rfl rfl rfl rfl rfl ⟨_, _, _, rfl⟩ rfl

theorem clampSegment (g : SegIx) (s : State) : OwnFrame s (clampSegment g s) := by
  rw [clampSegment_eq]; exact of_mem rfl rfl rfl rfl rfl ⟨_, _, _, rfl⟩ rfl

theorem clearOffsets (g : SegIx) (s : State) : OwnFrame s (clearOffsets g s) :=
  of_mem rfl rfl rfl rfl rfl ⟨_, _, _, rfl⟩ rfl

theorem clearUnlessComm (r : Reply) (s : State) : OwnFrame s (clearUnlessComm r s) := by
  unfold Machine.clearUnlessComm
  split_ifs
  · exact refl s
  · exact clearOffsets _ s

/-- The program point and the procedure's arguments are none of the frame. -/
theorem of_point {x : Xfer} {f : Fsm} {p : Point} (h : OwnFrame s t) : OwnFrame s { t with xfer := x, fsm := f, pt := p } :=
  ⟨h.cmd, h.arg0, h.result, h.env, h.rxLen, h.status, h.memWf, h.memIn, h.memRx⟩

theorem negotiateBuild (s : State) : OwnFrame s (negotiateBuild s) := by
  obtain ⟨u, m, c, x, p, hu, e, fr⟩ := negotiateBuild_cases s
  rw [e]
  exact ((((setAttempts 1 s).trans (clampSegment s.seg _)).trans (hu ▸ refl _)).trans (of_txFrame fr)).of_point

theorem updateBuild (s : State) : OwnFrame s (updateBuild s) := by
  obtain ⟨m, c, x, p, e, fr⟩ := updateBuild_cases s
  rw [e]
  exact ((setAttempts _ s).trans (of_txFrame fr)).of_point

end OwnFrame

/-- An instruction writes RESULT: BS_READ, BS_NEEDED and FRAME_RX do (10_state.md section 3). -/
def writesResult : Instr → Bool
  | .bsRead _ _ _ _ => true
  | .bsNeeded => true
  | .frameRx => true
  | _ => false

/-- Everything an own step of a command can do: an idle engine rests; else the command goes on in RUN, or it completes,
having written RESULT if it is one that does. -/
inductive OwnStep (w : Bool) (s : State) : State → Prop
  | rest : s.fsm = .idle → OwnStep w s s
  | goOn {t : State} : OwnFrame s t → t.fsm = .run → OwnStep w s t
  | complete {u : State} (k : ErrKind) : OwnFrame s u → OwnStep w s (complete k u)
  | completeResult {u : State} (k : ErrKind) (v : Word) : w = true → OwnFrame s u →
      OwnStep w s (Machine.complete k (u.setResult v))

section
variable {w : Bool} {s : State}

/-- A command's own steps, point by point. -/
theorem atPoint_own {onStart : State → State} {onEnter : SegIx → State → State} {onBuild : State → State}
    {onRet : Reply → State → State} (hr : atRequest s = false) (hstart : s.fsm = .run → OwnStep w s (onStart s))
    (henter : ∀ g, s.fsm = .run → OwnStep w s (onEnter g s)) (hbuild : s.fsm = .run → OwnStep w s (onBuild s))
    (hret : ∀ r, s.fsm = .run → OwnStep w s (onRet r s)) : OwnStep w s (atPoint onStart onEnter onBuild onRet s) :=
  atPoint_cases onStart onEnter onBuild onRet (OwnStep w s) .rest (fun hf _ => hstart hf) (fun g hf _ => henter g hf)
    (fun hf _ => hbuild hf) (fun r hf _ => hret r hf) (fun k _ _ => .complete k (.refl s))
    (fun h => absurd (hr.symm.trans h) Bool.false_ne_true)

theorem own_stays (hf : s.fsm = .run) : OwnStep w s s := .goOn (.refl s) hf

theorem own_complete (k : ErrKind) : OwnStep w s (complete k s) := .complete k (.refl s)

theorem frameTxStart_own (a : Byte) : OwnStep w s (frameTxStart a s) := by
  unfold frameTxStart
  cases byteOperand s.arg0 with
  | none => exact own_complete _
  | some n => exact .goOn (.callTransport _ s) rfl

theorem changeAddrStart_own (a : Byte) : OwnStep w s (changeAddrStart a s) := by
  unfold changeAddrStart
  cases byteOperand s.arg0 with
  | none => exact own_complete _
  | some n => exact .goOn ((OwnFrame.setAttempts 1 s).trans (.callTransport _ _)) rfl

theorem frameRxRet_own (r : Reply) : OwnStep true s (frameRxRet r s) := by
  cases r with
  | ok => exact .completeResult _ _ rfl (.refl s)
  | checksum => exact own_complete _
  | comm => exact own_complete _

theorem broadcastRet_own (tag : Byte) (p : List Byte) (r : Reply) : OwnStep w s (broadcastRet tag p r s) := by
  unfold broadcastRet
  dsimp only
  split_ifs
  · exact .goOn ((OwnFrame.noteAuxErr _ s).trans (.broadcastEnter _ _ _)) rfl
  · exact .goOn ((OwnFrame.noteAuxErr _ s).trans (.broadcastEnd _)) rfl

theorem negotiateSegStart_own (a : Byte) : OwnStep w s (negotiateSegStart a s) := by
  unfold negotiateSegStart
  cases segOperand a with
  | none => exact own_complete _
  | some g => exact .goOn (.negotiateEnter g s) rfl

theorem updateSegStart_own (a : Byte) : OwnStep w s (updateSegStart a s) := by
  unfold updateSegStart
  cases segOperand a with
  | none => exact own_complete _
  | some g => exact .goOn (.updateEnter g s) rfl

theorem negotiateBuild_own : OwnStep w s (negotiateBuild s) := by
  refine .goOn (.negotiateBuild s) ?_
  obtain ⟨u, m, c, x, p, -, e, -⟩ := negotiateBuild_cases s
  rw [e]

theorem updateBuild_own : OwnStep w s (updateBuild s) := by
  refine .goOn (.updateBuild s) ?_
  obtain ⟨m, c, x, p, e, -⟩ := updateBuild_cases s
  rw [e]

theorem negotiateRet_own {after : State → State} (r : Reply) (h : OwnStep w s (after s)) :
    OwnStep w s (negotiateRet after r s) := by
  by_cases hk : ackOutcome 2 r s = .ok
  · rw [negotiateRet_ok hk]; exact h
  · rw [negotiateRet_fail hk]; exact own_complete _

theorem negotiateAfter_own : OwnStep w s (negotiateAfter s) := by
  unfold negotiateAfter
  split_ifs
  · exact .goOn (.negotiateEnter 1 s) rfl
  · exact own_complete _

theorem updateFail_own {u : State} (k : ErrKind) (h : OwnFrame s u) : OwnStep w s (updateFail k u) := by
  unfold updateFail
  split_ifs
  · exact .goOn (h.trans (.goto _ _ u)) rfl
  · exact .complete k h

theorem updateRet_own {after : State → State} (r : Reply) (h : ∀ u, OwnFrame u (after u) ∧ (after u).fsm = .run) :
    OwnStep w s (updateRet after r s) := by
  by_cases hv : r = .ok ∧ isValuesReply s = true
  · obtain ⟨rfl, hv⟩ := hv
    rw [updateRet_valid hv]
    exact .goOn (((OwnFrame.clearOffsets s.seg s).trans (.of_parseFrame (ParseFrame.parseReply ..))).trans (h _).1) (h _).2
  · rw [updateRet_fails fun hr => Bool.eq_false_iff.2 fun hk => hv ⟨hr, hk⟩]
    exact updateFail_own _ (.clearUnlessComm r s)

theorem updateAfter_own (u : State) : OwnFrame u (updateAfter u) ∧ (updateAfter u).fsm = .run := by
  unfold updateAfter
  split_ifs
  · exact ⟨.goto _ _ u, rfl⟩
  · exact ⟨.goto _ _ u, rfl⟩

theorem bsWrite_own (a : Byte) (b : BitVec 3) (n : BitVec 6) : OwnStep w s (bsWrite a b n s) := by
  unfold bsWrite
  split_ifs
  · by_cases hfit : startBit a b s.cursor + n.toNat ≤ 2048
    · rw [writeBits_ok hfit]
      exact .complete _ (.of_txFrame (.storeBits s _ _ _ _ hfit))
    · rw [writeBits_bounds (Nat.lt_of_not_le hfit)]
      exact own_complete _
  · exact own_complete _

theorem bsRead_own (a : Byte) (b : BitVec 3) (sel : BufSel) (n : BitVec 6) : OwnStep true s (bsRead a b sel n s) := by
  unfold bsRead readBits
  split_ifs
  · exact .completeResult _ _ rfl (.of_mem rfl rfl rfl rfl rfl ⟨_, _, _, rfl⟩ rfl)
  · exact own_complete _
  · exact own_complete _

theorem messageStep_own (hr : atRequest s = false) (p : List Byte) : OwnStep w s (messageStep p s) := by
  have hcall (x : Xfer) : OwnStep w s (callTransport x s) := .goOn (.callTransport x s) rfl
  cases hf : s.fsm with
  | idle => simp only [messageStep, hf]; exact hcall _
  | run =>
    cases hp : s.pt with
    | isOpen | setTimeout => simp [atRequest, hf, hp] at hr
    | start | enter | build | ret | finish => simp only [messageStep, hf, hp]; exact hcall _
  | opening | send | rxChk | rxLen | rxPay => simp [atRequest, hf] at hr

end

/-- An instruction of one internal step is an own step wherever the engine stands. -/
theorem exec_own_single {i : Instr} {s t : State} (hi : commandKind i = .single) (hc : i.isCommand = true)
    (h : exec i s = .next t) : OwnStep (writesResult i) s t := by
  cases i
  case nop => cases h; exact own_complete _
  case bsClear => cases h; exact .complete _ (.of_txFrame (.clearTx s))
  case bsWrite => cases h; exact bsWrite_own ..
  case bsRead => cases h; exact bsRead_own ..
  case bsNeeded => cases h; exact .completeResult _ _ rfl (.refl s)
  case wireChangeAddress | wireSetSensorType | wireReadValues | wireEmergencyStop | wireSetTimeout =>
    exact absurd hc Bool.false_ne_true
  all_goals cases hi

/-- Away from the transport requests every instruction does an own step. -/
theorem exec_own {i : Instr} {s t : State} (hr : atRequest s = false) (h : exec i s = .next t) :
    OwnStep (writesResult i) s t := by
  cases i
  case nop | bsClear | bsWrite | bsRead | bsNeeded => exact exec_own_single rfl rfl h
  all_goals obtain rfl := next_eq_next_iff.1 h
  case frameTx a => exact atPoint_own hr (fun _ => frameTxStart_own a) (fun _ => own_stays) own_stays (fun r _ => own_complete _)
  case frameRx =>
    exact atPoint_own hr (fun _ => .goOn (.callTransport _ s) rfl) (fun _ => own_stays) own_stays
      (fun r _ => frameRxRet_own r)
  case negotiate =>
    exact atPoint_own hr (fun _ => .goOn (.negotiateEnter 0 s) rfl) (fun g _ => .goOn (.negotiateEnter g s) rfl)
      (fun _ => negotiateBuild_own) (fun r _ => negotiateRet_own r negotiateAfter_own)
  case negotiateSeg a =>
    exact atPoint_own hr (fun _ => negotiateSegStart_own a) (fun g _ => .goOn (.negotiateEnter g s) rfl)
      (fun _ => negotiateBuild_own) (fun r _ => negotiateRet_own r (own_complete _))
  case update =>
    exact atPoint_own hr (fun _ => .goOn (.updateEnter 0 s) rfl) (fun g _ => .goOn (.updateEnter g s) rfl)
      (fun _ => updateBuild_own) (fun r _ => updateRet_own r updateAfter_own)
  case updateSeg a =>
    exact atPoint_own hr (fun _ => updateSegStart_own a) (fun g _ => .goOn (.updateEnter g s) rfl)
      (fun _ => updateBuild_own) (fun r _ => updateRet_own r fun u => ⟨.goto _ _ u, rfl⟩)
  case changeAddr a =>
    exact atPoint_own hr (fun _ => changeAddrStart_own a) (fun _ => own_stays) own_stays (fun r _ => own_complete _)
  case estop =>
    exact atPoint_own hr (fun _ => .goOn (.of_mem rfl rfl rfl rfl rfl ⟨_, _, _, rfl⟩ rfl) rfl)
      (fun g _ => .goOn (.broadcastEnter _ g s) rfl) own_stays (fun r _ => broadcastRet_own _ _ r)
  case setTimeout =>
    exact atPoint_own hr (fun _ => .goOn (.of_mem rfl rfl rfl rfl rfl ⟨_, _, _, rfl⟩ rfl) rfl)
      (fun g _ => .goOn (.broadcastEnter _ g s) rfl) own_stays (fun r _ => broadcastRet_own _ _ r)
  all_goals exact messageStep_own hr _

/-- At a transport request an instruction that uses the transport does a request. -/
theorem exec_request {i : Instr} {s t : State} (hi : commandKind i ≠ .single ∨ i.isCommand = false)
    (hr : atRequest s = true) (h : exec i s = .next t) : ∃ x, t = linkStep x s := by
  rcases hi with hk | hc
  · exact ⟨_, next_eq_next_iff.1 (h.symm.trans (exec_command_request hk hr))⟩
  · obtain ⟨p, hp⟩ : ∃ p, encode i = .message p := by
      cases i
      case wireChangeAddress | wireSetSensorType | wireReadValues | wireEmergencyStop | wireSetTimeout => exact ⟨_, rfl⟩
      all_goals cases hc
    rw [exec_message hp, messageStep_request hr] at h
    exact ⟨_, (next_eq_next_iff.1 h).symm⟩

/-- Everything an instruction can do in one step: an own step, or a transport request. -/
theorem exec_cases {i : Instr} {s t : State} (h : exec i s = .next t) :
    OwnStep (writesResult i) s t ∨ (LinkFrame s t ∧ t.fsm ≠ .idle) := by
  cases hr : atRequest s with
  | false => exact .inl (exec_own hr h)
  | true =>
    by_cases hi : commandKind i = .single ∧ i.isCommand = true
    · exact .inl (exec_own_single hi.1 hi.2 h)
    · obtain ⟨x, rfl⟩ := exec_request (not_and_or.1 hi |>.imp_right Bool.eq_false_iff.2) hr h
      exact .inr ⟨linkStep_frame x s, linkStep_fsm_ne_idle hr⟩

end Sys2Proof.Machine
end

-- What no instruction writes, and the invariants of memory and STATUS (10_state.md sections 3 to 5).
section
namespace Sys2Proof.Machine

/-! ## Registers no instruction writes -/

/-- What every own step keeps. -/
theorem OwnStep.frame {w : Bool} {s t : State} (h : OwnStep w s t) :
    t.cmd = s.cmd ∧ t.arg0 = s.arg0 ∧ t.status.verr = s.status.verr ∧ t.env = s.env ∧ t.rxLen = s.rxLen ∧
      t.status.rxlen = s.status.rxlen ∧ (w = false → t.result = s.result) := by
  have own {u : State} (f : OwnFrame s u) : u.status.verr = s.status.verr ∧ u.status.rxlen = s.status.rxlen := by
    obtain ⟨_, _, _, e⟩ := f.status
    rw [e]
    exact ⟨rfl, rfl⟩
  cases h with
  | rest _ => exact ⟨rfl, rfl, rfl, rfl, rfl, rfl, fun _ => rfl⟩
  | goOn f _ => exact ⟨f.cmd, f.arg0, (own f).1, f.env, f.rxLen, (own f).2, fun _ => f.result⟩
  | complete k f => exact ⟨f.cmd, f.arg0, (own f).1, f.env, f.rxLen, (own f).2, fun _ => f.result⟩
  | completeResult k v hw f =>
    exact ⟨f.cmd, f.arg0, (own f).1, f.env, f.rxLen, (own f).2, fun h => absurd (hw.symm.trans h) (by decide)⟩

theorem writesResult_eq_false {i : Instr} (h : i ≠ .bsNeeded) (h' : i ≠ .frameRx) (h'' : ∀ a b sel w, i ≠ .bsRead a b sel w) :
    writesResult i = false := by
  cases i
  case bsRead a b sel w => exact absurd rfl (h'' a b sel w)
  case bsNeeded => exact absurd rfl h
  case frameRx => exact absurd rfl h'
  all_goals rfl

/-- Settles O47, from what own steps and transport requests keep. -/
theorem commandOperandRegistersAreNotWritten : Obligations.CommandOperandRegistersAreNotWritten := by
  intro s t i h
  rcases exec_cases h with hown | ⟨f, -⟩
  · obtain ⟨hcmd, harg, hverr, henv, -, -, hres⟩ := hown.frame
    exact ⟨hcmd, harg, hverr, by rw [henv], by rw [henv], by rw [henv],
      fun h1 h2 h3 => hres (writesResult_eq_false h1 h2 h3)⟩
  · obtain ⟨n, e⟩ := f.status
    exact ⟨f.cmd, f.arg0, by rw [e], f.params, f.turns, f.unpolled, fun _ _ _ => f.result⟩

/-! ## Everything a step of the machine can do -/

/-- The engine's turn: an idle engine rests, a running one does an own step or a transport request. -/
theorem engineStep_cases {s t : State} (h : engineStep s = .next t) :
    (s.status.busy = false ∧ t = s) ∨
      (s.status.busy = true ∧ ((∃ w, OwnStep w s t) ∨ (LinkFrame s t ∧ t.fsm ≠ .idle))) := by
  cases hb : s.status.busy with
  | false => exact .inl ⟨rfl, next_eq_next_iff.1 (h.symm.trans (engineStep_idle hb))⟩
  | true =>
    refine .inr ⟨rfl, ?_⟩
    cases hf : fetch s with
    | none =>
      obtain rfl := next_eq_next_iff.1 (h.symm.trans (engineStep_illegal hb hf))
      exact .inl ⟨true, own_complete _⟩
    | some i =>
      rw [engineStep_fetched hb hf] at h
      exact (exec_cases h).imp_left fun k => ⟨_, k⟩

/-- A property that the surroundings of the machine do not decide, that reset and the host's writes establish or keep
and that the engine's turn keeps, is kept by every step. -/
theorem step_keeps {P : State → Prop} {s t : State}
    (hsurroundings : ∀ (u : State) (e : Env), e.params = u.env.params →
      (u.status.busy = true → e.unpolled = u.env.unpolled) → P u → P (u.setEnv e))
    (hreset : ∀ e, P (State.reset.setEnv e))
    (hwrite : ∀ (u : State) (r : Reg) (v : Word), (mustPoll u = true → r = .status) → P u → P (writeReg r v u))
    (hengine : ∀ u v : State, P u → engineStep u = .next v → P v) (hs : P s) (h : step s = .next t) : P t := by
  have hpop : P (popTurn s) := hsurroundings _ _ rfl (fun _ => rfl) hs
  cases ht : s.env.turns with
  | nil => simp only [step, ht] at h; exact hengine _ _ hs h
  | cons turn rest =>
    simp only [step, ht] at h
    cases turn with
    | engine => exact hengine _ _ hpop h
    | reset => obtain rfl := next_eq_next_iff.1 h; exact hreset _
    | host x =>
      cases x with
      | read a n =>
        obtain ⟨e, rfl, hparams, -, hpoll⟩ := hostRead_cases h
        exact hsurroundings _ _ hparams hpoll hpop
      | write a n v =>
        obtain ⟨r, rfl, hr⟩ := hostWrite_cases h
        exact hsurroundings _ _ rfl (fun _ => rfl) (hwrite _ _ _ hr hpop)

/-! ## Canonical memory -/

theorem memoryOk_writeReg {s : State} (r : Reg) (v : Word) (h : memoryOk s) : memoryOk (writeReg r v s) := by
  have word {a : Nat} (ha : arrayBase ≤ a) (ha' : a + 4 ≤ arrayEnd) : memoryOk (s.setMem (s.mem.writeWord a v)) :=
    ⟨Memory.writeBytes_wf h.1 _ _, Memory.within_writeBytes h.2 _ ha ha'⟩
  unfold writeReg
  split_ifs
  · cases r
    case i2cOut p d j =>
      exact word (by unfold i2cOutAddr arrayBase; omega) (by unfold i2cOutAddr arrayEnd; omega)
    case txBuf j => exact word (by unfold txBase arrayBase; omega) (by unfold txBase arrayEnd; omega)
    all_goals exact h
  · exact h

theorem memoryOk_engineStep {s t : State} (h : memoryOk s) (hstep : engineStep s = .next t) : memoryOk t := by
  rcases engineStep_cases hstep with ⟨-, rfl⟩ | ⟨-, ⟨w, hown⟩ | ⟨f, -⟩⟩
  · exact h
  · cases hown with
    | rest _ => exact h
    | goOn f _ => exact ⟨f.memWf h.1, f.memIn h.2⟩
    | complete k f => exact ⟨f.memWf h.1, f.memIn h.2⟩
    | completeResult k v _ f => exact ⟨f.memWf h.1, f.memIn h.2⟩
  · exact ⟨f.memWf h.1, f.memIn h.2⟩

/-- Settles O55. -/
theorem everyStepKeepsMemoryCanonical : Obligations.EveryStepKeepsMemoryCanonical := fun _ _ =>
  step_keeps (fun _ _ _ _ h => h) (fun _ => resetMeetsTheInvariant.memory) (fun _ r v _ h => memoryOk_writeReg r v h)
    (fun _ _ => memoryOk_engineStep)

/-! ## Consistent STATUS -/

theorem statusOk_startCommand (v : Word) (s : State) : statusOk (startCommand v s) :=
  ⟨fun h => Bool.false_ne_true h.2, ⟨fun h => Fsm.noConfusion h, fun h => absurd h.symm Bool.false_ne_true⟩, fun _ => rfl⟩

theorem statusOk_complete (k : ErrKind) (s : State) : statusOk (complete k s) :=
  ⟨fun h => Bool.false_ne_true h.1, ⟨fun _ => rfl, fun _ => rfl⟩, fun h => absurd h Bool.false_ne_true⟩

theorem statusOk_writeReg {s : State} (r : Reg) (v : Word) (h : statusOk s) : statusOk (writeReg r v s) := by
  unfold writeReg
  split_ifs
  · cases r
    case cmd => exact statusOk_startCommand v s
    all_goals exact h
  · exact h

/-- A running engine that goes on keeps STATUS consistent. -/
theorem statusOk_goOn {s t : State} (h : statusOk s) (hb : s.status.busy = true) (hf : t.fsm ≠ .idle)
    (hst : t.status.busy = s.status.busy ∧ t.status.done = s.status.done ∧ t.status.err = s.status.err) : statusOk t := by
  obtain ⟨hbusy, hdone, herr⟩ := hst
  obtain ⟨hexcl, -, hok⟩ := h
  refine ⟨by rw [hbusy, hdone]; exact hexcl, ⟨fun h => absurd h hf, fun h => ?_⟩, by rw [hbusy, herr]; exact hok⟩
  exact absurd ((hbusy.trans hb).symm.trans h) (by decide)

theorem statusOk_engineStep {s t : State} (h : statusOk s) (hstep : engineStep s = .next t) : statusOk t := by
  rcases engineStep_cases hstep with ⟨-, rfl⟩ | ⟨hb, ⟨w, hown⟩ | ⟨f, hf⟩⟩
  · exact h
  · cases hown with
    | rest _ => exact h
    | goOn f hf =>
      obtain ⟨u, g, n, e⟩ := f.status
      exact statusOk_goOn h hb (by rw [hf]; exact Fsm.noConfusion) (by rw [e]; exact ⟨rfl, rfl, rfl⟩)
    | complete k f => exact statusOk_complete _ _
    | completeResult k v _ f => exact statusOk_complete _ _
  · obtain ⟨n, e⟩ := f.status
    exact statusOk_goOn h hb hf (by rw [e]; exact ⟨rfl, rfl, rfl⟩)

/-- Settles O56. -/
theorem everyStepKeepsStatusConsistent : Obligations.EveryStepKeepsStatusConsistent := fun _ _ =>
  step_keeps (fun _ _ _ _ h => h) (fun _ => resetMeetsTheInvariant.status) (fun _ r v _ h => statusOk_writeReg r v h)
    (fun _ _ => statusOk_engineStep)

end Sys2Proof.Machine
end

-- The requests that do not fit and the valid reply (42_negotiation.md R195; 43_update.md R222 to R232).
section
namespace Sys2Proof.Machine

/-! ## Requests that do not fit -/

/-- A negotiation build that does not fit (42_negotiation.md R195). -/
theorem negotiateBuild_tooLong {s : State} (hlen : 2016 < (negotiationBits s.seg s).length) :
    ∃ (m : Memory) (c : BitVec 12),
      negotiateBuild s = { clampSegment s.seg (s.setAttempts 1) with
        mem := m, cursor := c, fsm := .run, pt := .finish .validation } ∧ c.toNat ≤ 2016 := by
  generalize hu : clampSegment s.seg (s.setAttempts 1) = u
  have hbits : streamBits (negotiationFields s.seg u) = negotiationBits s.seg s := by
    rw [← hu, streamBits_negotiationFields]; rfl
  have hframe := buildRequest_frame Config.negotiationLimit (negotiationHeader s.seg u) (negotiationFields s.seg u) u
    (show 3 ≤ 256 by decide)
  obtain ⟨m, c, hmc⟩ := hframe.eq
  rcases buildRequest_kind (limit := Config.negotiationLimit) (header := negotiationHeader s.seg u)
      (fields := negotiationFields s.seg u) (s := u) (show 8 * 3 + 2016 ≤ 2048 by decide) (show 3 ≤ 255 by decide)
    with ⟨-, hfits, -⟩ | ⟨hkind, -, hcursor⟩
  · rw [hbits] at hfits
    exact absurd hfits (Nat.not_le.2 hlen)
  · have hstop := negotiateBuild_stop (s := s) (u := (buildNegotiation s.seg u).1) (n := (buildNegotiation s.seg u).2.2)
      (k := .validation) (by rw [hu, ← hkind]; rfl) (by decide)
    refine ⟨m, c, ?_, ?_⟩
    · rw [hstop, buildNegotiation, hmc]; rfl
    · rw [hmc] at hcursor; exact hcursor

/-- Settles O27: the build stops at the limit and goes to the completion point with the record untouched. -/
theorem negotiationTooLongIsRejectedBeforeAnyRequest : Obligations.NegotiationTooLongIsRejectedBeforeAnyRequest := by
  intro s i hi hf hp hlen
  obtain ⟨m, c, e, hc⟩ := negotiateBuild_tooLong hlen
  have hclamp := clampSegment_eq s.seg (s.setAttempts 1)
  exact ⟨_, (exec_negotiation_build hi hf hp).trans (congrArg Host.Outcome.next e), rfl, rfl, hc,
    by dsimp only; rw [hclamp]; rfl, by dsimp only; rw [hclamp]; rfl⟩

/-- Settles O34: the build stops at the limit and goes to the completion point, the offsets and the record untouched. -/
theorem updateTooLongIsRejectedBeforeAnyRequest : Obligations.UpdateTooLongIsRejectedBeforeAnyRequest := by
  intro s i hi hf hp hd ho hlen
  obtain ⟨m, c, e, hc⟩ := updateBuild_tooLong hd ho hlen
  exact ⟨_, (exec_update_build hi hf hp).trans (congrArg Host.Outcome.next e), rfl, rfl, hc, rfl, rfl⟩

/-! ## The valid reply -/

theorem updateAfter_goto (s : State) : updateAfter s = s.goto .run (if s.seg = 0 then .enter 1 else .finish .ok) := by
  unfold updateAfter; split_ifs <;> rfl

/-- A valid reply is parsed, and the command goes on with nothing else changed. -/
theorem exec_update_parsed {s : State} {i : Instr} (hi : i = .update ∨ ∃ a, i = .updateSeg a) (hv : ValidReply s) :
    ∃ p, exec i s = .next ((parseReply s.rxLen.toNat s.seg (clearOffsets s.seg s)).goto .run p) := by
  obtain ⟨hf, hp, hn, h3, -⟩ := hv
  have hr := (isValuesReply_iff s).2 ⟨hn, h3⟩
  rcases hi with rfl | ⟨a, rfl⟩
  · exact ⟨_, congrArg Host.Outcome.next
      ((atPoint_ret _ _ _ _ hf hp).trans ((updateRet_valid hr).trans (updateAfter_goto _)))⟩
  · exact ⟨_, congrArg Host.Outcome.next ((atPoint_ret _ _ _ _ hf hp).trans (updateRet_valid hr))⟩

/-- Settles O40: CURSOR and UNDERRUN as the parse leaves them. -/
theorem updateFlagsUnderrun : Obligations.UpdateFlagsUnderrun := by
  intro s i hi hv
  obtain ⟨p, hexec⟩ := exec_update_parsed hi hv
  obtain ⟨-, -, hn, -, hd⟩ := hv
  obtain ⟨c, ps, m, t, rfl, e, hc, -⟩ := updateParse_spec hn hd
  exact ⟨_, hexec, by rw [State.goto_cursor, e]; exact hc, by rw [State.goto_status, e]⟩

/-- Settles O39: the present slots of the segment's two ports, and the addresses of their input bytes, are the parse's. -/
theorem updateParsesTheI2cBytes : Obligations.UpdateParsesTheI2cBytes := by
  intro s i hi hv hw present len addr
  obtain ⟨p, hexec⟩ := exec_update_parsed hi hv
  obtain ⟨-, -, hn, -, hd⟩ := hv
  obtain ⟨c, ps, m, t, rfl, e, -, -, -, -, hout, hin⟩ := updateParse_spec hn hd
  have hmem : (parseReply s.rxLen.toNat s.seg (clearOffsets s.seg s)).mem = m := by rw [e]
  have hpresent : ∀ p d, present p d = true ↔ (p = lowPort s.seg ∨ p = highPort s.seg) ∧
      presentAt s p (fieldStart s.seg s p) d = true := by
    intro p d
    simp only [present, presentAt, rxBase, Bool.and_eq_true, Bool.or_eq_true, decide_eq_true_eq, and_assoc]
  refine ⟨_, hexec, fun p d k h hk => ?_, fun a h => ?_⟩
  · obtain ⟨hseg, hat⟩ := (hpresent p d).1 h
    rw [State.goto_mem, hmem]
    refine (congrArg BitVec.toNat (hin hw p d k hseg hat hk)).trans ?_
    rw [rxByteAt, BitVec.toNat_setWidth]
    exact Nat.mod_eq_of_lt (Memory.loadBits_lt ..)
  · rw [State.goto_mem, hmem]
    exact hout a fun p d k hseg hat hk => h p d k ((hpresent p d).2 ⟨hseg, hat⟩) hk

/-- Settles O36: the parse follows the clearing of the offsets, and the segment decides where the command goes on. -/
theorem updateSucceedsOnAValidReply : Obligations.UpdateSucceedsOnAValidReply := by
  intro s a ⟨hf, hp, hn, h3, hd⟩
  have hr := (isValuesReply_iff s).2 ⟨hn, h3⟩
  obtain ⟨c, ps, m, t, ht, e, -, hother, hown, -⟩ := updateParse_spec hn hd
  have hoff : ∀ p, (t.port p).encOffset =
      if p = lowPort s.seg ∨ p = highPort s.seg then 0 else (s.port p).encOffset := by
    intro p
    split_ifs with h
    · rw [hown p h]
    · rw [hother p (fun k => h (.inl k)) fun k => h (.inr k)]
  have hret (after : State → State) : updateRet after .ok s = after t := (updateRet_valid hr).trans (congrArg after ht)
  have hseg : t.seg = s.seg := by rw [e]
  refine ⟨⟨_, congrArg Host.Outcome.next ((atPoint_ret _ _ _ _ hf hp).trans (hret _)), rfl, rfl, hoff⟩,
    ⟨_, congrArg Host.Outcome.next ((atPoint_ret _ _ _ _ hf hp).trans ((hret _).trans (updateAfter_goto t))), rfl,
      by rw [hseg]; rfl, hoff⟩, fun u g hfu hpu => ?_⟩
  exact congrArg Host.Outcome.next ((atPoint_enter _ _ _ _ hfu hpu).trans (updateEnter_of_run g hfu))

end Sys2Proof.Machine
end

-- What the families leave unchanged of the channel state (42_negotiation.md section 1; 43_update.md section 5).
section
namespace Sys2Proof.Machine

/-! ## Steps that leave ports, memory and CURSOR alone -/

/-- `t` has the ports, the byte memory and the CURSOR of `s`. -/
structure Quiet (s t : State) : Prop where
  ports : t.ports = s.ports
  mem : t.mem = s.mem
  cursor : t.cursor = s.cursor

namespace Quiet

variable {s t u : State}

theorem refl (s : State) : Quiet s s := ⟨rfl, rfl, rfl⟩

theorem trans (h : Quiet s t) (k : Quiet t u) : Quiet s u :=
  ⟨k.ports.trans h.ports, k.mem.trans h.mem, k.cursor.trans h.cursor⟩

theorem complete (k : ErrKind) (s : State) : Quiet s (complete k s) := ⟨rfl, rfl, rfl⟩

theorem frameTxStart (a : Byte) (s : State) : Quiet s (frameTxStart a s) := by
  unfold Machine.frameTxStart; cases byteOperand s.arg0 <;> exact ⟨rfl, rfl, rfl⟩

theorem frameRxRet (r : Reply) (s : State) : Quiet s (frameRxRet r s) := by cases r <;> exact ⟨rfl, rfl, rfl⟩

theorem changeAddrStart (a : Byte) (s : State) : Quiet s (changeAddrStart a s) := by
  unfold Machine.changeAddrStart; cases byteOperand s.arg0 <;> exact ⟨rfl, rfl, rfl⟩

theorem noteAuxErr (k : ErrKind) (s : State) : Quiet s (noteAuxErr k s) := by
  unfold Machine.noteAuxErr; split_ifs <;> exact ⟨rfl, rfl, rfl⟩

theorem broadcastRet (tag : Byte) (p : List Byte) (r : Reply) (s : State) : Quiet s (broadcastRet tag p r s) := by
  unfold Machine.broadcastRet
  dsimp only
  split_ifs
  · exact (noteAuxErr _ s).trans ⟨rfl, rfl, rfl⟩
  · exact (noteAuxErr _ s).trans ⟨rfl, rfl, rfl⟩

theorem negotiateSegStart (a : Byte) (s : State) : Quiet s (negotiateSegStart a s) := by
  unfold Machine.negotiateSegStart; cases segOperand a <;> exact ⟨rfl, rfl, rfl⟩

theorem negotiateAfter (s : State) : Quiet s (negotiateAfter s) := by
  unfold Machine.negotiateAfter; split_ifs <;> exact ⟨rfl, rfl, rfl⟩

theorem negotiateRet {after : State → State} (r : Reply) (h : Quiet s (after s)) : Quiet s (negotiateRet after r s) := by
  by_cases hk : ackOutcome 2 r s = .ok
  · rw [negotiateRet_ok hk]; exact h
  · rw [negotiateRet_fail hk]; exact complete _ s

theorem updateSegStart (a : Byte) (s : State) : Quiet s (updateSegStart a s) := by
  unfold Machine.updateSegStart; cases segOperand a <;> exact ⟨rfl, rfl, rfl⟩

theorem updateFail (k : ErrKind) (s : State) : Quiet s (updateFail k s) := by
  unfold Machine.updateFail; split_ifs <;> exact ⟨rfl, rfl, rfl⟩

theorem messageStep (hr : atRequest s = false) (p : List Byte) : Quiet s (messageStep p s) := by
  have hcall (x : Xfer) : Quiet s (callTransport x s) := ⟨rfl, rfl, rfl⟩
  cases hf : s.fsm with
  | idle => simp only [Machine.messageStep, hf]; exact hcall _
  | run =>
    cases hp : s.pt with
    | isOpen | setTimeout => simp [atRequest, hf, hp] at hr
    | start | enter | build | ret | finish => simp only [Machine.messageStep, hf, hp]; exact hcall _
  | opening | send | rxChk | rxLen | rxPay => simp [atRequest, hf] at hr

end Quiet

/-- A command is quiet at every point of its own, if it is at its start, its segments, its build and its return. -/
theorem atPoint_quiet {s : State} {onStart : State → State} {onEnter : SegIx → State → State}
    {onBuild : State → State} {onRet : Reply → State → State} (hr : atRequest s = false) (hstart : Quiet s (onStart s))
    (henter : ∀ g, Quiet s (onEnter g s)) (hbuild : Quiet s (onBuild s)) (hret : ∀ r, Quiet s (onRet r s)) :
    Quiet s (atPoint onStart onEnter onBuild onRet s) :=
  atPoint_cases onStart onEnter onBuild onRet (Quiet s) (fun _ => .refl s) (fun _ _ => hstart) (fun g _ _ => henter g)
    (fun _ _ => hbuild) (fun r _ _ => hret r) (fun k _ _ => .complete k s)
    (fun h => absurd (hr.symm.trans h) Bool.false_ne_true)

/-- The frame and auxiliary commands and the messages are quiet away from the transport requests. -/
theorem exec_quiet {i : Instr} {s t : State} (hsingle : commandKind i = .single → i.isCommand = false)
    (hneg : commandKind i ≠ .negotiation) (hupd : commandKind i ≠ .update) (hr : atRequest s = false)
    (h : exec i s = .next t) : Quiet s t := by
  cases i
  case nop | bsClear | bsWrite | bsRead | bsNeeded => cases hsingle rfl
  case negotiate | negotiateSeg => exact absurd rfl hneg
  case update | updateSeg => exact absurd rfl hupd
  all_goals obtain rfl := next_eq_next_iff.1 h
  case frameTx a =>
    exact atPoint_quiet hr (.frameTxStart a s) (fun _ => .refl s) (.refl s) fun r => .complete _ s
  case frameRx => exact atPoint_quiet hr ⟨rfl, rfl, rfl⟩ (fun _ => .refl s) (.refl s) fun r => .frameRxRet r s
  case changeAddr a =>
    exact atPoint_quiet hr (.changeAddrStart a s) (fun _ => .refl s) (.refl s) fun r => .complete _ s
  case estop => exact atPoint_quiet hr ⟨rfl, rfl, rfl⟩ (fun _ => ⟨rfl, rfl, rfl⟩) (.refl s) fun r => .broadcastRet _ _ r s
  case setTimeout =>
    exact atPoint_quiet hr ⟨rfl, rfl, rfl⟩ (fun _ => ⟨rfl, rfl, rfl⟩) (.refl s) fun r => .broadcastRet _ _ r s
  all_goals exact .messageStep hr _

/-! ## The bitstream, frame and auxiliary families -/

/-- A command of one internal step completes with memory, CURSOR and RESULT as it makes them; only BS_CLEAR and
BS_WRITE make memory, and only they and BS_READ make CURSOR. -/
theorem exec_single {i : Instr} {s t : State} (hi : commandKind i = .single) (hc : i.isCommand = true)
    (h : exec i s = .next t) : ∃ (u : State) (k : ErrKind) (v : Word), t = complete k (u.setResult v) ∧ TxFrame s u ∧
      (i ≠ .bsClear → (∀ a b w, i ≠ .bsWrite a b w) → u.mem = s.mem) ∧
      (i ≠ .bsClear → (∀ a b w, i ≠ .bsWrite a b w) → (∀ a b sel w, i ≠ .bsRead a b sel w) → u.cursor = s.cursor) := by
  have same (k : ErrKind) (v : Word) : ∃ (u : State) (k' : ErrKind) (v' : Word),
      complete k (s.setResult v) = complete k' (u.setResult v') ∧ TxFrame s u ∧
      (i ≠ .bsClear → (∀ a b w, i ≠ .bsWrite a b w) → u.mem = s.mem) ∧
      (i ≠ .bsClear → (∀ a b w, i ≠ .bsWrite a b w) → (∀ a b sel w, i ≠ .bsRead a b sel w) → u.cursor = s.cursor) :=
    ⟨s, k, v, rfl, .refl s, fun _ _ => rfl, fun _ _ _ => rfl⟩
  cases i
  case nop => cases h; exact same _ s.result
  case bsNeeded => cases h; exact same _ _
  case bsClear => cases h; exact ⟨clearTx s, _, s.result, rfl, .clearTx s, fun h => absurd rfl h, fun h => absurd rfl h⟩
  case bsWrite a b w =>
    obtain rfl := next_eq_next_iff.1 h
    unfold bsWrite
    split_ifs
    · by_cases hfit : startBit a b s.cursor + w.toNat ≤ 2048
      · rw [writeBits_ok hfit]
        exact ⟨_, _, s.result, rfl, .storeBits s _ _ _ _ hfit, fun _ h => absurd rfl (h a b w),
          fun _ h => absurd rfl (h a b w)⟩
      · rw [writeBits_bounds (Nat.lt_of_not_le hfit)]
        exact same _ s.result
    · exact same _ s.result
  case bsRead a b sel w =>
    obtain rfl := next_eq_next_iff.1 h
    unfold bsRead readBits
    split_ifs
    · exact ⟨s.setCursor _, _, _, rfl, ⟨⟨s.mem, _, rfl⟩, id, fun _ _ _ => rfl, id⟩, fun _ _ => rfl,
        fun _ _ h => absurd rfl (h a b sel w)⟩
    · exact same _ s.result
    · exact same _ s.result
  case wireChangeAddress | wireSetSensorType | wireReadValues | wireEmergencyStop | wireSetTimeout => cases hc
  all_goals cases hi

/-- Settles O46: a bitstream command writes TX_BUF at most, a transport request RX_BUF, and every other step is quiet. -/
theorem otherFamiliesLeaveTheChannelState : Obligations.OtherFamiliesLeaveTheChannelState := by
  intro s t i hneg hupd hw h
  by_cases hi : commandKind i = .single ∧ i.isCommand = true
  · obtain ⟨u, k, v, rfl, f, hmem, hcur⟩ := exec_single hi.1 hi.2 h
    obtain ⟨m, c, e⟩ := f.eq
    exact ⟨by rw [e]; rfl, fun a ha => f.memOut hw a (by omega), fun h1 h2 a _ => by
      rw [complete_mem, State.setResult_mem, hmem h1 h2], fun h1 h2 h3 => hcur h1 h2 h3⟩
  · cases hr : atRequest s with
    | false =>
      have q := exec_quiet (fun hk => Bool.eq_false_iff.2 fun hc => hi ⟨hk, hc⟩) hneg hupd hr h
      exact ⟨q.ports, fun a _ => by rw [q.mem], fun _ _ a _ => by rw [q.mem], fun _ _ _ => q.cursor⟩
    | true =>
      obtain ⟨x, rfl⟩ := exec_request (not_and_or.1 hi |>.imp_right Bool.eq_false_iff.2) hr h
      have f := linkStep_frame x s
      exact ⟨f.ports, fun a ha => f.memOut hw a (by omega), fun _ _ a ha => f.memOut hw a (.inl ha), fun _ _ _ => f.cursor⟩

/-! ## The negotiation family -/

/-- What a step of a negotiation keeps of the channel state (42_negotiation.md section 1). -/
def NegotiationKeeps (s t : State) : Prop :=
  (∀ p, t.port p = { s.port p with devCount := (t.port p).devCount }) ∧
    (∀ p, p ≠ lowPort s.seg → p ≠ highPort s.seg → t.port p = s.port p) ∧
    (∀ a, a < 0x800 ∨ 0xA00 ≤ a → t.mem.read a = s.mem.read a)

theorem NegotiationKeeps.of_ports {s t : State} (hp : t.ports = s.ports)
    (hm : ∀ a, a < 0x800 ∨ 0xA00 ≤ a → t.mem.read a = s.mem.read a) : NegotiationKeeps s t :=
  ⟨fun p => by rw [port_congr hp], fun p _ _ => port_congr hp p, hm⟩

theorem NegotiationKeeps.of_quiet {s t : State} (h : Quiet s t) : NegotiationKeeps s t :=
  .of_ports h.ports fun a _ => by rw [h.mem]

theorem NegotiationKeeps.build {s : State} (hw : s.mem.wf) : NegotiationKeeps s (negotiateBuild s) := by
  obtain ⟨u, m, c, x, p, hu, e, f⟩ := negotiateBuild_cases s
  have hclamp := clampSegment_eq s.seg (s.setAttempts 1)
  rw [hu] at hclamp
  have hmem : u.mem = s.mem := by rw [hclamp]; rfl
  refine ⟨fun q => ?_, fun q hl hh => ?_, fun a ha => ?_⟩
  · rw [negotiateBuild_port, clampSegment_port]; split_ifs <;> rfl
  · rw [negotiateBuild_port, clampSegment_port, if_neg fun h => h.1.elim hl hh]; rfl
  · rw [e, ← hmem]
    exact f.memOut (hmem ▸ hw) a (by omega)

/-- Settles O30: the build clamps DEVCOUNT and writes TX_BUF, a request writes RX_BUF, and every other step is quiet. -/
theorem negotiationFrame : Obligations.NegotiationFrame := by
  intro s t i hi hw h
  have keeps {onStart after : State → State} (hstart : Quiet s (onStart s)) (hafter : Quiet s (after s)) :
      NegotiationKeeps s (atPoint onStart negotiateEnter negotiateBuild (negotiateRet after) s) :=
    atPoint_cases _ _ _ _ (NegotiationKeeps s) (fun _ => .of_quiet (.refl s)) (fun _ _ => .of_quiet hstart)
      (fun g _ _ => .of_quiet ⟨rfl, rfl, rfl⟩) (fun _ _ => .build hw) (fun r _ _ => .of_quiet (.negotiateRet r hafter))
      (fun k _ _ => .of_quiet (.complete k s)) fun _ =>
        .of_ports (linkStep_frame _ s).ports fun a ha => (linkStep_frame _ s).memOut hw a (by omega)
  obtain ⟨hcmd, harg, -, -, -, -, hres⟩ := commandOperandRegistersAreNotWritten s t i h
  rcases hi with rfl | ⟨a, rfl⟩
  · obtain rfl := next_eq_next_iff.1 h
    obtain ⟨hcount, hother, hmem⟩ := keeps (onStart := negotiateEnter 0) ⟨rfl, rfl, rfl⟩ (.negotiateAfter s)
    exact ⟨hcount, hother, hmem, harg, hres nofun nofun nofun, hcmd⟩
  · obtain rfl := next_eq_next_iff.1 h
    obtain ⟨hcount, hother, hmem⟩ := keeps (.negotiateSegStart a s) (.complete .ok s)
    exact ⟨hcount, hother, hmem, harg, hres nofun nofun nofun, hcmd⟩

/-! ## The update family -/

/-- What a step of an update keeps of the channel state (43_update.md section 5). -/
def UpdateKeeps (s t : State) : Prop :=
  (∀ p, ∃ o e r c, t.port p = { s.port p with encOffset := o, encoder := e, raw := r, color := c }) ∧
    (∀ p, p ≠ lowPort s.seg → p ≠ highPort s.seg → t.port p = s.port p) ∧
    (∀ a, a < 0x600 ∨ 0xA00 ≤ a → t.mem.read a = s.mem.read a)

theorem UpdateKeeps.of_ports {s t : State} (hp : t.ports = s.ports)
    (hm : ∀ a, a < 0x600 ∨ 0xA00 ≤ a → t.mem.read a = s.mem.read a) : UpdateKeeps s t :=
  ⟨fun p => ⟨_, _, _, _, port_congr hp p⟩, fun p _ _ => port_congr hp p, hm⟩

theorem UpdateKeeps.of_quiet {s t : State} (h : Quiet s t) : UpdateKeeps s t :=
  .of_ports h.ports fun a _ => by rw [h.mem]

theorem UpdateKeeps.quiet {s t u : State} (h : UpdateKeeps s t) (k : Quiet t u) : UpdateKeeps s u := by
  obtain ⟨hfields, hother, hmem⟩ := h
  exact ⟨fun p => by rw [port_congr k.ports]; exact hfields p,
    fun p hl hh => (port_congr k.ports p).trans (hother p hl hh), fun a ha => by rw [k.mem]; exact hmem a ha⟩

theorem UpdateKeeps.build {s : State} (hw : s.mem.wf) : UpdateKeeps s (updateBuild s) := by
  obtain ⟨m, c, x, p, e, f⟩ := updateBuild_cases s
  rw [e]
  exact .of_ports rfl fun a ha => f.memOut hw a (by omega)

theorem UpdateKeeps.clearUnlessComm (r : Reply) (s : State) : UpdateKeeps s (clearUnlessComm r s) := by
  refine ⟨fun p => ?_, fun p hl hh => ?_, fun a _ => by rw [clearUnlessComm_eq]⟩
  · rw [clearUnlessComm_port]
    split_ifs
    · exact ⟨_, _, _, _, rfl⟩
    · exact ⟨_, _, _, _, rfl⟩
  · rw [clearUnlessComm_port, if_neg fun h => h.2.elim hl hh]

theorem UpdateKeeps.parse {s : State} (hw : s.mem.wf) (n : Nat) :
    UpdateKeeps s (parseReply n s.seg (clearOffsets s.seg s)) := by
  obtain ⟨hfields, hother, hmem⟩ := UpdateKeeps.clearUnlessComm .ok s
  have f := ParseFrame.parseReply s.seg n (clearOffsets s.seg s)
  refine ⟨fun p => ?_, fun p hl hh => (f.other p hl hh).trans (hother p hl hh), fun a ha => ?_⟩
  · obtain ⟨o, e, r, c, hp⟩ := hfields p
    have hkeep := f.keep p
    rw [show (clearOffsets s.seg s).port p = _ from hp] at hkeep
    exact ⟨o, _, _, _, hkeep⟩
  · exact (f.memOut hw a (by omega)).trans (hmem a ha)

theorem UpdateKeeps.ret {s : State} {after : State → State} (hw : s.mem.wf) (r : Reply) (hafter : ∀ u, Quiet u (after u)) :
    UpdateKeeps s (updateRet after r s) := by
  by_cases hv : r = .ok ∧ isValuesReply s = true
  · obtain ⟨rfl, hv⟩ := hv
    rw [updateRet_valid hv]
    exact (UpdateKeeps.parse hw _).quiet (hafter _)
  · rw [updateRet_fails fun hr => Bool.eq_false_iff.2 fun hk => hv ⟨hr, hk⟩]
    exact (UpdateKeeps.clearUnlessComm r s).quiet (.updateFail _ _)

/-- Settles O41: the build writes TX_BUF, a request RX_BUF, the return clears offsets and parses, every other step is
quiet. -/
theorem updateFrame : Obligations.UpdateFrame := by
  intro s t i hi hw h
  have keeps {onStart after : State → State} (hstart : Quiet s (onStart s)) (hafter : ∀ u, Quiet u (after u)) :
      UpdateKeeps s (atPoint onStart updateEnter updateBuild (updateRet after) s) :=
    atPoint_cases _ _ _ _ (UpdateKeeps s) (fun _ => .of_quiet (.refl s)) (fun _ _ => .of_quiet hstart)
      (fun g _ _ => .of_quiet ⟨rfl, rfl, rfl⟩) (fun _ _ => .build hw) (fun r _ _ => .ret hw r hafter)
      (fun k _ _ => .of_quiet (.complete k s)) fun _ =>
        .of_ports (linkStep_frame _ s).ports fun a ha => (linkStep_frame _ s).memOut hw a (by omega)
  have hkeeps : UpdateKeeps s t := by
    rcases hi with rfl | ⟨a, rfl⟩
    · obtain rfl := next_eq_next_iff.1 h
      exact keeps (onStart := updateEnter 0) ⟨rfl, rfl, rfl⟩ fun u => by rw [updateAfter_goto]; exact ⟨rfl, rfl, rfl⟩
    · obtain rfl := next_eq_next_iff.1 h
      exact keeps (.updateSegStart a s) fun u => ⟨rfl, rfl, rfl⟩
  obtain ⟨hfields, hother, hmem⟩ := hkeeps
  obtain ⟨hcmd, harg, -, -, -, -, hres⟩ := commandOperandRegistersAreNotWritten s t i h
  have hresult : t.result = s.result := by
    rcases hi with rfl | ⟨a, rfl⟩
    · exact hres nofun nofun nofun
    · exact hres nofun nofun nofun
  refine ⟨fun p => ?_, hother, hmem, harg, hresult, hcmd⟩
  obtain ⟨o, e, r, c, hp⟩ := hfields p
  rw [hp]
  exact ⟨rfl, rfl, rfl, rfl, rfl, rfl⟩

end Sys2Proof.Machine
end

-- A running command goes on: at a point it has, with fewer steps left (10_state.md section 6; 70_reset_and_hazards.md R320).
section
namespace Sys2Proof.Machine

/-! ## Steps left -/

/-- The engine steps a command has left at most when it enters a segment's successor: the successor's cycle and its
end after segment 0, the end after segment 1. -/
def segmentsLeft (g : SegIx) : Nat := if g = 0 then 528 else 1

/-- The engine steps left at most after the return of a transport procedure: retries, further segments, completion. -/
def afterReturn (k : CommandKind) (g : SegIx) (attempt : Nat) : Nat :=
  match k with
  | .update => (2 - attempt) * 263 + segmentsLeft g
  | .negotiation => segmentsLeft g
  | .broadcast => segmentsLeft g
  | .single => 0
  | .transmit => 0
  | .receive => 0
  | .acknowledged => 0

/-- The steps left after the return of the procedure in progress. -/
def State.afterReturn (s : State) : Nat := Machine.afterReturn (runningKind s) s.seg s.attempt.toNat

/-- The steps left at a build. -/
def State.afterBuild (s : State) : Nat := (if runningKind s = .update then 0 else 263) + s.afterReturn

/-- The transport requests left at most until the procedure returns. -/
def requestsLeft (s : State) : Nat :=
  match s.fsm with
  | .idle => 0
  | .run =>
    match s.pt with
    | .isOpen => 261
    | .setTimeout => 259
    | .start => 0
    | .enter _ => 0
    | .build => 0
    | .ret _ => 0
    | .finish _ => 0
  | .opening => 260
  | .send => 258
  | .rxChk => 257
  | .rxLen => 256
  | .rxPay => s.rxLen.toNat - s.rxIdx.toNat

/-- The engine steps left at most of a running command. -/
def stepsLeft (s : State) : Nat :=
  if atRequest s = true then requestsLeft s + 1 + s.afterReturn
  else
    match s.pt with
    | .start => 1055
    | .enter g => 527 + segmentsLeft g
    | .build => s.afterBuild
    | .ret _ => 1 + s.afterReturn
    | .finish _ => 1
    | .isOpen => 0
    | .setTimeout => 0

section
variable {s : State}

theorem stepsLeft_request (hr : atRequest s = true) : stepsLeft s = requestsLeft s + 1 + s.afterReturn := if_pos hr

theorem stepsLeft_start (hr : atRequest s = false) (hp : s.pt = .start) : stepsLeft s = 1055 := by
  rw [stepsLeft, if_neg (Bool.eq_false_iff.1 hr), hp]

theorem stepsLeft_enter {g : SegIx} (hr : atRequest s = false) (hp : s.pt = .enter g) :
    stepsLeft s = 527 + segmentsLeft g := by
  rw [stepsLeft, if_neg (Bool.eq_false_iff.1 hr), hp]

theorem stepsLeft_build (hr : atRequest s = false) (hp : s.pt = .build) : stepsLeft s = s.afterBuild := by
  rw [stepsLeft, if_neg (Bool.eq_false_iff.1 hr), hp]

theorem stepsLeft_ret {r : Reply} (hr : atRequest s = false) (hp : s.pt = .ret r) : stepsLeft s = 1 + s.afterReturn := by
  rw [stepsLeft, if_neg (Bool.eq_false_iff.1 hr), hp]

theorem stepsLeft_finish {k : ErrKind} (hr : atRequest s = false) (hp : s.pt = .finish k) : stepsLeft s = 1 := by
  rw [stepsLeft, if_neg (Bool.eq_false_iff.1 hr), hp]

theorem segmentsLeft_le (g : SegIx) : 1 ≤ segmentsLeft g ∧ segmentsLeft g ≤ 528 := by
  unfold segmentsLeft; split_ifs <;> omega

theorem afterReturn_le (hc : runningKind s = .update → 1 ≤ s.attempt.toNat) : s.afterReturn ≤ 791 := by
  have hseg := (segmentsLeft_le s.seg).2
  cases hk : runningKind s
  case update =>
    have ha := hc hk
    simp only [State.afterReturn, afterReturn, hk]
    omega
  all_goals
    simp only [State.afterReturn, afterReturn, hk]
    omega

theorem requestsLeft_le (s : State) : requestsLeft s ≤ 261 := by
  cases hf : s.fsm
  case run => cases hp : s.pt <;> simp only [requestsLeft, hf, hp] <;> omega
  case rxPay =>
    have := s.rxLen.isLt
    simp only [requestsLeft, hf]
    omega
  all_goals
    simp only [requestsLeft, hf]
    omega

/-- A running command has at most 1055 steps left (70_reset_and_hazards.md R320). -/
theorem stepsLeft_le (hc : updateConfigOk s) (hrun : atRequest s = true ∨ s.fsm = .run) : stepsLeft s ≤ 1055 := by
  cases hr : atRequest s with
  | true =>
    have hreq := requestsLeft_le s
    have hret := afterReturn_le fun hk => (hc hk (.inl hr)).2
    rw [stepsLeft_request hr]
    omega
  | false =>
    have hf : s.fsm = .run := hrun.resolve_left fun h => Bool.false_ne_true (hr.symm.trans h)
    have hseg := segmentsLeft_le s.seg
    cases hp : s.pt with
    | isOpen | setTimeout => simp [atRequest, hf, hp] at hr
    | start => exact (stepsLeft_start hr hp).le
    | enter g =>
      have := segmentsLeft_le g
      rw [stepsLeft_enter hr hp]; omega
    | build =>
      rw [stepsLeft_build hr hp]
      by_cases hk : runningKind s = .update
      · simp only [State.afterBuild, State.afterReturn, afterReturn, hk, if_true]
        omega
      · have hret := afterReturn_le fun h => absurd h hk
        rw [State.afterBuild, if_neg hk]; omega
    | ret r =>
      have hret := afterReturn_le fun hk => (hc hk (.inr ⟨hf, r, hp⟩)).2
      rw [stepsLeft_ret hr hp]; omega
    | finish k => rw [stepsLeft_finish hr hp]; omega

end

/-! ## Going on -/

/-- The procedure in progress carries a payload that fits a frame, and a message if it is an exchange. -/
def carriesMessage (x : Xfer) : Prop :=
  x.payload.length ≤ 255 ∧ (x.kind = .exchange → ∃ i, decode (.message x.payload) = .ok i)

/-- A running command at a point it has, with fewer than `n` steps left. -/
structure Onward (n : Nat) (t : State) : Prop where
  point : pointOk t
  config : updateConfigOk t
  message : atRequest t = true → carriesMessage t.xfer
  steps : stepsLeft t < n

section
variable {n : Nat} {t : State}

/-- At a point of the command's own other than a return. -/
theorem Onward.of_own (hr : atRequest t = false) (hret : ∀ r, t.pt ≠ .ret r) (hp : pointOk t) (hn : stepsLeft t < n) :
    Onward n t where
  point := hp
  config _ h := h.elim (fun h => absurd (hr.symm.trans h) Bool.false_ne_true) fun ⟨_, r, h⟩ => absurd h (hret r)
  message h := absurd (hr.symm.trans h) Bool.false_ne_true
  steps := hn

/-- The first request of a transport procedure. -/
theorem Onward.call {x : Xfer} (hk : (runningKind t).xferKind = some x.kind)
    (hc : runningKind t = .update → devCountsOk t.seg t = true ∧ 1 ≤ t.attempt.toNat) (hm : carriesMessage x)
    (hn : 262 + t.afterReturn < n) : Onward n (callTransport x t) where
  point := hk
  config h _ := hc h
  message _ := hm
  steps := by rw [stepsLeft_request rfl]; exact hn

theorem Onward.build (hf : t.fsm = .run) (hp : t.pt = .build)
    (hk : runningKind t = .negotiation ∨ (runningKind t = .update ∧ t.attempt.toNat ≤ 1)) (hn : t.afterBuild < n) :
    Onward n t := by
  have hr : atRequest t = false := by simp only [atRequest, hf, hp]
  exact .of_own hr (fun r => by rw [hp]; exact Point.noConfusion) (by simpa only [pointOk, hf, hp] using hk)
    (by rw [stepsLeft_build hr hp]; exact hn)

theorem Onward.enter {g : SegIx} (hf : t.fsm = .run) (hp : t.pt = .enter g) (hk : runningKind t = .update)
    (hn : 527 + segmentsLeft g < n) : Onward n t := by
  have hr : atRequest t = false := by simp only [atRequest, hf, hp]
  exact .of_own hr (fun r => by rw [hp]; exact Point.noConfusion) (by simpa only [pointOk, hf, hp] using hk)
    (by rw [stepsLeft_enter hr hp]; exact hn)

theorem Onward.finish {k : ErrKind} (hf : t.fsm = .run) (hp : t.pt = .finish k)
    (hk : runningKind t = .negotiation ∨ runningKind t = .update ∨ runningKind t = .broadcast) (hn : 1 < n) :
    Onward n t := by
  have hr : atRequest t = false := by simp only [atRequest, hf, hp]
  exact .of_own hr (fun r => by rw [hp]; exact Point.noConfusion) (by simpa only [pointOk, hf, hp] using hk)
    (by rw [stepsLeft_finish hr hp]; exact hn)

end

/-! ## Transport requests -/

section
variable {s : State}

/-- The procedure in progress at a request is the command's. -/
theorem xferOk_of_request (hp : pointOk s) (hr : atRequest s = true) : xferOk s := by
  cases hf : s.fsm with
  | idle => simp [atRequest, hf] at hr
  | run =>
    cases hpt : s.pt with
    | isOpen => simpa only [pointOk, hf, hpt] using hp
    | setTimeout => simp only [pointOk, hf, hpt] at hp; exact hp.1
    | start | enter | build | ret | finish => simp [atRequest, hf, hpt] at hr
  | opening => simpa only [pointOk, hf] using hp
  | send | rxChk | rxLen | rxPay => simp only [pointOk, hf] at hp; exact hp.1

/-- What a request leads to: another request, with fewer left, or the return of the procedure. -/
def RequestGoesOn (s t : State) : Prop :=
  pointOk t ∧ ((atRequest t = true ∧ requestsLeft t < requestsLeft s) ∨ (t.fsm = .run ∧ ∃ r, t.pt = .ret r))

theorem requestGoesOn_checkReply {u : State} (hk : runningKind u ≠ .single) : RequestGoesOn s (checkReply u) := by
  rw [checkReply_eq]
  exact ⟨hk, .inr ⟨rfl, _, rfl⟩⟩

/-- A received length byte. -/
theorem requestGoesOn_takeLength {u : State} {b : Byte} (hf : s.fsm = .rxLen) (hk : runningKind u ≠ .single)
    (hx : xferOk u) (ht : u.xfer.kind ≠ .transmit) (hidx : u.rxIdx = 0) : RequestGoesOn s (takeLength b u) := by
  by_cases hb : b = 0
  · subst hb
    rw [takeLength, if_pos rfl]
    exact requestGoesOn_checkReply hk
  · rw [takeLength_pos hb]
    have hpos : 0 < b.toNat := Nat.pos_of_ne_zero fun h => hb (BitVec.eq_of_toNat_eq h)
    refine ⟨⟨hx, ht, ?_⟩, .inl ⟨rfl, ?_⟩⟩
    · rw [hidx]; exact hpos
    · have := b.isLt
      simp only [requestsLeft, hf]
      omega

/-- A received payload byte. -/
theorem requestGoesOn_takePayload {u : State} {b : Byte} (hf : s.fsm = .rxPay) (hfu : u.fsm = s.fsm)
    (hlen : u.rxLen = s.rxLen) (hidx : u.rxIdx = s.rxIdx) (hk : runningKind u ≠ .single) (hx : xferOk u)
    (ht : u.xfer.kind ≠ .transmit) : RequestGoesOn s (takePayload b u) := by
  by_cases hmore : u.rxIdx.toNat + 1 < u.rxLen.toNat
  · have hnext : (u.rxIdx + 1).toNat = u.rxIdx.toNat + 1 := by
      have := u.rxLen.isLt
      exact Nat.mod_eq_of_lt (show u.rxIdx.toNat + 1 < 2 ^ 8 by omega)
    rw [takePayload_more b hmore]
    have hfu' := hfu.trans hf
    refine ⟨?_, .inl ⟨?_, ?_⟩⟩
    · simp only [pointOk, hfu']
      exact ⟨hx, ht, by rw [hnext]; exact hmore⟩
    · simp only [atRequest, hfu']
    · simp only [requestsLeft, hfu', hf, hnext, ← hlen, ← hidx]
      omega
  · dsimp only [takePayload]
    rw [if_neg hmore]
    exact requestGoesOn_checkReply hk

theorem linkStep_goesOn (hp : pointOk s) (hr : atRequest s = true) : RequestGoesOn s (linkStep s.xfer s) := by
  have hx := xferOk_of_request hp hr
  have hk := runningKind_of_request hp hr
  refine linkStep_cases (RequestGoesOn s) hr (fun e h => ?opened) (fun e hf hpt => ?closed) (fun e hf hpt ht => ?timeout)
    (fun e h ht => ?begin) (fun e _ _ => ⟨hk, .inr ⟨rfl, _, rfl⟩⟩) (fun e => ⟨hk, .inr ⟨rfl, _, rfl⟩⟩)
    (fun e c hf => ?checksum) (fun e b hf => ?length) (fun e b hf => ?payload)
  case opened =>
    have hn : 260 ≤ requestsLeft s := by
      rcases h with ⟨hf, hpt⟩ | hf
      · simp only [requestsLeft, hf, hpt]; omega
      · simp only [requestsLeft, hf]; omega
    by_cases ht : s.xfer.kind = .transmit
    · rw [linkOpen_transmit ht]
      exact ⟨⟨hx, fun h => XferKind.noConfusion (ht.symm.trans h)⟩, .inl ⟨rfl, Nat.lt_of_lt_of_le (show 258 < 260 by omega) hn⟩⟩
    · rw [linkOpen_receiving ht]
      exact ⟨⟨hx, ht⟩, .inl ⟨rfl, Nat.lt_of_lt_of_le (show 259 < 260 by omega) hn⟩⟩
  case closed => exact ⟨hx, .inl ⟨rfl, by simp only [requestsLeft, hf, hpt, State.goto_fsm]; omega⟩⟩
  case timeout => exact ⟨⟨hx, ht⟩, .inl ⟨rfl, by simp only [requestsLeft, hf, hpt, State.goto_fsm]; omega⟩⟩
  case begin =>
    have hn : 258 ≤ requestsLeft s := by
      rcases h with ⟨hf, hpt⟩ | hf
      · simp only [requestsLeft, hf, hpt]; omega
      · simp only [requestsLeft, hf]; omega
    exact ⟨⟨hx, ht, rfl⟩, .inl ⟨rfl, Nat.lt_of_lt_of_le (show 257 < 258 by omega) hn⟩⟩
  case checksum =>
    simp only [pointOk, hf] at hp
    exact ⟨⟨hx, hp.2⟩, .inl ⟨rfl, by simp only [requestsLeft, hf]; omega⟩⟩
  case length =>
    simp only [pointOk, hf] at hp
    exact requestGoesOn_takeLength hf hk hx hp.2.1 hp.2.2
  case payload =>
    simp only [pointOk, hf] at hp
    exact requestGoesOn_takePayload hf rfl rfl rfl hk hx hp.2.1

theorem requestsLeft_pos (hp : pointOk s) (hr : atRequest s = true) : 0 < requestsLeft s := by
  cases hf : s.fsm with
  | idle => simp [atRequest, hf] at hr
  | run =>
    cases hpt : s.pt with
    | isOpen | setTimeout => simp only [requestsLeft, hf, hpt]; omega
    | start | enter | build | ret | finish => simp [atRequest, hf, hpt] at hr
  | opening | send | rxChk | rxLen => simp only [requestsLeft, hf]; omega
  | rxPay =>
    simp only [pointOk, hf] at hp
    simp only [requestsLeft, hf]
    omega

/-- The kind of the running command is that of CMD. -/
theorem runningKind_congr {t : State} (h : t.cmd = s.cmd) : runningKind t = runningKind s := by
  unfold runningKind; rw [h]

theorem devCountsOk_of_ports {t : State} (hp : t.ports = s.ports) (hq : t.env.params = s.env.params) (g : SegIx) :
    devCountsOk g t = devCountsOk g s := by
  have hclass (p : PortIx) : t.portClass p = s.portClass p :=
    State.portClass_congr (by rw [port_congr hp]) (by unfold State.sensorCode; rw [hq])
  unfold devCountsOk
  simp only [hclass, port_congr hp]

/-- A transport request carries the running command on. -/
theorem Onward.request (hp : pointOk s) (hc : updateConfigOk s) (hm : carriesMessage s.xfer) (hr : atRequest s = true) :
    Onward (stepsLeft s) (linkStep s.xfer s) := by
  have f := linkStep_frame s.xfer s
  have hkind := runningKind_congr f.cmd
  have hafter : (linkStep s.xfer s).afterReturn = s.afterReturn := by
    rw [State.afterReturn, hkind, f.seg, f.attempt]; rfl
  obtain ⟨hpt, hnext⟩ := linkStep_goesOn hp hr
  refine ⟨hpt, fun h _ => ?_, fun _ => by rw [f.xfer]; exact hm, ?_⟩
  · rw [f.seg, f.attempt, devCountsOk_of_ports f.ports f.params]
    exact hc (hkind.symm.trans h) (.inl hr)
  · rw [stepsLeft_request hr]
    rcases hnext with ⟨hr', hlt⟩ | ⟨hf, r, hret⟩
    · rw [stepsLeft_request hr', hafter]; omega
    · have := requestsLeft_pos hp hr
      rw [stepsLeft_ret (by simp only [atRequest, hf, hret]) hret, hafter]; omega

/-- A received payload byte goes below RX[255] (41_frame.md R172). -/
theorem linkStep_rxTail (hp : pointOk s) (hr : atRequest s = true) (hw : s.mem.wf) (h : s.rx 255 = 0) :
    (linkStep s.xfer s).rx 255 = 0 := by
  have reply {u : State} (hu : u.rx 255 = 0) : (checkReply u).rx 255 = 0 := by rw [checkReply_eq]; exact hu
  refine linkStep_cases (fun t => t.rx 255 = 0) hr (fun e _ => ?opened) (fun _ _ _ => h) (fun _ _ _ _ => h)
    (fun e _ _ => ?begin) (fun _ _ _ => h) (fun _ => h) (fun _ _ _ => h) (fun e b _ => ?length) (fun e b hf => ?payload)
  case opened =>
    by_cases ht : s.xfer.kind = .transmit
    · rw [linkOpen_transmit ht]; exact h
    · rw [linkOpen_receiving ht]; exact h
  case begin =>
    change (s.mem.clear rxBase 256).read (rxBase + 255) = 0
    rw [Memory.read_clear, if_pos (by omega)]
  case length =>
    dsimp only [takeLength]
    split_ifs
    · exact reply h
    · exact h
  case payload =>
    have hidx : s.rxIdx.toNat < 255 := by
      simp only [pointOk, hf] at hp
      have := s.rxLen.isLt
      omega
    have hwrite : (s.mem.write (rxBase + s.rxIdx.toNat) b).read (rxBase + 255) = 0 := by
      rw [Memory.read_write hw, if_neg (by omega)]; exact h
    dsimp only [takePayload]
    split_ifs
    · exact hwrite
    · exact reply hwrite

end

end Sys2Proof.Machine
end

-- A command's own steps carry it on or complete it (10_state.md section 6; 70_reset_and_hazards.md R320).
section
namespace Sys2Proof.Machine

/-! ## Payloads that are messages (30_encoding.md R125, R126) -/

theorem decode_setSensorType {p : List Byte} (h2 : p.head? = some 2) (hmin : 3 ≤ p.length) (hmax : p.length ≤ 255) :
    ∃ i, decode (.message p) = .ok i := by
  match p, h2, hmin, hmax with
  | tag :: lo :: hi :: sub, h2, _, hmax =>
    obtain rfl := Option.some.inj h2
    exact ⟨_, checkLength_of_wellFormed (i := .wireSetSensorType lo hi sub) (decide_eq_true (by
      simp only [List.length_cons] at hmax; omega))⟩

theorem decode_readValues {p : List Byte} (h3 : p.head? = some 3) (hmin : 4 ≤ p.length) (hmax : p.length ≤ 255) :
    ∃ i, decode (.message p) = .ok i := by
  match p, h3, hmin, hmax with
  | tag :: req, h3, hmin, hmax =>
    obtain rfl := Option.some.inj h3
    simp only [List.length_cons] at hmin hmax
    exact ⟨_, checkLength_of_wellFormed (i := .wireReadValues req) (Bool.and_eq_true_iff.2
      ⟨decide_eq_true (by unfold minRequestBytes; omega), decide_eq_true (by omega)⟩)⟩

theorem head?_map_range {n : Nat} (h : 0 < n) (f : Nat → Byte) : ((List.range n).map f).head? = some (f 0) := by
  rw [List.head?_map, List.head?_range, if_neg (Nat.ne_of_gt h)]; rfl

theorem ceil8_le {b n : Nat} (h : b ≤ 8 * n) : ceil8 b ≤ n := by unfold ceil8; omega

theorem le_ceil8 {b n : Nat} (h : 8 * n < b + 8) : n ≤ ceil8 b := by unfold ceil8; omega

/-- The offsets and the motor commands of two ports take at least 22 bits (30_encoding.md R127). -/
theorem length_updateBits (g : SegIx) (s : State) : 22 ≤ (updateBits g s).length := by
  have encoder (x : Int) : 1 ≤ (encoderBits x).length := by
    unfold encoderBits
    by_cases hx : x = 0
    · rw [if_pos hx]; exact Nat.le_refl 1
    · rw [if_neg hx]; simp only [List.length_append, List.length_singleton]; omega
  have motor (x : Port) : (motorBits x).length = 10 := by
    simp only [motorBits, List.length_append, natBits_length, List.length_cons, List.length_nil]
  have hlow := encoder (s.port (lowPort g)).encOffset.toInt
  have hhigh := encoder (s.port (highPort g)).encOffset.toInt
  simp only [updateBits, List.length_append, motor]
  omega

/-! ## Port values (10_state.md R43 to R48) -/

theorem toInt_ofInt_smDecode {v : Nat} (h : v < 2 ^ 31) : (BitVec.ofInt 32 (smDecode v)).toInt.natAbs ≤ 2 ^ 30 - 1 := by
  have habs := natAbs_smDecode v
  rw [BitVec.toInt_ofInt_eq_self (by omega) (by omega) (by omega), habs]
  omega

theorem rxBits_lt {s : State} {q w n : Nat} (h : w ≤ n) : rxBits s q w < 2 ^ n :=
  Nat.lt_of_lt_of_le (Memory.loadBits_lt ..) (Nat.pow_le_pow_right (by omega) h)

theorem usedBits_le (s : State) (j : Fin 2) : usedBits s j ≤ 31 := Nat.le_of_lt_succ (rxBits_lt (n := 5) (Nat.le_refl 5))

theorem devCount_le_of_devCountsOk {g : SegIx} {s : State} (hd : devCountsOk g s = true) {p : PortIx}
    (hp : p = lowPort g ∨ p = highPort g) (hc : s.portClass p = .i2c) : (s.port p).devCount.toNat ≤ 8 := by
  by_contra hn
  have hbad : (decide (s.portClass p ≠ .i2c) || (s.port p).devCountInRange) = false := by
    simp only [hc, Port.devCountInRange, hn, ne_eq, not_true_eq_false, decide_false, Bool.and_false, Bool.or_self]
  have hall := List.all_eq_true.1 hd p (by rcases hp with rfl | rfl <;> simp [segPorts])
  exact Bool.false_ne_true (hbad.symm.trans hall)

theorem rawAt_lt {s : State} {p : PortIx} (q : Nat) (h : s.portClass p = .i2c → (s.port p).devCount.toNat ≤ 8) :
    (rawAt s p q).toNat < 2 ^ 10 := by
  obtain ⟨htouch, hultra, hdefault, hcolor, hi2c⟩ := toNat_rawAt s p q
  cases hc : s.portClass p with
  | touch => rw [htouch hc]; exact rxBits_lt (by omega)
  | ultrasonic => rw [hultra hc]; exact rxBits_lt (by omega)
  | colorFull => rw [hcolor hc]; exact rxBits_lt (by omega)
  | i2c => rw [hi2c hc]; exact rxBits_lt (Nat.le_trans (h hc) (by omega))
  | default => rw [hdefault hc]; exact rxBits_lt (by omega)

theorem valuesOk_clearUnlessComm {s : State} (r : Reply) (hv : ∀ p, (s.port p).valuesOk) (p : PortIx) :
    ((clearUnlessComm r s).port p).valuesOk := by
  obtain ⟨hspeed, -, henc, hraw⟩ := hv p
  rw [clearUnlessComm_port]
  split_ifs
  · exact ⟨hspeed, show (0 : Word).toInt.natAbs ≤ _ by decide, henc, hraw⟩
  · exact hv p

/-- The readings a parse stores are in range. -/
theorem valuesOk_parse {s : State} (hn : s.rxLen ≠ 0) (hd : devCountsOk s.seg s = true) (hv : ∀ p, (s.port p).valuesOk)
    (p : PortIx) : ((parseReply s.rxLen.toNat s.seg (clearOffsets s.seg s)).port p).valuesOk := by
  obtain ⟨c, ps, m, t, rfl, -, -, hother, hown, -⟩ := updateParse_spec hn hd
  by_cases hp : p = lowPort s.seg ∨ p = highPort s.seg
  · obtain ⟨hspeed, -, -, -⟩ := hv p
    rw [hown p hp]
    refine ⟨hspeed, show (0 : Word).toInt.natAbs ≤ _ by decide, toInt_ofInt_smDecode ?_, rawAt_lt _ (devCount_le_of_devCountsOk hd hp)⟩
    split_ifs
    · exact rxBits_lt (usedBits_le s 0)
    · exact rxBits_lt (usedBits_le s 1)
  · rw [hother p (fun h => hp (.inl h)) fun h => hp (.inr h)]
    exact hv p

/-! ## What an own step leads to -/

/-- The command has completed or goes on with fewer than `n` steps left, port values and attempts in range. -/
structure GoesOn (n : Nat) (t : State) : Prop where
  values : ∀ p, (t.port p).valuesOk
  attempts : attemptsOk t
  next : t.fsm = .idle ∨ Onward n t

section
variable {n : Nat} {s : State}

theorem attemptsOk_setAttempts {a : BitVec 2} (h : a.toNat ≤ 2) : attemptsOk (s.setAttempts a) := ⟨h, h⟩

theorem GoesOn.complete (hv : ∀ p, (s.port p).valuesOk) (ha : attemptsOk s) (k : ErrKind) : GoesOn n (complete k s) :=
  ⟨hv, ha, .inl rfl⟩

theorem GoesOn.negotiateEnter (hv : ∀ p, (s.port p).valuesOk) (ha : attemptsOk s) (hk : runningKind s = .negotiation)
    (g : SegIx) (hn : 263 + segmentsLeft g < n) : GoesOn n (negotiateEnter g s) := by
  refine ⟨hv, ha, .inr (.build rfl rfl (.inl hk) ?_)⟩
  have hk' : runningKind (Machine.negotiateEnter g s) = .negotiation := hk
  rw [State.afterBuild, State.afterReturn, hk']
  exact hn

theorem GoesOn.updateEnter (hv : ∀ p, (s.port p).valuesOk) (ha : attemptsOk s) (hk : runningKind s = .update)
    (g : SegIx) (hn : 526 + segmentsLeft g < n) : GoesOn n (updateEnter g s) := by
  refine ⟨hv, ⟨Nat.zero_le 2, ha.2⟩, .inr (.build rfl rfl (.inr ⟨hk, Nat.zero_le 1⟩) ?_)⟩
  have hk' : runningKind (Machine.updateEnter g s) = .update := hk
  rw [State.afterBuild, State.afterReturn, hk']
  change 0 + ((2 - 0) * 263 + segmentsLeft g) < n
  omega

theorem GoesOn.broadcastEnter {p : List Byte} (hv : ∀ q, (s.port q).valuesOk) (hk : runningKind s = .broadcast)
    (hp : p.length ≤ 255 ∧ ∃ i, decode (.message p) = .ok i) (g : SegIx) (hn : 262 + segmentsLeft g < n) :
    GoesOn n (broadcastEnter p g s) := by
  have hk' : runningKind ((s.setSeg g).setAttempts 1) = .broadcast := hk
  refine ⟨hv, attemptsOk_setAttempts (a := 1) (by decide), .inr (.call ?_ (fun h => ?_) ⟨hp.1, fun _ => hp.2⟩ ?_)⟩
  · rw [hk']; rfl
  · rw [hk'] at h; cases h
  · rw [State.afterReturn, hk']; exact hn

end

/-! ## The builds -/

section
variable {s : State}

theorem GoesOn.negotiateBuild (I : Inv s) (hk : runningKind s = .negotiation) :
    GoesOn s.afterBuild (negotiateBuild s) := by
  have hleft : s.afterBuild = 263 + segmentsLeft s.seg := by
    rw [State.afterBuild, State.afterReturn, hk]; rfl
  generalize hu : clampSegment s.seg (s.setAttempts 1) = u
  have hue : u = { s.setAttempts 1 with ports := u.ports } := by rw [← hu]; exact clampSegment_eq _ _
  have hkind : runningKind u = .negotiation := (runningKind_congr (by rw [hue]; rfl)).trans hk
  have hseg : u.seg = s.seg := by rw [hue]; rfl
  have hvalues (p : PortIx) : (u.port p).valuesOk := by
    rw [← hu, clampSegment_port]
    split_ifs
    · exact I.values p
    · exact I.values p
  have hattempts : attemptsOk u := by rw [hue]; exact attemptsOk_setAttempts (a := 1) (by decide)
  by_cases hlen : (negotiationBits s.seg s).length ≤ 2016
  · obtain ⟨u', m, c, x, hu', e, hx, -, -, hpl, -, -, hhd, -⟩ := negotiateBuild_fits I.memory.1 hlen
    obtain rfl := hu'.symm.trans hu
    have hceil := ceil8_le (n := 252) hlen
    have hlength : x.payload.length = 3 + ceil8 (negotiationBits s.seg s).length := by rw [hpl]; simp
    have hhead : x.payload.head? = some 2 := by
      rw [hpl, head?_map_range (by omega)]; exact congrArg some (hhd 0 (by omega))
    have hkind' : runningKind { u' with mem := m, cursor := c } = .negotiation := hkind
    rw [e, hleft]
    refine ⟨hvalues, hattempts, .inr (Onward.call (t := { u' with mem := m, cursor := c }) ?_ (fun h => ?_)
      ⟨by omega, fun _ => decode_setSensorType hhead (by omega) (by omega)⟩ ?_)⟩
    · rw [hkind', hx]; rfl
    · rw [hkind'] at h; cases h
    · rw [State.afterReturn, hkind']
      change 262 + segmentsLeft u'.seg < _
      rw [hseg]; omega
  · obtain ⟨m, c, e, -⟩ := negotiateBuild_tooLong (Nat.lt_of_not_le hlen)
    have := segmentsLeft_le s.seg
    rw [e, hu, hleft]
    exact ⟨hvalues, hattempts, .inr (.finish rfl rfl (.inl hkind) (by omega))⟩

theorem toNat_attempt_succ {a : BitVec 2} (h : a.toNat ≤ 1) : (a + 1).toNat = a.toNat + 1 :=
  Nat.mod_eq_of_lt (show a.toNat + 1 < 2 ^ 2 by omega)

theorem GoesOn.updateBuild (I : Inv s) (hk : runningKind s = .update) (ha : s.attempt.toNat ≤ 1) :
    GoesOn s.afterBuild (updateBuild s) := by
  have hleft : s.afterBuild = (2 - s.attempt.toNat) * 263 + segmentsLeft s.seg := by
    rw [State.afterBuild, State.afterReturn, hk]; exact Nat.zero_add _
  have hsucc := toNat_attempt_succ ha
  have hseg := segmentsLeft_le s.seg
  have hattempts : attemptsOk (s.setAttempts (s.attempt + 1)) := attemptsOk_setAttempts (by omega)
  have stops {t : State} (hvalues : ∀ p, (t.port p).valuesOk) (hat : attemptsOk t) (hcmd : t.cmd = s.cmd)
      (hf : t.fsm = .run) (hp : t.pt = .finish .validation) : GoesOn s.afterBuild t :=
    ⟨hvalues, hat, .inr (.finish hf hp (.inr (.inl ((runningKind_congr hcmd).trans hk))) (by rw [hleft]; omega))⟩
  cases hd : devCountsOk s.seg s with
  | false => rw [updateBuild_rejects hd]; exact stops I.values hattempts rfl rfl rfl
  | true =>
    have hoffsets (p : PortIx) : (s.port p).encOffset.toInt.natAbs ≤ 2 ^ 30 - 1 := (I.values p).2.1
    by_cases hlen : (updateBits s.seg s).length ≤ 2032
    · obtain ⟨m, c, x, e, hx, -, -, hpl, -, -, hhd, -⟩ := updateBuild_fits I.memory.1 hd hoffsets hlen
      have hmax := ceil8_le (n := 254) hlen
      have hmin := le_ceil8 (b := (updateBits s.seg s).length) (n := 3) (by have := length_updateBits s.seg s; omega)
      have hlength : x.payload.length = 1 + ceil8 (updateBits s.seg s).length := by rw [hpl]; simp
      have hhead : x.payload.head? = some 3 := by
        rw [hpl, head?_map_range (by omega)]; exact congrArg some hhd
      have hkind : runningKind { s.setAttempts (s.attempt + 1) with mem := m, cursor := c } = .update := hk
      rw [e, hleft]
      refine ⟨I.values, hattempts, .inr (Onward.call (t := { s.setAttempts (s.attempt + 1) with mem := m, cursor := c })
        ?_ (fun _ => ⟨hd, ?_⟩) ⟨by omega, fun _ => decode_readValues hhead (by omega) (by omega)⟩ ?_)⟩
      · rw [hkind, hx]; rfl
      · change 1 ≤ (s.attempt + 1).toNat
        omega
      · rw [State.afterReturn, hkind]
        change 262 + ((2 - (s.attempt + 1).toNat) * 263 + segmentsLeft s.seg) < _
        omega
    · obtain ⟨m, c, e, -⟩ := updateBuild_tooLong hd hoffsets (Nat.lt_of_not_le hlen)
      rw [e]
      exact stops I.values hattempts rfl rfl rfl

end

/-! ## The returns -/

section
variable {n : Nat} {s : State}

theorem GoesOn.negotiateRet {after : State → State} (hv : ∀ p, (s.port p).valuesOk) (ha : attemptsOk s) (r : Reply)
    (h : GoesOn n (after s)) : GoesOn n (negotiateRet after r s) := by
  by_cases hk : ackOutcome 2 r s = .ok
  · rw [negotiateRet_ok hk]; exact h
  · rw [negotiateRet_fail hk]; exact .complete hv ha _

theorem GoesOn.negotiateAfter (hv : ∀ p, (s.port p).valuesOk) (ha : attemptsOk s) (hk : runningKind s = .negotiation) :
    GoesOn (1 + s.afterReturn) (negotiateAfter s) := by
  unfold Machine.negotiateAfter
  split_ifs with hg
  · refine .negotiateEnter hv ha hk 1 ?_
    rw [State.afterReturn, hk, hg]
    exact (show 263 + 1 < 1 + 528 by omega)
  · exact .complete hv ha _

theorem GoesOn.broadcastRet {p : List Byte} (hv : ∀ q, (s.port q).valuesOk) (ha : attemptsOk s)
    (hk : runningKind s = .broadcast) (hp : p.length ≤ 255 ∧ ∃ i, decode (.message p) = .ok i) (tag : Byte) (r : Reply) :
    GoesOn (1 + s.afterReturn) (broadcastRet tag p r s) := by
  have hleft : s.afterReturn = segmentsLeft s.seg := by rw [State.afterReturn, hk]; rfl
  have hseg := segmentsLeft_le s.seg
  have same {t : State} (hv : ∀ q, (t.port q).valuesOk) (ha : attemptsOk t) (hk : runningKind t = .broadcast) :
      GoesOn (1 + s.afterReturn) (if s.seg = 0 then Machine.broadcastEnter p 1 t else broadcastEnd t) := by
    split_ifs with hg
    · refine .broadcastEnter hv hk hp 1 ?_
      rw [hleft, hg]
      decide
    · exact ⟨hv, ha, .inr (.finish rfl rfl (.inr (.inr hk)) (by omega))⟩
  unfold Machine.broadcastRet noteAuxErr
  dsimp only
  by_cases hn : ackErr tag r s ≠ .ok ∧ s.auxErr = .ok
  · rw [if_pos hn]; exact same hv ha hk
  · rw [if_neg hn]; exact same hv ha hk

theorem GoesOn.updateFail {u : State} (hv : ∀ p, (u.port p).valuesOk) (hu : u = { s with ports := u.ports })
    (ha : attemptsOk s) (hk : runningKind s = .update) (k : ErrKind) : GoesOn (1 + s.afterReturn) (updateFail k u) := by
  have hau : attemptsOk u := by rw [hu]; exact ha
  have hku : runningKind u = .update := (runningKind_congr (by rw [hu])).trans hk
  unfold Machine.updateFail
  split_ifs with hlt
  · refine ⟨hv, hau, .inr (.build rfl rfl (.inr ⟨hku, Nat.le_of_lt_succ hlt⟩) ?_)⟩
    have hkg : runningKind (u.goto .run .build) = .update := hku
    have hafter : (u.goto .run .build).afterReturn = s.afterReturn := by
      rw [State.afterReturn, hkg, State.afterReturn, hk, hu]; rfl
    rw [State.afterBuild, if_pos hkg, hafter]
    omega
  · exact .complete hv hau _

/-- The return of an update, where `after` says what follows a parsed reply. -/
theorem GoesOn.updateRet {after : State → State} (I : Inv s) (hb : s.status.busy = true) (hk : runningKind s = .update)
    (hf : s.fsm = .run) {r : Reply} (hp : s.pt = .ret r)
    (hafter : ∀ t : State, ∃ p, after t = t.goto .run p ∧
      (p = .finish .ok ∨ (p = .enter 1 ∧ t.seg = 0))) :
    GoesOn (1 + s.afterReturn) (updateRet after r s) := by
  have hleft : s.afterReturn = (2 - s.attempt.toNat) * 263 + segmentsLeft s.seg := by rw [State.afterReturn, hk]; rfl
  obtain ⟨hd, -⟩ := I.config hb hk (.inr ⟨hf, r, hp⟩)
  by_cases hv : r = .ok ∧ isValuesReply s = true
  · obtain ⟨rfl, hv⟩ := hv
    obtain ⟨hn, -⟩ := (isValuesReply_iff s).1 hv
    obtain ⟨c, ps, m, t, ht, e, -⟩ := updateParse_spec hn hd
    have hvalues := valuesOk_parse hn hd I.values
    obtain ⟨p, hgoto, hp⟩ := hafter t
    rw [ht] at hvalues
    rw [updateRet_valid hv, ht, hgoto]
    have hkt : runningKind t = .update := (runningKind_congr (by rw [e])).trans hk
    have hat : attemptsOk t := by rw [e]; exact I.attempts
    refine ⟨hvalues, hat, .inr ?_⟩
    rcases hp with rfl | ⟨rfl, hg⟩
    · have := segmentsLeft_le s.seg
      exact .finish rfl rfl (.inr (.inl hkt)) (by rw [hleft]; omega)
    · have hseg : s.seg = 0 := by rw [e] at hg; exact hg
      refine .enter rfl rfl hkt ?_
      rw [hleft, hseg]
      change 527 + 1 < 1 + ((2 - s.attempt.toNat) * 263 + 528)
      omega
  · rw [updateRet_fails fun hr => Bool.eq_false_iff.2 fun hk => hv ⟨hr, hk⟩]
    exact .updateFail (valuesOk_clearUnlessComm r I.values) (clearUnlessComm_eq r s) I.attempts hk _

end

/-! ## The commands -/

theorem isCommand_of_decode {w : Word} {i : Instr} (h : decode (.command w) = .ok i) : i.isCommand = true := by
  have width {j : Instr} (hj : j.isCommand = true) (h : checkWidth j = .ok i) : i.isCommand = true := by
    unfold checkWidth at h
    split_ifs at h
    cases h
    exact hj
  change decodeCommand w = .ok i at h
  unfold decodeCommand at h
  split_ifs at h
  split at h
  case h_3 => exact width rfl h
  case h_4 => exact width rfl h
  all_goals cases h <;> rfl

section
variable {s : State}

/-- A command's own step, point by point, with what the invariant says of each point. -/
theorem atPoint_goesOn {onStart : State → State} {onEnter : SegIx → State → State} {onBuild : State → State}
    {onRet : Reply → State → State} (I : Inv s) (hb : s.status.busy = true) (hr : atRequest s = false)
    (hstart : GoesOn 1055 (onStart s))
    (henter : runningKind s = .update → ∀ g, GoesOn (527 + segmentsLeft g) (onEnter g s))
    (hbuild : runningKind s = .negotiation ∨ (runningKind s = .update ∧ s.attempt.toNat ≤ 1) →
      GoesOn s.afterBuild (onBuild s))
    (hret : s.fsm = .run → ∀ r, s.pt = .ret r → GoesOn (1 + s.afterReturn) (onRet r s)) :
    GoesOn (stepsLeft s) (atPoint onStart onEnter onBuild onRet s) := by
  have hpoint := I.point hb
  refine atPoint_cases onStart onEnter onBuild onRet (GoesOn (stepsLeft s)) (fun hf => ?idle) (fun _ hp => ?start)
    (fun g hf hp => ?enter) (fun hf hp => ?build) (fun r hf hp => ?ret) (fun k _ _ => .complete I.values I.attempts k)
    (fun h => absurd (hr.symm.trans h) Bool.false_ne_true)
  case idle => exact absurd (I.status.2.1.1 hf) (by rw [hb]; decide)
  case start => rw [stepsLeft_start hr hp]; exact hstart
  case enter =>
    rw [stepsLeft_enter hr hp]
    exact henter (by simpa only [pointOk, hf, hp] using hpoint) g
  case build =>
    rw [stepsLeft_build hr hp]
    exact hbuild (by simpa only [pointOk, hf, hp] using hpoint)
  case ret => rw [stepsLeft_ret hr hp]; exact hret hf r hp

/-- A command that has neither segments to enter nor a request to build. -/
theorem atPoint_goesOn_plain {onStart : State → State} {onEnter : SegIx → State → State} {onBuild : State → State}
    {onRet : Reply → State → State} (I : Inv s) (hb : s.status.busy = true) (hr : atRequest s = false)
    (hneg : runningKind s ≠ .negotiation) (hupd : runningKind s ≠ .update) (hstart : GoesOn 1055 (onStart s))
    (hret : ∀ r, GoesOn (1 + s.afterReturn) (onRet r s)) :
    GoesOn (stepsLeft s) (atPoint onStart onEnter onBuild onRet s) :=
  atPoint_goesOn I hb hr hstart (fun h => absurd h hupd) (fun h => h.elim (absurd · hneg) fun h => absurd h.1 hupd)
    (fun _ r _ => hret r)

theorem GoesOn.frameTxStart (I : Inv s) (hk : runningKind s = .transmit) (a : Byte) : GoesOn 1055 (frameTxStart a s) := by
  unfold Machine.frameTxStart
  cases byteOperand s.arg0 with
  | none => exact .complete I.values I.attempts _
  | some m =>
    have hlen : (txBytes s m.toNat).length ≤ 255 := by
      have := m.isLt
      simp only [txBytes, Memory.readBytes, List.length_map, List.length_range]
      omega
    refine ⟨I.values, I.attempts, .inr (.call (by rw [hk]; rfl) (fun h => ?_) ⟨hlen, fun h => by cases h⟩ ?_)⟩
    · rw [hk] at h; cases h
    · rw [State.afterReturn, hk]
      exact (show 262 < 1055 by omega)

theorem GoesOn.frameRxStart (I : Inv s) (hk : runningKind s = .receive) : GoesOn 1055 (frameRxStart s) := by
  refine ⟨I.values, I.attempts, .inr (.call (by rw [hk]; rfl) (fun h => ?_) ⟨Nat.zero_le _, fun h => by cases h⟩ ?_)⟩
  · rw [hk] at h; cases h
  · rw [State.afterReturn, hk]
    exact (show 262 < 1055 by omega)

theorem GoesOn.frameRxRet {n : Nat} (I : Inv s) (r : Reply) : GoesOn n (frameRxRet r s) := by
  cases r <;> exact ⟨I.values, I.attempts, .inl rfl⟩

theorem GoesOn.changeAddrStart (I : Inv s) (hk : runningKind s = .acknowledged) (a : Byte) :
    GoesOn 1055 (changeAddrStart a s) := by
  unfold Machine.changeAddrStart
  cases byteOperand s.arg0 with
  | none => exact .complete I.values I.attempts _
  | some m =>
    have hk' : runningKind (s.setAttempts 1) = .acknowledged := hk
    refine ⟨I.values, attemptsOk_setAttempts (a := 1) (by decide), .inr (.call (by rw [hk']; rfl) (fun h => ?_)
      ⟨show 2 ≤ 255 by omega, fun _ => ⟨.wireChangeAddress m, rfl⟩⟩ ?_)⟩
    · rw [hk'] at h; cases h
    · rw [State.afterReturn, hk']
      exact (show 262 < 1055 by omega)

/-- A broadcast with its payload. -/
theorem broadcast_goesOn {onBuild : State → State} {p : List Byte} {tag : Byte} (I : Inv s) (hb : s.status.busy = true)
    (hr : atRequest s = false) (hk : runningKind s = .broadcast)
    (hp : p.length ≤ 255 ∧ ∃ i, decode (.message p) = .ok i) :
    GoesOn (stepsLeft s) (atPoint (broadcastStart p) (broadcastEnter p) onBuild (broadcastRet tag p) s) :=
  atPoint_goesOn_plain I hb hr (by rw [hk]; exact CommandKind.noConfusion) (by rw [hk]; exact CommandKind.noConfusion)
    (GoesOn.broadcastEnter (s := { s with auxErr := .ok, auxSeg := 1 }) I.values hk hp 0 (show 262 + 528 < 1055 by omega))
    fun r => .broadcastRet I.values I.attempts hk hp tag r

/-- A negotiation, by its start and what follows a segment. -/
theorem negotiation_goesOn {onStart after : State → State} (I : Inv s) (hb : s.status.busy = true)
    (hr : atRequest s = false) (hk : runningKind s = .negotiation) (hstart : GoesOn 1055 (onStart s))
    (hafter : GoesOn (1 + s.afterReturn) (after s)) :
    GoesOn (stepsLeft s) (atPoint onStart negotiateEnter negotiateBuild (negotiateRet after) s) :=
  atPoint_goesOn I hb hr hstart (fun h => absurd (hk.symm.trans h) CommandKind.noConfusion)
    (fun _ => .negotiateBuild I hk) (fun _ r _ => .negotiateRet I.values I.attempts r hafter)

/-- An update, by its start and what follows a parsed reply. -/
theorem update_goesOn {onStart after : State → State} (I : Inv s) (hb : s.status.busy = true)
    (hr : atRequest s = false) (hk : runningKind s = .update) (hstart : GoesOn 1055 (onStart s))
    (hafter : ∀ t : State, ∃ p, after t = t.goto .run p ∧ (p = .finish .ok ∨ (p = .enter 1 ∧ t.seg = 0))) :
    GoesOn (stepsLeft s) (atPoint onStart updateEnter updateBuild (updateRet after) s) :=
  atPoint_goesOn I hb hr hstart (fun _ g => .updateEnter I.values I.attempts hk g (by omega))
    (fun h => .updateBuild I hk (h.elim (fun h => absurd (hk.symm.trans h) CommandKind.noConfusion) And.right))
    (fun hf _ hp => .updateRet I hb hk hf hp hafter)

/-- Every own step of a command carries it on or completes it. -/
theorem exec_goesOn {i : Instr} {t : State} (I : Inv s) (hb : s.status.busy = true) (hr : atRequest s = false)
    (hd : decode (.command s.cmd) = .ok i) (h : exec i s = .next t) : GoesOn (stepsLeft s) t := by
  have hc := isCommand_of_decode hd
  have hk : runningKind s = commandKind i := by unfold runningKind; rw [hd]
  by_cases hi : commandKind i = .single
  · obtain ⟨u, k, v, rfl, f, -⟩ := exec_single hi hc h
    obtain ⟨m, c, e⟩ := f.eq
    rw [e]
    exact ⟨I.values, I.attempts, .inl rfl⟩
  have plain {k : CommandKind} (h : commandKind i ≠ k) : runningKind s ≠ k := fun h' => h (hk.symm.trans h')
  cases i
  case nop | bsClear | bsWrite | bsRead | bsNeeded => exact absurd rfl hi
  case wireChangeAddress | wireSetSensorType | wireReadValues | wireEmergencyStop | wireSetTimeout => cases hc
  all_goals obtain rfl := next_eq_next_iff.1 h
  case frameTx a =>
    exact atPoint_goesOn_plain I hb hr (plain nofun) (plain nofun) (.frameTxStart I hk a)
      fun r => .complete I.values I.attempts _
  case frameRx =>
    exact atPoint_goesOn_plain I hb hr (plain nofun) (plain nofun) (.frameRxStart I hk)
      fun r => .frameRxRet I r
  case changeAddr a =>
    exact atPoint_goesOn_plain I hb hr (plain nofun) (plain nofun) (.changeAddrStart I hk a)
      fun r => .complete I.values I.attempts _
  case estop => exact broadcast_goesOn I hb hr hk ⟨show 1 ≤ 255 by omega, .wireEmergencyStop, rfl⟩
  case setTimeout =>
    exact broadcast_goesOn I hb hr hk ⟨show 5 ≤ 255 by omega, _, rfl⟩
  case negotiate =>
    exact negotiation_goesOn I hb hr hk (.negotiateEnter I.values I.attempts hk 0 (show 263 + 528 < 1055 by omega))
      (.negotiateAfter I.values I.attempts hk)
  case negotiateSeg a =>
    refine negotiation_goesOn I hb hr hk ?_ (.complete I.values I.attempts _)
    unfold negotiateSegStart
    cases segOperand a with
    | none => exact .complete I.values I.attempts _
    | some g => exact .negotiateEnter I.values I.attempts hk g (by have := segmentsLeft_le g; omega)
  case update =>
    refine update_goesOn I hb hr hk (.updateEnter I.values I.attempts hk 0 (show 526 + 528 < 1055 by omega)) fun t => ?_
    refine ⟨_, updateAfter_goto t, ?_⟩
    split_ifs with hg
    · exact .inr ⟨rfl, hg⟩
    · exact .inl rfl
  case updateSeg a =>
    refine update_goesOn I hb hr hk ?_ fun t => ⟨_, rfl, .inl rfl⟩
    unfold updateSegStart
    cases segOperand a with
    | none => exact .complete I.values I.attempts _
    | some g => exact .updateEnter I.values I.attempts hk g (by have := segmentsLeft_le g; omega)

end

end Sys2Proof.Machine
end

-- The invariant of the machine, and the completion of every command (70_reset_and_hazards.md R320).
section
namespace Sys2Proof.Machine

/-! ## The engine's turn -/

/-- RX_BUF is no own step's. -/
theorem OwnStep.memRx {w : Bool} {s t : State} (h : OwnStep w s t) (hw : s.mem.wf) {a : Nat} (ha : 0x900 ≤ a) :
    t.mem.read a = s.mem.read a := by
  cases h with
  | rest _ => rfl
  | goOn f _ => exact f.memRx hw a ha
  | complete k f => exact f.memRx hw a ha
  | completeResult k v _ f => exact f.memRx hw a ha

/-- An own step of a running engine that leaves it idle sets DONE. -/
theorem OwnStep.done {w : Bool} {s t : State} (h : OwnStep w s t) (hs : s.fsm ≠ .idle) (ht : t.fsm = .idle) :
    t.status.done = true := by
  cases h with
  | rest hf => exact absurd hf hs
  | goOn _ hf => exact Fsm.noConfusion (hf.symm.trans ht)
  | complete _ _ => rfl
  | completeResult _ _ _ _ => rfl

/-- The length byte goes to RXLEN and to its register together (41_frame.md R172). -/
theorem linkStep_rxlen {x : Xfer} {s : State} (hr : atRequest s = true) (h : s.status.rxlen = s.rxLen) :
    (linkStep x s).status.rxlen = (linkStep x s).rxLen := by
  have reply {u : State} (hu : u.status.rxlen = u.rxLen) : (checkReply u).status.rxlen = (checkReply u).rxLen := by
    rw [checkReply_eq]; exact hu
  refine linkStep_cases (fun t => t.status.rxlen = t.rxLen) hr (fun e _ => ?opened) (fun _ _ _ => h)
    (fun _ _ _ _ => h) (fun _ _ _ => h) (fun _ _ _ => h) (fun _ => h) (fun _ _ _ => h) (fun e b _ => ?length)
    (fun e b _ => ?payload)
  case opened =>
    by_cases ht : x.kind = .transmit
    · rw [linkOpen_transmit ht]; exact h
    · rw [linkOpen_receiving ht]; exact h
  case length =>
    dsimp only [takeLength]
    split_ifs
    · exact reply rfl
    · rfl
  case payload =>
    dsimp only [takePayload]
    split_ifs
    · exact h
    · exact reply h

section
variable {s t : State}

theorem fsm_ne_idle (I : Inv s) (hb : s.status.busy = true) : s.fsm ≠ .idle :=
  fun hf => Bool.false_ne_true ((I.status.2.1.1 hf).symm.trans hb)

/-- The engine's turn carries a running command on or completes it. -/
theorem engineStep_goesOn (I : Inv s) (hb : s.status.busy = true) (h : engineStep s = .next t) :
    GoesOn (stepsLeft s) t := by
  cases hr : atRequest s with
  | true =>
    obtain rfl := next_eq_next_iff.1 ((engineStep_request hb (I.point hb) hr).symm.trans h)
    have f := linkStep_frame s.xfer s
    obtain ⟨n, hst⟩ := f.status
    refine ⟨fun p => by rw [port_congr f.ports]; exact I.values p, ⟨by rw [f.attempt]; exact I.attempts.1, ?_⟩,
      .inr (.request (I.point hb) (I.config hb) (I.message hb hr) hr)⟩
    rw [hst]
    exact I.attempts.2
  | false =>
    have hfetch := fetch_of_not_atRequest hr
    cases hd : decode (.command s.cmd) with
    | error e =>
      rw [hd] at hfetch
      obtain rfl := next_eq_next_iff.1 ((engineStep_illegal hb hfetch).symm.trans h)
      exact .complete I.values I.attempts _
    | ok i =>
      rw [hd] at hfetch
      rw [engineStep_fetched hb hfetch] at h
      exact exec_goesOn I hb hr hd h

theorem rxTail_engineStep (I : Inv s) (h : engineStep s = .next t) : t.rx 255 = 0 := by
  rcases engineStep_cases h with ⟨-, rfl⟩ | ⟨hb, -⟩
  · exact I.rxTail
  cases hr : atRequest s with
  | true =>
    obtain rfl := next_eq_next_iff.1 ((engineStep_request hb (I.point hb) hr).symm.trans h)
    exact linkStep_rxTail (I.point hb) hr I.memory.1 I.rxTail
  | false =>
    have keep {w : Bool} (hown : OwnStep w s t) : t.rx 255 = 0 :=
      (hown.memRx I.memory.1 (show 0x900 ≤ rxBase + 255 by unfold rxBase; omega)).trans I.rxTail
    cases hf : fetch s with
    | none =>
      obtain rfl := next_eq_next_iff.1 ((engineStep_illegal hb hf).symm.trans h)
      exact I.rxTail
    | some i =>
      rw [engineStep_fetched hb hf] at h
      exact keep (exec_own hr h)

theorem rxlen_engineStep (I : Inv s) (h : engineStep s = .next t) : t.status.rxlen = t.rxLen := by
  rcases engineStep_cases h with ⟨-, rfl⟩ | ⟨hb, -⟩
  · exact I.rxlen
  cases hr : atRequest s with
  | true =>
    obtain rfl := next_eq_next_iff.1 ((engineStep_request hb (I.point hb) hr).symm.trans h)
    exact linkStep_rxlen hr I.rxlen
  | false =>
    cases hf : fetch s with
    | none =>
      obtain rfl := next_eq_next_iff.1 ((engineStep_illegal hb hf).symm.trans h)
      exact I.rxlen
    | some i =>
      rw [engineStep_fetched hb hf] at h
      obtain ⟨-, -, -, -, hlen, hstatus, -⟩ := (exec_own hr h).frame
      rw [hlen, hstatus]
      exact I.rxlen

/-- What the engine's turn keeps of the surroundings. -/
theorem engineStep_surroundings (h : engineStep s = .next t) :
    t.env.turns = s.env.turns ∧ t.env.unpolled = s.env.unpolled := by
  rcases engineStep_cases h with ⟨-, rfl⟩ | ⟨-, ⟨w, hown⟩ | ⟨f, -⟩⟩
  · exact ⟨rfl, rfl⟩
  · obtain ⟨-, -, -, henv, -⟩ := hown.frame
    exact ⟨by rw [henv], by rw [henv]⟩
  · exact ⟨f.turns, f.unpolled⟩

theorem inv_engineStep (I : Inv s) (h : engineStep s = .next t) : Inv t := by
  cases hb : s.status.busy with
  | false =>
    obtain rfl := next_eq_next_iff.1 ((engineStep_idle hb).symm.trans h)
    exact I
  | true =>
    have hgo := engineStep_goesOn I hb h
    have hstatus := statusOk_engineStep I.status h
    have onward (ht : t.status.busy = true) : Onward (stepsLeft s) t :=
      hgo.next.resolve_left fun hf => Bool.false_ne_true ((hstatus.2.1.1 hf).symm.trans ht)
    exact
      { memory := memoryOk_engineStep I.memory h
        status := hstatus
        point := fun ht => (onward ht).point
        values := hgo.values
        attempts := hgo.attempts
        rxlen := rxlen_engineStep I h
        rxTail := rxTail_engineStep I h
        config := fun ht => (onward ht).config
        message := fun ht hr => (onward ht).message hr
        poll := fun _ => (engineStep_surroundings h).2.trans (I.poll hb) }

/-! ## The turns of the other agents -/

/-- Without a running command the invariant is about memory, registers and STATUS alone. -/
theorem Inv.of_not_busy (hb : s.status.busy = false) (hmem : memoryOk s) (hst : statusOk s)
    (hv : ∀ p, (s.port p).valuesOk) (ha : attemptsOk s) (hlen : s.status.rxlen = s.rxLen) (htail : s.rx 255 = 0) :
    Inv s :=
  have idle {P : Prop} (h : s.status.busy = true) : P := absurd (hb.symm.trans h) Bool.false_ne_true
  { memory := hmem, status := hst, point := idle, values := hv, attempts := ha, rxlen := hlen, rxTail := htail,
    config := idle, message := idle, poll := idle }

theorem Inv.setEnv (I : Inv s) (e : Env) (hparams : e.params = s.env.params)
    (hpoll : s.status.busy = true → e.unpolled = s.env.unpolled) : Inv (s.setEnv e) where
  memory := I.memory
  status := I.status
  point := I.point
  values := I.values
  attempts := I.attempts
  rxlen := I.rxlen
  rxTail := I.rxTail
  config hb hk h := by
    rw [devCountsOk_of_ports (s := s) (t := s.setEnv e) rfl hparams]
    exact I.config hb hk h
  message := I.message
  poll hb := (hpoll hb).trans (I.poll hb)

/-- Starting a command establishes what the invariant says of a running one (60_exceptions.md R280). -/
theorem Inv.startCommand (I : Inv s) (v : Word) : Inv (startCommand v s) where
  memory := I.memory
  status := statusOk_startCommand v s
  point _ := trivial
  values := I.values
  attempts := I.attempts
  rxlen := I.rxlen
  rxTail := I.rxTail
  config _ _ h := h.elim (fun h => absurd h Bool.false_ne_true) fun ⟨_, _, h⟩ => Point.noConfusion h
  message _ h := absurd h Bool.false_ne_true
  poll _ := rfl

/-- VERR is not the invariant's. -/
theorem Inv.setVerr (I : Inv s) (b : Bool) : Inv (s.setStatus { s.status with verr := b }) :=
  ⟨I.memory, I.status, I.point, I.values, I.attempts, I.rxlen, I.rxTail, I.config, I.message, I.poll⟩

theorem valuesOk_setPort {p : PortIx} {x : Port} (hv : ∀ q, (s.port q).valuesOk) (hx : x.valuesOk) (q : PortIx) :
    ((s.setPort p x).port q).valuesOk := by
  rw [State.port_setPort]
  split_ifs
  · exact hx
  · exact hv q

theorem rx_writeWord {m : Memory} {a : Nat} (hw : m.wf) (v : Word) (ha : a + 4 ≤ 0x900) :
    (m.writeWord a v).read (rxBase + 255) = m.read (rxBase + 255) := by
  rw [read_writeWord hw, if_neg (by unfold rxBase; omega)]

/-- An accepted write to an idle engine other than to CMD and STATUS. -/
theorem Inv.storeReg (I : Inv s) (hb : s.status.busy = false) {r : Reg} {v : Word} (hr : writeAccepted r v = true) :
    Inv (storeReg s v r) := by
  have port {p : PortIx} {x : Port} (hx : x.valuesOk) : Inv (s.setPort p x) :=
    .of_not_busy hb I.memory I.status (valuesOk_setPort I.values hx) I.attempts I.rxlen I.rxTail
  have hmem := memoryOk_writeReg r v I.memory
  rw [writeReg, if_pos hr] at hmem
  cases r
  case cmd => exact I.startCommand v
  case status => exact I.setVerr _
  case arg0 | cursor => exact .of_not_busy hb I.memory I.status I.values I.attempts I.rxlen I.rxTail
  case motorSpeed p =>
    obtain ⟨-, hoff, henc, hraw⟩ := I.values p
    exact port ⟨of_decide_eq_true hr, hoff, henc, hraw⟩
  case encOffset p =>
    obtain ⟨hspeed, -, henc, hraw⟩ := I.values p
    exact port ⟨hspeed, of_decide_eq_true hr, henc, hraw⟩
  case motorEn p | sensorType p | i2cCfg p | i2cDev p d => exact port (I.values p)
  case i2cOut p d j =>
    exact .of_not_busy hb hmem I.status I.values I.attempts I.rxlen
      ((rx_writeWord I.memory.1 v (by unfold i2cOutAddr; omega)).trans I.rxTail)
  case txBuf j =>
    exact .of_not_busy hb hmem I.status I.values I.attempts I.rxlen
      ((rx_writeWord I.memory.1 v (by unfold txBase; omega)).trans I.rxTail)
  all_goals exact I

theorem Inv.writeReg (I : Inv s) {r : Reg} {v : Word} (h : mustPoll s = true → r = .status) : Inv (writeReg r v s) := by
  unfold Machine.writeReg
  split_ifs with hr
  · cases hm : mustPoll s with
    | true => obtain rfl := h hm; exact I.setVerr _
    | false => exact I.storeReg (mustPoll_eq_false.1 hm).1 hr
  · exact I.setVerr true

/-- Settles O57: the engine's turn goes on as the invariant says, the host's writes are checked, reset is the base. -/
theorem everyStepKeepsTheInvariant : Obligations.EveryStepKeepsTheInvariant := fun _ _ =>
  step_keeps (fun _ e hparams hpoll I => I.setEnv e hparams hpoll)
    (fun _ => .of_not_busy rfl resetMeetsTheInvariant.memory resetMeetsTheInvariant.status resetMeetsTheInvariant.values
      resetMeetsTheInvariant.attempts rfl rfl)
    (fun _ _ _ h I => I.writeReg h) (fun _ _ => inv_engineStep)

/-! ## Completion -/

theorem stepsLeft_pos (hf : s.fsm ≠ .idle) : 0 < stepsLeft s := by
  cases hr : atRequest s with
  | true => rw [stepsLeft_request hr]; omega
  | false =>
    have hseg := segmentsLeft_le s.seg
    cases hp : s.pt with
    | isOpen | setTimeout => cases h : s.fsm <;> simp [atRequest, h, hp] at hr hf
    | start => rw [stepsLeft_start hr hp]; omega
    | enter g => rw [stepsLeft_enter hr hp]; omega
    | build =>
      rw [stepsLeft_build hr hp]
      by_cases hk : runningKind s = .update
      · simp only [State.afterBuild, State.afterReturn, afterReturn, hk, if_true]
        omega
      · rw [State.afterBuild, if_neg hk]; omega
    | ret r => rw [stepsLeft_ret hr hp]; omega
    | finish k => rw [stepsLeft_finish hr hp]; omega

theorem exec_next (i : Instr) (s : State) : ∃ t, exec i s = .next t := by cases i <;> exact ⟨_, rfl⟩

theorem engineStep_next (s : State) : ∃ t, engineStep s = .next t := by
  cases hb : s.status.busy with
  | false => exact ⟨s, engineStep_idle hb⟩
  | true =>
    cases hf : fetch s with
    | none => exact ⟨_, engineStep_illegal hb hf⟩
    | some i => rw [engineStep_fetched hb hf]; exact exec_next i s

/-- The engine that completes a command sets DONE. -/
theorem engineStep_done (I : Inv s) (hb : s.status.busy = true) (h : engineStep s = .next t) (ht : t.fsm = .idle) :
    t.status.done = true := by
  rcases engineStep_cases h with ⟨hb', -⟩ | ⟨-, ⟨w, hown⟩ | ⟨-, hf⟩⟩
  · exact absurd (hb'.symm.trans hb) Bool.false_ne_true
  · exact hown.done (fsm_ne_idle I hb) ht
  · exact absurd ht hf

/-- A command completes within the steps it has left. -/
theorem completes_within_stepsLeft {n : Nat} : ∀ {s : State}, Inv s → s.status.busy = true → s.env.turns = [] →
    stepsLeft s ≤ n →
    ∃ k, k ≤ n ∧ ∃ t, core.run k s = .next t ∧ t.status.busy = false ∧ t.status.done = true ∧ t.fsm = .idle := by
  induction n with
  | zero =>
    intro s I hb _ hn
    exact absurd (stepsLeft_pos (fsm_ne_idle I hb)) (by omega)
  | succ n ih =>
    intro s I hb ht hn
    obtain ⟨t, h⟩ := engineStep_next s
    have hstep : step s = .next t := by simp only [step, ht]; exact h
    have It := inv_engineStep I h
    rcases (engineStep_goesOn I hb h).next with hidle | onward
    · exact ⟨1, by omega, t, run_succ_next hstep, It.status.2.1.1 hidle, engineStep_done I hb h hidle, hidle⟩
    · have hbt : t.status.busy = true := by
        by_contra hn
        have hidle := It.status.2.1.2 (Bool.eq_false_iff.2 hn)
        have hpoint := onward.point
        simp only [pointOk, hidle] at hpoint
      obtain ⟨k, hk, u, hrun, hdone⟩ := ih It hbt ((engineStep_surroundings h).1.trans ht)
        (by have := onward.steps; omega)
      exact ⟨k + 1, by omega, u, (run_succ_next hstep).trans hrun, hdone⟩

/-- Settles O59: the steps left bound the run, and a running command has at most 1055 of them. -/
theorem everyCommandCompletes : Obligations.EveryCommandCompletes := by
  intro s I hb ht
  have hrun : atRequest s = true ∨ s.fsm = .run := by
    have hf := fsm_ne_idle I hb
    cases h : s.fsm with
    | idle => exact absurd h hf
    | run => exact .inr rfl
    | opening | send | rxChk | rxLen | rxPay => exact .inl (by simp only [atRequest, h])
  exact completes_within_stepsLeft I hb ht (stepsLeft_le (I.config hb) hrun)

end

end Sys2Proof.Machine
end

-- The exchange state machine and the frame commands, whole runs (41_frame.md sections 1 and 2).
section
namespace Sys2Proof.Machine

/-! ## The exchange of each message (41_frame.md R176) -/

theorem rxChecksum_readBytes_iff (n c : Byte) (m : Memory) : rxChecksum n (m.readBytes rxBase n.toNat) = c ↔
    (n.toNat + ((List.range n.toNat).map (fun k => (m.read (0x900 + k)).toNat)).sum) % 256 = c.toNat := by
  rw [rxChecksum_eq_iff, sum_readBytes]; rfl

/-- Settles O23: at each request a message does that row of the exchange with its payload. -/
theorem wireMessagesFollowTheExchangeStateMachine : Obligations.WireMessagesFollowTheExchangeStateMachine := by
  intro i p s henc hw back sum frame
  generalize hx : ({ s.xfer with kind := .exchange, payload := p } : Xfer) = x
  have hkind : x.kind = .exchange := by rw [← hx]
  have hne : x.kind ≠ .transmit := by rw [hkind]; decide
  have hframe : frameOf x s = frame := by rw [← hx]; rfl
  have request {t : State} (hr : atRequest s = true) (h : linkStep x s = t) : exec i s = .next t := by
    rw [exec_message henc, messageStep_request hr, hx, h]
  have atRun (hf : s.fsm = .run) (hp : s.pt = .isOpen ∨ s.pt = .setTimeout) : atRequest s = true :=
    atRequest_eq_true ⟨by rw [hf]; exact Fsm.noConfusion, fun _ => hp⟩
  have beyond {f : Fsm} (hf : s.fsm = f) (h : f ≠ .idle) (h' : f ≠ .run) : atRequest s = true :=
    atRequest_eq_true ⟨by rw [hf]; exact h, fun k => absurd (hf.symm.trans k) h'⟩
  refine ⟨fun hf hp => ?isOpen, fun hf => ?opening, fun hf hp => ?timeout, fun hf ha => ?notWritten, fun hf ha => ?written,
    fun hf ha => ?notRead, fun c hf ha => ?checksum, fun n hf ha hn => ?length, fun hf ha => ?empty,
    fun b hf ha => ⟨s.mem.write (0x900 + s.rxIdx.toNat) b, Memory.read_write hw _ _, fun h => ?more, fun h => ?last⟩⟩
  case isOpen =>
    cases ha : s.env.askIsOpen.1
    · exact request (atRun hf (.inl hp)) (linkStep_isOpen_false hf hp ha)
    · exact request (atRun hf (.inl hp)) ((linkStep_isOpen_true hf hp ha).trans (linkOpen_receiving hne))
  case opening =>
    cases ha : s.env.askOpen.1
    · exact request (beyond hf nofun nofun) (linkStep_opening_false hf ha)
    · exact request (beyond hf nofun nofun) ((linkStep_opening_true hf ha).trans (linkOpen_receiving hne))
  case timeout =>
    refine request (atRun hf (.inr hp)) ((linkStep_setTimeout_send hf hp (by rw [hkind]; decide)).trans ?_)
    rw [State.goto, ← hp, ← hx]; rfl
  case notWritten => exact hframe ▸ request (beyond hf nofun nofun) (linkStep_send_fail hf (by rw [hframe]; exact ha))
  case written =>
    refine ⟨s.mem.clear rxBase 256, hframe ▸ request (beyond hf nofun nofun)
      (linkStep_send_receive hf hne (by rw [hframe]; exact ha)), fun a => ?_⟩
    rw [Memory.read_clear]; rfl
  case notRead =>
    exact request (atRequest_eq_true ⟨fun h => by simp [h] at hf, fun h => by simp [h] at hf⟩) (linkStep_read_fail hf ha)
  case checksum => exact request (beyond hf nofun nofun) (linkStep_rxChk hf ha)
  case length =>
    exact request (beyond hf nofun nofun)
      ((linkStep_rxLen hf ha).trans (takeLength_pos (fun h => by rw [h] at hn; exact Nat.lt_irrefl 0 hn) _))
  case empty => exact request (beyond hf nofun nofun) ((linkStep_rxLen hf ha).trans (takeLength_zero _))
  case more => exact request (beyond hf nofun nofun) ((linkStep_rxPay hf ha).trans (takePayload_more b h))
  case last =>
    refine request (beyond hf nofun nofun) ((linkStep_rxPay hf ha).trans ((takePayload_last (s := s.setEnv s.env.askRead.2) b h).trans ?_))
    exact congrArg (fun r => { s with
      mem := s.mem.write (0x900 + s.rxIdx.toNat) b, rxIdx := s.rxIdx + 1, fsm := .run, pt := .ret r,
      env := s.env.askRead.2 }) (ite_congr_reply (rxChecksum_readBytes_iff ..) .ok .checksum)

/-! ## Receives -/

/-- A command that uses the transport is linked through its exchanges. -/
theorem Running.linked {i : Instr} {s : State} (h : Running i s) (hi : commandKind i ≠ .single) : Linked s :=
  linked_command h.2.2 h.1 h.2.1 hi fun _ => encode_of_decode_message

/-- Settles O21: the whole reply, received into a cleared RX_BUF. -/
theorem exchangeReceivesAReply : Obligations.ExchangeReceivesAReply := by
  intro s i c n p rest hb ht hf hidx hk hd hw hz hp ha
  have hl := linked_message ht hb hk hd (encode_of_decode_message hd)
  have hlen : p.length < 256 := by rw [hp]; exact n.isLt
  exact ⟨_, run_reply hl hw hf hidx hp ha, rfl, rfl, rfl, rfl, read_received hw p hlen hz, rfl, rfl, rfl, rfl⟩

/-- Settles O22: the reply breaks off after its header and the bytes `q`. -/
theorem failedReceiveKeepsTheBytesReceived : Obligations.FailedReceiveKeepsTheBytesReceived := by
  intro s i c n q bad rest hb ht hf hidx hproc hw hz hq hbad ha
  have hl : Linked s := by
    rcases hproc with ⟨hk, hd⟩ | ⟨-, hd⟩
    · exact linked_message ht hb hk hd (encode_of_decode_message hd)
    · exact Running.linked ⟨hb, hd, ht⟩ (by decide)
  have hgot : ∀ c' n' q', c :: n :: q = c' :: n' :: q' → q'.length < n'.toNat := by
    rintro _ _ _ ⟨⟩; exact hq
  have hlen : q.length < 256 := Nat.lt_trans hq n.isLt
  refine ⟨cutOff (c :: n :: q) bad rest s, ?_, rfl, rfl, rfl, read_received hw q hlen hz, rfl, rfl⟩
  rw [show 3 + q.length = 1 + (c :: n :: q).length by simp only [List.length_cons]; omega]
  exact run_cutOff hl hf hidx hbad hgot ha

/-! ## Whole runs of a command -/

/-- A command of one transport procedure: its start, the procedure, its return. -/
theorem run_command {i : Instr} {s u v t : State} {r : Reply} {k : Nat} (hs : Started i s) (hstart : exec i s = .next u)
    (hrun : core.run k u = .next v) (hv : Running i v) (hf : v.fsm = .run) (hp : v.pt = .ret r)
    (hret : exec i v = .next t) : core.run (k + 2) s = .next t := by
  rw [run_succ_next ((step_started hs).trans hstart), run_add hrun,
    run_succ_next ((step_at_return hv hf hp).trans hret), run_zero]

/-- Settles O18: the start, one or two requests before the write, the write, the return. -/
theorem frameTxWritesTheFrame : Obligations.FrameTxWritesTheFrame := by
  intro s a hs n p x sum frame
  have hR := running_of_started hs
  have ⟨_, _, hf, hp, _⟩ := hs
  have hL : Linked (callTransport x s) := Running.linked (i := .frameTx a) hR nofun
  have hstart (hn : n ≤ 255) : exec (.frameTx a) s = .next (callTransport x s) :=
    (exec_frameTx_start hf hp a).trans (congrArg Host.Outcome.next (frameTxStart_some a hn))
  have hframe : frameOf x s = frame := by
    unfold frameOf frameEncode txChecksum byteSum
    simp only [x, p, List.length_map, List.length_range]; rfl
  have ends {v : State} {ok : Bool} (hv : v.pt = .ret (if ok then .ok else .comm)) (hfv : v.fsm = .run) :
      exec (.frameTx a) v = .next (doneState (if ok then .ok else .comm) v) := by
    rw [exec_frameTx_ret hfv hv]
    cases ok <;> rfl
  refine ⟨fun hn => ?tooLong, fun ok is ws hn hi hw => ?opened, fun ok is os ws hn hi ho hw => ?closed,
    fun is os hn hi ho => ?failed⟩
  case tooLong =>
    rw [run_succ_next ((step_started hs).trans ((exec_frameTx_start hf hp a).trans
      (congrArg Host.Outcome.next (frameTxStart_none a hn)))), run_zero]
  case opened =>
    obtain ⟨h1, f1⟩ := step_link_open_transmit hL rfl rfl rfl hi
    obtain ⟨h2, f2⟩ := step_written_transmit (hL.frame f1) rfl rfl hw
    rw [run_command hs (hstart hn) (k := 2) ((run_succ_next h1).trans (run_succ_next h2)) hR rfl rfl (ends rfl rfl),
      ← hframe]
    rfl
  case closed =>
    obtain ⟨h1, f1⟩ := step_link_closed hL rfl rfl hi
    obtain ⟨h2, f2⟩ := step_opened_transmit (hL.frame f1) rfl rfl ho
    obtain ⟨h3, f3⟩ := step_written_transmit ((hL.frame f1).frame f2) rfl rfl hw
    rw [run_command hs (hstart hn) (k := 3) ((run_succ_next h1).trans ((run_succ_next h2).trans (run_succ_next h3))) hR rfl
      rfl (ends rfl rfl), ← hframe]
    rfl
  case failed =>
    obtain ⟨h1, f1⟩ := step_link_closed hL rfl rfl hi
    obtain ⟨h2, f2⟩ := step_open_failed (hL.frame f1) rfl ho
    rw [run_command hs (hstart hn) (k := 2) ((run_succ_next h1).trans (run_succ_next h2)) hR rfl rfl
      (ends (ok := false) rfl rfl)]
    rfl

/-- Settles O20: the receive of FRAME_RX from an open, an opened and a closed link, whole or broken off. -/
theorem frameRxReceivesAReply : Obligations.FrameRxReceivesAReply := by
  intro s link is os hs hw hi x asked opening rxHolds same surroundings
  have hR := running_of_started hs
  have ⟨_, _, hf, hp, _⟩ := hs
  have hL : Linked (callTransport x s) := Running.linked (i := .frameRx) hR (by decide)
  have hstart : exec .frameRx s = .next (callTransport x s) := exec_frameRx_start hf hp
  refine ⟨fun ho => ?_, fun hlink ho => ?_⟩
  · obtain ⟨h1, f1⟩ := run_listening hL rfl rfl rfl hi ho
    generalize hu : listening link is os (callTransport x s) = u at h1 f1
    have hreads : u.env.readAnswers = s.env.readAnswers := by rw [← hu]; rfl
    have hmem : u.mem = s.mem.clear rxBase 256 := by rw [← hu]; rfl
    have hRu : Running .frameRx u := by rw [← hu]; exact hR
    have hfu : u.fsm = .rxChk := by rw [← hu]; rfl
    have hidx : u.rxIdx = 0 := by rw [← hu]; rfl
    have henv (reads rest : List ReadAnswer) : readNotes reads u.env rest = surroundings reads rest := by
      simp only [readNotes, surroundings, ← hu, listening, List.append_assoc]; rfl
    have hsame {t : State} (hports : t.ports = u.ports) (hcur : t.cursor = u.cursor) (harg : t.arg0 = u.arg0)
        (hcmd : t.cmd = u.cmd) (hseg : t.seg = u.seg) (hatt : t.attempt = u.attempt) (hidle : t.fsm = .idle) : same t :=
      ⟨hports.trans f1.ports, hcur.trans f1.cursor, harg.trans f1.arg0, hcmd.trans f1.cmd, hseg.trans f1.seg,
        hatt.trans f1.attempt, hidle⟩
    constructor
    · intro c n p rest hlen ha good
      have h2 := run_reply (hL.frame f1) (f1.memWf hw) hfu hidx hlen (hreads.trans ha)
      have hholds (a : Nat) : ((s.mem.clear rxBase 256).writeBytes rxBase p).read a = _ :=
        read_cleared_received hw p (by rw [hlen]; exact n.isLt) a
      have hrun : core.run (2 + (if link then 0 else 1) + (2 + n.toNat)) (callTransport x s) = .next (received c n p rest u) :=
        (run_add h1).trans h2
      have hcount : 6 + opening + n.toNat = 2 + (if link then 0 else 1) + (2 + n.toNat) + 2 := by
        simp only [opening]; omega
      rw [hcount]
      by_cases hgood : c.toNat = (n.toNat + (p.map BitVec.toNat).sum) % 256
      · have hg : good = true := decide_eq_true hgood
        have hret := exec_frameRx_ret (s := received c n p rest u) (r := .ok) rfl (by simp only [received, if_pos hgood])
        refine ⟨_, run_command hs hstart hrun hRu rfl rfl hret, ?_, ?_, ?_, hsame rfl rfl rfl rfl rfl rfl rfl, henv _ _⟩
        · rw [hg, ← hu]; rfl
        · rw [hg]; rfl
        · exact fun a => (congrArg (fun m => (Memory.writeBytes m rxBase p).read a) hmem).trans (hholds a)
      · have hg : good = false := decide_eq_false hgood
        have hret := exec_frameRx_ret (s := received c n p rest u) (r := .checksum) rfl
          (by simp only [received, if_neg hgood])
        refine ⟨_, run_command hs hstart hrun hRu rfl rfl hret, ?_, ?_, ?_, hsame rfl rfl rfl rfl rfl rfl rfl, henv _ _⟩
        · rw [hg, ← hu]; rfl
        · rw [hg]; exact f1.result
        · exact fun a => (congrArg (fun m => (Memory.writeBytes m rxBase p).read a) hmem).trans (hholds a)
    · intro got bad rest hbad hgot ha
      have h2 := run_cutOff (hL.frame f1) hfu hidx hbad hgot (hreads.trans ha)
      have hrun : core.run (2 + (if link then 0 else 1) + (1 + got.length)) (callTransport x s) =
          .next (cutOff got bad rest u) := (run_add h1).trans h2
      have hcount : 5 + opening + got.length = 2 + (if link then 0 else 1) + (1 + got.length) + 2 := by
        simp only [opening]; omega
      have hlen : (got.drop 2).length < 256 := by
        match got, hgot with
        | [], _ | [_], _ => exact Nat.zero_lt_succ _
        | _ :: n :: q, hgot => exact Nat.lt_trans (hgot _ _ _ rfl) n.isLt
      have hret := exec_frameRx_ret (s := cutOff got bad rest u) (r := .comm) rfl rfl
      rw [hcount]
      refine ⟨_, run_command hs hstart hrun hRu rfl rfl hret, ?_, f1.result, fun a => ?_,
        hsame rfl rfl rfl rfl rfl rfl rfl, henv _ _⟩
      · rw [← hu]; rfl
      · exact (congrArg (fun m => (Memory.writeBytes m rxBase (got.drop 2)).read a) hmem).trans
          (read_cleared_received hw _ hlen a)
  · rw [hlink] at hi
    obtain ⟨h1, f1⟩ := step_link_closed hL rfl rfl hi
    obtain ⟨h2, f2⟩ := step_open_failed (hL.frame f1) rfl ho
    have hret := exec_frameRx_ret (r := .comm)
      (s := { callTransport x s with
        pt := .ret .comm, env := askedOpen false os (askedIsOpen false is s.env) }) rfl rfl
    rw [run_command hs hstart (k := 2) ((run_succ_next h1).trans (run_succ_next h2)) hR rfl rfl hret]
    rfl

end Sys2Proof.Machine
end

-- Whole runs of the auxiliary, negotiation and update commands (42_negotiation.md section 2; 43_update.md; 44_aux_messages.md).
section
namespace Sys2Proof.Machine

/-! ## CHANGE_ADDR -/

theorem changeAddrStart_none {s : State} (a : Byte) (h : 255 < s.arg0.toNat) :
    changeAddrStart a s = doneState .validation s := by
  rw [changeAddrStart, byteOperand_none h]; rfl

theorem changeAddrStart_some {s : State} (a : Byte) (h : s.arg0.toNat ≤ 255) :
    changeAddrStart a s = auxCall a [1, BitVec.ofNat 8 s.arg0.toNat] s := by
  rw [changeAddrStart, byteOperand_some h]

/-- Settles O43: the operand decides at the start; the one exchange is acknowledged. -/
theorem changeAddrSendsTheNewAddress : Obligations.ChangeAddrSendsTheNewAddress := by
  refine ⟨fun s a hf hp => ⟨fun h => ?_, fun h => ?_⟩, fun s a is ws rest hs hm hn hi hw hr => ?_⟩
  · rw [exec_changeAddr_start hf hp, changeAddrStart_none a h]
  · rw [exec_changeAddr_start hf hp, changeAddrStart_some a h, auxCall, callTransport_of_run (s := s.setAttempts 1) _ hf]; rfl
  · have hR := running_of_started hs
    have ⟨_, _, hf, hp, _⟩ := hs
    have hstart := (exec_changeAddr_start hf hp a).trans (congrArg Host.Outcome.next (changeAddrStart_some a hn))
    have hrun := run_acked (tag := 1) (s := auxCall a [1, BitVec.ofNat 8 s.arg0.toNat] s)
      (Running.linked (i := .changeAddr a) hR nofun) hm rfl rfl rfl hi hw hr
    have hret := exec_changeAddr_ret (s := acked 1 is ws rest (auxCall a [1, BitVec.ofNat 8 s.arg0.toNat] s)) rfl rfl a
    rw [ackOutcome_acked (s := auxCall a [1, BitVec.ofNat 8 s.arg0.toNat] s) 1 is ws rest hm] at hret
    exact ⟨_, run_command hs hstart hrun hR rfl rfl hret, rfl, rfl, rfl⟩

/-! ## ESTOP and SET_TIMEOUT -/

/-- `i` is ESTOP or SET_TIMEOUT, with the tag and the payload of its message (44_aux_messages.md R251, R252). -/
def BroadcastOf (i : Instr) (tag : Byte) (p : List Byte) (s : State) : Prop :=
  (i = .estop ∧ tag = 4 ∧ p = estopPayload) ∨ (i = .setTimeout ∧ tag = 5 ∧ p = setTimeoutPayload s.arg0)

section
variable {i : Instr} {tag : Byte} {p : List Byte} {s : State}

theorem BroadcastOf.kind (h : BroadcastOf i tag p s) : commandKind i ≠ .single := by
  rcases h with ⟨rfl, -, -⟩ | ⟨rfl, -, -⟩ <;> exact nofun

theorem exec_broadcast_start (h : BroadcastOf i tag p s) (hf : s.fsm = .run) (hp : s.pt = .start) :
    exec i s = .next (broadcastStart p s) :=
  (exec_broadcast h).trans (congrArg Host.Outcome.next (atPoint_start _ _ _ _ hf hp))

theorem exec_broadcast_ret (h : BroadcastOf i tag p s) (hf : s.fsm = .run) {r : Reply} (hp : s.pt = .ret r) :
    exec i s = .next (broadcastRet tag p r s) :=
  (exec_broadcast h).trans (congrArg Host.Outcome.next (atPoint_ret _ _ _ _ hf hp))

theorem noteAuxErr_ok (s : State) : noteAuxErr .ok s = s := if_neg fun h => h.1 rfl

theorem noteAuxErr_first {k : ErrKind} (hk : k ≠ .ok) (hs : s.auxErr = .ok) :
    noteAuxErr k s = { s with auxErr := k, auxSeg := s.seg } := if_pos ⟨hk, hs⟩

/-- Segment 1 of a broadcast, acknowledged: six requests, the return and the completion. -/
theorem run_broadcast_last {is ws : List Bool} {rest : List ReadAnswer} (h : BroadcastOf i tag p s)
    (hR : Running i s) (hm : s.mem.wf) (hi : s.env.isOpenAnswers = true :: is) (hw : s.env.writeAnswers = true :: ws)
    (hr : s.env.readAnswers = ackAnswers tag ++ rest) :
    core.run 8 (broadcastEnter p 1 s) =
      .next (doneState s.auxErr ((acked tag is ws rest (broadcastEnter p 1 s)).setStatusSeg s.auxSeg)) := by
  have hrun := run_acked (tag := tag) (s := broadcastEnter p 1 s) (Running.linked (i := i) hR h.kind) hm rfl rfl rfl hi hw hr
  have hret := exec_broadcast_ret (i := i) (s := acked tag is ws rest (broadcastEnter p 1 s)) h rfl rfl
  rw [broadcastRet_last rfl, ackOutcome_acked (s := broadcastEnter p 1 s) tag is ws rest hm, noteAuxErr_ok] at hret
  have hend := exec_finish (i := i) (s := broadcastEnd (acked tag is ws rest (broadcastEnter p 1 s))) h.kind rfl rfl
  have hstep := (step_at_return (s := acked tag is ws rest (broadcastEnter p 1 s)) hR rfl rfl).trans hret
  have hlast := (step_at_finish (s := broadcastEnd (acked tag is ws rest (broadcastEnter p 1 s))) hR rfl rfl).trans hend
  exact (run_add hrun).trans ((run_succ_next hstep).trans ((run_succ_next hlast).trans (run_zero _)))

end

/-- Settles O45: segment 0's exchange, acknowledged or silent, then segment 1's and the completion. -/
theorem broadcastsCompleteOnEitherOutcome : Obligations.BroadcastsCompleteOnEitherOutcome := by
  intro s i tag is ws rest hi hs hm hopen hwrite
  obtain ⟨p, h⟩ : ∃ p, BroadcastOf i tag p s := by
    rcases hi with ⟨rfl, rfl⟩ | ⟨rfl, rfl⟩
    · exact ⟨_, .inl ⟨rfl, rfl, rfl⟩⟩
    · exact ⟨_, .inr ⟨rfl, rfl, rfl⟩⟩
  have hR := running_of_started hs
  have ⟨_, _, hf, hp, _⟩ := hs
  have hstart := (step_started hs).trans (exec_broadcast_start h hf hp)
  have hL : Linked (broadcastStart p s) := Running.linked (i := i) hR h.kind
  refine ⟨fun hr => ?_, fun hr => ?_⟩
  · rw [List.append_assoc] at hr
    have hrun := run_acked (tag := tag) (s := broadcastStart p s) hL hm rfl rfl rfl hopen hwrite hr
    generalize hv : acked tag (true :: is) (true :: ws) (ackAnswers tag ++ rest) (broadcastStart p s) = v at hrun
    have hack : ackOutcome tag .ok v = .ok := hv ▸ ackOutcome_acked tag _ _ _ hm
    have hwf : v.mem.wf := hv ▸ acked_wf tag _ _ _ hm
    have hret := exec_broadcast_ret (i := i) (tag := tag) (p := p) (s := v) (r := .ok) (by rw [← hv]; exact h)
      (by rw [← hv]; rfl) (by rw [← hv]; rfl)
    rw [broadcastRet_first (by rw [← hv]; rfl), hack, noteAuxErr_ok] at hret
    have hRv : Running i v := by rw [← hv]; exact hR
    have hlast := run_broadcast_last (i := i) (tag := tag) (p := p) (s := v) (is := is) (ws := ws) (rest := rest)
      (by rw [← hv]; exact h) hRv hwf (by rw [← hv]; rfl) (by rw [← hv]; rfl) (by rw [← hv]; rfl)
    have hstep := (step_at_return hRv (by rw [← hv]; rfl) (r := .ok) (by rw [← hv]; rfl)).trans hret
    have hend := (run_succ_next hstart).trans ((run_add hrun).trans ((run_succ_next hstep).trans hlast))
    refine ⟨_, hend, ?_, rfl, ?_⟩
    · rw [← hv]; rfl
    · rw [← hv]; rfl
  · have hrun := run_exchange_silent (s := broadcastStart p s) hL rfl rfl rfl hopen hwrite (.inl rfl) hr
    generalize hv : ({ sent (true :: is) (true :: ws) (broadcastStart p s) with
      fsm := .run, pt := .ret .comm,
      env := readNotes [.timeout] (sent (true :: is) (true :: ws) (broadcastStart p s)).env (ackAnswers tag ++ rest) } :
      State) = v at hrun
    have hnote := noteAuxErr_first (s := v) (k := .comm) nofun (by rw [← hv]; rfl)
    have hret := exec_broadcast_ret (i := i) (tag := tag) (p := p) (s := v) (r := .comm) (by rw [← hv]; exact h)
      (by rw [← hv]) (by rw [← hv])
    rw [broadcastRet_first (by rw [← hv]; rfl), show ackOutcome tag .comm v = .comm from rfl, hnote] at hret
    have hRv : Running i v := by rw [← hv]; exact hR
    have hlast := run_broadcast_last (i := i) (tag := tag) (p := p) (s := { v with auxErr := .comm, auxSeg := v.seg })
      (is := is) (ws := ws) (rest := rest) (by rw [← hv]; exact h) hRv (by rw [← hv]; exact Memory.clear_wf hm _ _)
      (by rw [← hv]; rfl) (by rw [← hv]; rfl) (by rw [← hv]; rfl)
    have hstep := (step_at_return hRv (by rw [← hv]) (r := .comm) (by rw [← hv])).trans hret
    have hend := (run_succ_next hstart).trans ((run_add hrun).trans ((run_succ_next hstep).trans hlast))
    refine ⟨_, hend, ?_, rfl, ?_, rfl⟩
    · rw [← hv]; rfl
    · rw [← hv]; rfl

/-! ## NEGOTIATE -/

/-- A frame begins with its address (30_encoding.md R120). -/
theorem head?_frameOf (x : Xfer) (s : State) : (frameOf x s).head? = some x.addr := rfl

/-- What a negotiation build that fits leaves for the exchange. -/
theorem negotiateBuild_calls {s : State} (hw : s.mem.wf) (hlen : (negotiationBits s.seg s).length ≤ 2016) :
    (negotiateBuild s).fsm = .run ∧ (negotiateBuild s).pt = .isOpen ∧ (negotiateBuild s).xfer.kind = .exchange ∧
      (negotiateBuild s).xfer.addr = segAddr s.seg ∧ (negotiateBuild s).seg = s.seg ∧
      (negotiateBuild s).status = { s.status with attempts := 1 } := by
  obtain ⟨u, m, c, x, hu, e, hk, ha, -⟩ := negotiateBuild_fits hw hlen
  have hue : u = { s.setAttempts 1 with ports := u.ports } := by rw [← hu]; exact clampSegment_eq _ _
  rw [e]
  exact ⟨rfl, rfl, hk, ha, (congrArg State.seg hue).trans rfl, (congrArg State.status hue).trans rfl⟩

/-- One segment of NEGOTIATE, from its build to the return of an acknowledged exchange. -/
theorem run_negotiation {s : State} {is ws : List Bool} {rest : List ReadAnswer} (hR : Running .negotiate s)
    (hw : s.mem.wf) (hf : s.fsm = .run) (hp : s.pt = .build) (hlen : (negotiationBits s.seg s).length ≤ 2016)
    (hi : s.env.isOpenAnswers = true :: is) (hwr : s.env.writeAnswers = true :: ws)
    (hr : s.env.readAnswers = ackAnswers 2 ++ rest) :
    core.run 7 s = .next (acked 2 is ws rest (negotiateBuild s)) ∧ Running .negotiate (negotiateBuild s) ∧
      (negotiateBuild s).mem.wf := by
  have f := OwnFrame.negotiateBuild s
  obtain ⟨hfu, hpu, hk, -, -, hst⟩ := negotiateBuild_calls hw hlen
  have hRu : Running .negotiate (negotiateBuild s) :=
    ⟨by rw [hst]; exact hR.1, by rw [f.cmd]; exact hR.2.1, by rw [f.env]; exact hR.2.2⟩
  have hstep := (step_at_build hR hf hp).trans (exec_negotiation_build (.inl rfl) hf hp)
  have hrun := run_acked (tag := 2) (hRu.linked nofun) (f.memWf hw) hfu hpu hk (by rw [f.env]; exact hi)
    (by rw [f.env]; exact hwr) (by rw [f.env]; exact hr)
  exact ⟨(run_succ_next hstep).trans hrun, hRu, f.memWf hw⟩

/-- Settles O31: segment 0's build and exchange, then segment 1's, whose request the first one leaves as it is. -/
theorem negotiateCompletesWhenBothSegmentsAcknowledge : Obligations.NegotiateCompletesWhenBothSegmentsAcknowledge := by
  intro s is ws rest hs hw hlen0 hlen1 hi hwr hr
  rw [List.append_assoc] at hr
  have hR := running_of_started hs
  have ⟨_, _, hf, hp, _⟩ := hs
  have hstart := (step_started hs).trans (exec_negotiate_start hf hp)
  obtain ⟨hrun0, hR0, hw0⟩ := run_negotiation (s := negotiateEnter 0 s) hR hw rfl rfl hlen0 hi hwr hr
  obtain ⟨-, -, -, haddr0, hseg0, hst0⟩ := negotiateBuild_calls (s := negotiateEnter 0 s) hw hlen0
  have f0 := OwnFrame.negotiateBuild (negotiateEnter 0 s)
  obtain ⟨-, hother, hout⟩ := NegotiationKeeps.build (s := negotiateEnter 0 s) hw
  generalize negotiateBuild (negotiateEnter 0 s) = u0 at hrun0 hR0 hw0 haddr0 hseg0 hst0 f0 hother hout
  generalize hv0 : acked 2 (true :: is) (true :: ws) (ackAnswers 2 ++ rest) u0 = v0 at hrun0
  have hRv0 : Running .negotiate v0 := by rw [← hv0]; exact hR0
  have hret0 := exec_negotiate_ret (s := v0) (r := .ok) (by rw [← hv0]; rfl) (by rw [← hv0]; rfl)
  have hack0 : ackOutcome 2 .ok v0 = .ok := by rw [← hv0]; exact ackOutcome_acked 2 _ _ _ hw0
  rw [negotiateRet_ok hack0, negotiateAfter, if_pos (by rw [← hv0]; exact hseg0)] at hret0
  have hstep0 := (step_at_return hRv0 (by rw [← hv0]; rfl) (r := .ok) (by rw [← hv0]; rfl)).trans hret0
  have hwv0 : v0.mem.wf := by rw [← hv0]; exact acked_wf 2 _ _ _ hw0
  have hports (q : PortIx) (hl : q ≠ lowPort 0) (hh : q ≠ highPort 0) : v0.port q = s.port q := by
    rw [← hv0]; exact hother q hl hh
  have hbits : negotiationBits 1 (negotiateEnter 1 v0) = negotiationBits 1 s := by
    refine negotiationBits_congr (hports _ (by decide) (by decide)) (hports _ (by decide) (by decide)) ?_ fun a ha ha' => ?_
    · rw [← hv0]
      change u0.env.params.sensorCode = s.env.params.sensorCode
      rw [f0.env]; rfl
    · rw [← hv0]
      change ((u0.mem.clear rxBase 256).writeBytes rxBase [2]).read a = _
      rw [read_cleared_received hw0 [2] (by decide), if_neg (by omega)]
      exact hout a (.inl (by omega))
  obtain ⟨hrun1, hR1, hw1⟩ := run_negotiation (s := negotiateEnter 1 v0) (is := is) (ws := ws) (rest := rest) hRv0 hwv0 rfl rfl
    (by change (negotiationBits 1 (negotiateEnter 1 v0)).length ≤ 2016; rw [hbits]; exact hlen1)
    (by rw [← hv0]; rfl) (by rw [← hv0]; rfl) (by rw [← hv0]; rfl)
  obtain ⟨-, -, -, haddr1, hseg1, hst1⟩ := negotiateBuild_calls (s := negotiateEnter 1 v0) hwv0
    (by change (negotiationBits 1 (negotiateEnter 1 v0)).length ≤ 2016; rw [hbits]; exact hlen1)
  have f1 := OwnFrame.negotiateBuild (negotiateEnter 1 v0)
  generalize negotiateBuild (negotiateEnter 1 v0) = u1 at hrun1 hR1 hw1 haddr1 hseg1 hst1 f1
  have hret1 := exec_negotiate_ret (s := acked 2 is ws rest u1) (r := .ok) rfl rfl
  rw [negotiateRet_ok (ackOutcome_acked 2 _ _ _ hw1), negotiateAfter,
    if_neg (by change u1.seg ≠ 0; rw [hseg1]; change (1 : SegIx) ≠ 0; decide)] at hret1
  have hstep1 := (step_at_return (i := .negotiate) (s := acked 2 is ws rest u1) hR1 rfl rfl).trans hret1
  have hend := (run_succ_next hstart).trans ((run_add hrun0).trans ((run_succ_next hstep0).trans
    ((run_add hrun1).trans ((run_succ_next hstep1).trans (run_zero _)))))
  refine ⟨_, frameOf u0.xfer u0, frameOf u1.xfer u1, hend, ?_, rfl, ?_, ?_, ?_⟩
  · change doneStatus .ok { u1.status with rxlen := 1 } = _
    rw [hst1, ← hv0]
    change doneStatus .ok { u0.status with rxlen := 1, seg := 1, attempts := 1 } = _
    rw [hst0]; rfl
  · rw [head?_frameOf, haddr0]; rfl
  · rw [head?_frameOf, haddr1]; rfl
  · change List.filter _ (.readByte _ :: .readByte _ :: .readByte _ :: .wrote (frameOf u1.xfer u1) true ::
      .setTimeout _ :: .isOpen true :: u1.env.history) = _
    rw [f1.env, ← hv0]
    change List.filter _ (.readByte _ :: .readByte _ :: .readByte _ :: .wrote (frameOf u1.xfer u1) true ::
      .setTimeout _ :: .isOpen true :: .readByte _ :: .readByte _ :: .readByte _ :: .wrote (frameOf u0.xfer u0) true ::
      .setTimeout _ :: .isOpen true :: u0.env.history) = _
    rw [f0.env]; rfl

/-! ## UPDATE_SEG -/

theorem exec_updateSeg_parsed {s : State} (a : Byte) (hv : ValidReply s) :
    exec (.updateSeg a) s = .next ((parseReply s.rxLen.toNat s.seg (clearOffsets s.seg s)).goto .run (.finish .ok)) := by
  obtain ⟨hf, hp, hn, h3, -⟩ := hv
  exact congrArg Host.Outcome.next
    ((atPoint_ret _ _ _ _ hf hp).trans (updateRet_valid ((isValuesReply_iff s).2 ⟨hn, h3⟩)))

/-- Settles O42: the start, the build, the exchange with a whole reply, the parse and the completion. -/
theorem updateSegCompletesOnAValidFirstReply : Obligations.UpdateSegCompletesOnAValidFirstReply := by
  intro s a g c n p is ws rest hs hw ha hd ho hlen hpn hp3 hc hi hwr hr
  have hR := running_of_started hs
  have ⟨_, _, hf, hp, _⟩ := hs
  have hstart := (step_started hs).trans ((exec_updateSeg_start hf hp a).trans
    (congrArg Host.Outcome.next (updateSegStart_some ha)))
  obtain ⟨m, c', x, e, hk, haddr, htms, -, fr, -⟩ := updateBuild_fits (s := updateEnter g s) hw hd ho hlen
  have hbuild := (step_at_build (i := .updateSeg a) (s := updateEnter g s) hR rfl rfl).trans
    (exec_update_build (.inr ⟨a, rfl⟩) rfl rfl)
  rw [e] at hbuild
  generalize hu : ({ (updateEnter g s).setAttempts ((updateEnter g s).attempt + 1) with
    mem := m, cursor := c', xfer := x, fsm := .run, pt := .isOpen } : State) = u at hbuild
  have hwu : u.mem.wf := by rw [← hu]; exact fr.memWf hw
  have hRu : Running (.updateSeg a) u := by rw [← hu]; exact hR
  have hrun := run_exchange (c := c) (n := n) (p := p) (is := is) (ws := ws) (rest := rest) (hRu.linked nofun) hwu
    (by rw [← hu]) (by rw [← hu]) (by rw [← hu]; exact hk) (by rw [← hu]; exact hi) (by rw [← hu]; exact hwr) hpn
    (by rw [← hu]; exact hr)
  have hnz : n ≠ 0 := by
    rintro rfl
    rw [List.length_eq_zero_iff.1 hpn] at hp3
    cases hp3
  have htag : (received c n p rest (sent is ws u)).mem.read 0x900 = 3 := by
    change ((u.mem.clear rxBase 256).writeBytes rxBase p).read 0x900 = 3
    rw [read_cleared_received hwu p (by rw [hpn]; exact n.isLt), if_pos (by omega), List.getD_eq_getElem?_getD, Nat.sub_self,
      ← List.head?_eq_getElem?, hp3]
    rfl
  generalize hv : received c n p rest (sent is ws u) = v at hrun htag
  have hRv : Running (.updateSeg a) v := by rw [← hv]; exact hRu
  have hvalid : ValidReply v := by
    refine ⟨by rw [← hv]; rfl, by rw [← hv]; simp only [received, if_pos hc], by rw [← hv]; exact hnz, htag, ?_⟩
    rw [← hv, ← hu]
    exact hd
  have hret := (step_at_return hRv hvalid.1 hvalid.2.1).trans (exec_updateSeg_parsed a hvalid)
  obtain ⟨-, -, hn0, -, hdv⟩ := hvalid
  obtain ⟨c'', ps, m', t, ht, et, -, -, hown, -⟩ := updateParse_spec hn0 hdv
  rw [ht] at hret
  have hRt : Running (.updateSeg a) (t.goto .run (.finish .ok)) := by rw [et]; exact hRv
  have hend := (step_at_finish hRt rfl rfl).trans (exec_finish (i := .updateSeg a) nofun rfl rfl)
  have hsegv : v.seg = g := by rw [← hv, ← hu]; rfl
  have hstv : v.status = { s.status with seg := g, attempts := 1, rxlen := n } := by rw [← hv, ← hu]; rfl
  have hfinal : core.run (9 + n.toNat) s = .next (complete .ok (t.goto .run (.finish .ok))) := by
    rw [show 9 + n.toNat = (((5 + n.toNat) + ((0 + 1) + 1)) + 1) + 1 by omega, run_succ_next hstart, run_succ_next hbuild,
      run_add hrun, run_succ_next hret, run_succ_next hend, run_zero]
  refine ⟨_, frameOf u.xfer u, hfinal, rfl, rfl, rfl, rfl, ?_, ?_, ?_, ?_, ?_, ?_, ?_⟩
  · change t.status.seg = g
    rw [et, hstv]
  · change t.status.attempts = 1
    rw [et, hstv]
  · change t.status.rxlen = n
    rw [et, hstv]
  · exact congrArg Port.encOffset (hown (lowPort g) (.inl (by rw [hsegv])))
  · exact congrArg Port.encOffset (hown (highPort g) (.inr (by rw [hsegv])))
  · rw [head?_frameOf, ← hu]
    exact congrArg some haddr
  · change t.env.history = _
    rw [et, ← hv]
    change ((replyAnswers c n p).map Event.readByte).reverse ++
      (.wrote (frameOf u.xfer u) true :: .setTimeout u.xfer.tms :: .isOpen true :: u.env.history) = _
    rw [List.append_assoc, ← hu]
    change _ ++ (_ :: Event.setTimeout x.tms :: _) = _
    rw [htms]
    rfl

end Sys2Proof.Machine
end

-- The host bus: the words reads return, the effect of writes, the two faults (10_state.md sections 2 to 5; 20_memory.md).
section
namespace Sys2Proof.Machine

/-! ## Words by their fields -/

theorem toNat_append_add {m n : Nat} (x : BitVec m) (y : BitVec n) : (x ++ y).toNat = x.toNat * 2 ^ n + y.toNat := by
  rw [BitVec.toNat_append, ← Nat.shiftLeft_add_eq_or_of_lt y.isLt, Nat.shiftLeft_eq]

theorem toNat_bit (b : Bool) : (bit b).toNat = b.toNat := by cases b <;> rfl

theorem toNat_eq_ite (b : Bool) : b.toNat = if b then 1 else 0 := by cases b <;> rfl

theorem toNat_code (k : ErrKind) : k.code.toNat = errNumber k := by cases k <;> rfl

/-- STATUS as a number (10_state.md R35). -/
theorem toNat_toWord (st : Status) : st.toWord.toNat =
    st.busy.toNat + 2 * st.done.toNat + 4 * st.verr.toNat + 8 * st.underrun.toNat + 16 * st.err.code.toNat +
      256 * st.seg.val + 512 * st.attempts.toNat + 65536 * st.rxlen.toNat := by
  have hseg : (BitVec.ofNat 1 st.seg.val).toNat = st.seg.val := by
    rw [BitVec.toNat_ofNat]; exact Nat.mod_eq_of_lt st.seg.isLt
  change BitVec.toNat (w := 8 + 8 + 5 + 2 + 1 + 4 + 1 + 1 + 1 + 1) (0#8 ++ st.rxlen ++ 0#5 ++ st.attempts ++
    BitVec.ofNat 1 st.seg.val ++ st.err.code ++ bit st.underrun ++ bit st.verr ++ bit st.done ++ bit st.busy) = _
  simp only [toNat_append_add, toNat_bit, hseg, BitVec.toNat_zero]
  omega

theorem getLsbD_of_toNat {w : Word} {i : Nat} {b : Bool} (h : w.toNat / 2 ^ i % 2 = b.toNat) : w.getLsbD i = b := by
  rw [BitVec.getLsbD, Nat.testBit_eq_decide_div_mod_eq, h]
  cases b <;> rfl

theorem extractLsb'_of_toNat {w : Word} {i n : Nat} {x : BitVec n} (h : w.toNat / 2 ^ i % 2 ^ n = x.toNat) :
    w.extractLsb' i n = x := by
  refine BitVec.eq_of_toNat_eq ?_
  rw [BitVec.extractLsb'_toNat, Nat.shiftRight_eq_div_pow, h]

theorem statusWord_toWord (st : Status) : statusWord st st.toWord := by
  have hw := toNat_toWord st
  have hbusy := st.busy.toNat_lt
  have hdone := st.done.toNat_lt
  have hverr := st.verr.toNat_lt
  have hunder := st.underrun.toNat_lt
  have herr := st.err.code.isLt
  have hseg := st.seg.isLt
  have hatt := st.attempts.isLt
  have hlen := st.rxlen.isLt
  refine ⟨getLsbD_of_toNat (by omega), getLsbD_of_toNat (by omega), getLsbD_of_toNat (by omega),
    getLsbD_of_toNat (by omega), ?_, ?_, extractLsb'_of_toNat (by omega), extractLsb'_of_toNat ?_,
    extractLsb'_of_toNat (by omega), extractLsb'_of_toNat ?_⟩
  · rw [extractLsb'_of_toNat (x := st.err.code) (by omega), toNat_code]
  · rw [BitVec.extractLsb'_toNat, Nat.shiftRight_eq_div_pow]
    omega
  · change _ = 0
    omega
  · change _ = 0
    omega

/-- Every register reads as the word its fields make. -/
theorem registerWord_readReg (s : State) (r : Reg) : registerWord s (readReg s r) r := by
  have wide {n : Nat} (x : BitVec n) (h : n ≤ 32) : (x.setWidth 32).toNat = x.toNat :=
    BitVec.toNat_setWidth_of_le h
  cases r with
  | cmd | arg0 | result | motorSpeed | encOffset | encoder | rawValue => rfl
  | status => exact statusWord_toWord s.status
  | cursor => exact wide _ (by omega)
  | motorEn p => exact (wide _ (by omega)).trans ((toNat_bit _).trans (toNat_eq_ite _))
  | sensorType p => exact wide _ (by omega)
  | color p i => exact wide _ (by omega)
  | i2cCfg p =>
    change BitVec.toNat (w := 16 + 8 + 8) (0#16 ++ (s.port p).devCount ++ (s.port p).i2cSpeed) = _
    simp only [toNat_append_add, BitVec.toNat_zero]
    omega
  | i2cDev p d =>
    generalize hx : (s.port p).dev[d.val] = x
    change BitVec.toNat (((s.port p).dev[d.val]).toWord) = _
    rw [hx]
    change BitVec.toNat (w := 8 + 4 + 4 + 6 + 1 + 1 + 8) (0#8 ++ x.rlen ++ x.wlen ++ 0#6 ++ bit x.same ++ bit x.mid ++ x.addr) = _
    simp only [toNat_append_add, toNat_bit, BitVec.toNat_zero, toNat_eq_ite]
    omega
  | i2cOut p d j => exact arrayWord_readWord s.mem (i2cOutAddr p d (4 * j.val))
  | i2cIn p d j => exact arrayWord_readWord s.mem (i2cInAddr p d (4 * j.val))
  | txBuf j => exact arrayWord_readWord s.mem (txBase + 4 * j.val)
  | rxBuf j => exact arrayWord_readWord s.mem (rxBase + 4 * j.val)

theorem readReg_setEnv (s : State) (e : Env) (r : Reg) : readReg (s.setEnv e) r = readReg s r := by cases r <;> rfl

/-! ## Reads -/

section
variable {s : State} {r : Reg} {v : Word} {ts : List Turn}

/-- A read by a host that need not poll. -/
theorem step_host_read (hm : mustPoll s = false) (ht : s.env.turns = .host (.read r.addr 4) :: ts) :
    step s = .next (s.setEnv { s.env with turns := ts, history := .hostRead r.addr (readReg s r) :: s.env.history }) := by
  have hfree : mustPoll (popTurn s) = false := hm
  rw [step_host ht, hostStep, hostRead_mapped, takeBusyDraw_free hfree, takePoll_free hfree, busValue_free hfree,
    popTurn_eq ht]
  exact congrArg (fun w => Host.Outcome.next (s.setEnv { s.env with
    turns := ts, history := .hostRead r.addr w :: s.env.history })) (readReg_setEnv s { s.env with turns := ts } r)

/-- A write by a host that need not poll. -/
theorem step_host_write (hm : mustPoll s = false) (ht : s.env.turns = .host (.write r.addr 4 v) :: ts) :
    step s = .next ((writeReg r v { s with env := { s.env with turns := ts } }).note
      (.hostWrite r.addr v (writeAccepted r v))) := by
  have hfree : mustPoll (popTurn s) = false := hm
  rw [step_host ht, hostStep, hostWrite_free hfree, popTurn_eq ht]

end

/-- Settles O51: the read returns `readReg`, whose fields are the register's, and records itself. -/
theorem hostReadsHaveNoSideEffect : Obligations.HostReadsHaveNoSideEffect :=
  ⟨registerWord_readReg, fun s r _ hb hu ht =>
    ⟨readReg s r, _, registerWord_readReg s r, step_host_read (mustPoll_eq_false.2 ⟨hb, hu⟩) ht, rfl,
      readReg_setEnv s _⟩⟩

/-! ## Faults -/

theorem busReg_eq_none {a : Addr} {n : Nat} : busReg a n = none ↔ n ≠ 4 ∨ a.toNat % 4 ≠ 0 ∨ unmapped a.toNat := by
  unfold busReg
  by_cases h : n = 4 ∧ a.toNat % 4 = 0
  · rw [if_pos h, decodeReg_none _ h.2]
    exact ⟨fun hu => .inr (.inr hu), fun hu => (hu.resolve_left (absurd h.1)).resolve_left (absurd h.2)⟩
  · rw [if_neg h]
    refine ⟨fun _ => ?_, fun _ => rfl⟩
    by_cases hn : n = 4
    · exact .inr (.inl fun ha => h ⟨hn, ha⟩)
    · exact .inl hn

/-- Settles O49: an access reaches no word exactly when it is one of those; a write that reaches one needs no poll. -/
theorem busErrorsAreExactlyTheUnmappedAccesses : Obligations.BusErrorsAreExactlyTheUnmappedAccesses := by
  intro s x ts a n ht hx
  refine ⟨fun hbad => ?_, fun hn ha hmapped hfree => ?_⟩
  · have hreg := busReg_eq_none.2 hbad
    rcases hx with rfl | ⟨v, rfl⟩
    · rw [step_host ht, hostStep, hostRead, hreg]; rfl
    · rw [step_host ht, hostStep, hostWrite, hreg]; rfl
  · obtain ⟨r, hr⟩ : ∃ r, busReg a n = some r := by
      refine Option.ne_none_iff_exists'.1 fun h => ?_
      exact hmapped (((busReg_eq_none.1 h).resolve_left (absurd hn)).resolve_left (absurd ha))
    rcases hx with rfl | ⟨v, rfl⟩
    · rw [step_host ht, hostStep, hostRead, hr]; exact ⟨_, rfl⟩
    · have hm : mustPoll (popTurn s) = false :=
        mustPoll_eq_false.2 (hfree.resolve_left HostAccess.noConfusion)
      rw [step_host ht, hostStep, hostWrite, hr]
      dsimp only
      rw [if_neg (not_barred hm r)]
      exact ⟨_, rfl⟩

/-- Settles O50: STATUS is exempt from the duty to poll; every other word is barred to writes and reads as a draw. -/
theorem accessesWhileBusy : Obligations.AccessesWhileBusy := by
  intro s r v ts
  refine ⟨fun ht => ⟨_, statusWord_toWord s.status, ?_⟩, fun ht => ?_, fun hp hr ht => ?_, fun hp hr ht => ?_⟩
  · rw [step_host ht, hostStep]
    change hostRead (Reg.addr .status) 4 _ = _
    rw [hostRead_mapped, takeBusyDraw_status, takePoll_status, busValue_status, popTurn_eq ht]
    rfl
  · rw [step_host ht, hostStep]
    change hostWrite (Reg.addr .status) 4 v _ = _
    rw [hostWrite_status, popTurn_eq ht]
    rfl
  · have hm : mustPoll (popTurn s) = true := mustPoll_eq_true.2 hp
    rw [step_host ht, hostStep, hostWrite_barred hm hr]
    rfl
  · have hm : mustPoll (popTurn s) = true := mustPoll_eq_true.2 hp
    rw [step_host ht, hostStep, hostRead_mapped, takeBusyDraw_barred hm hr, takePoll_other hr, busValue_barred hm hr,
      popTurn_eq ht]
    rfl

/-! ## Writes -/

/-- Settles O52: storing to a read-only word is the identity. -/
theorem writesToReadOnlyWordsAreIgnored : Obligations.WritesToReadOnlyWordsAreIgnored := by
  intro s r v ts p d j k hb hu hr ht
  rw [step_host_write (mustPoll_eq_false.2 ⟨hb, hu⟩) ht]
  rcases hr with rfl | rfl | rfl | rfl | rfl | rfl <;> rfl

/-- Settles O48: the validation decides between the two outcomes. -/
theorem validatedWritesStoreOrSetVerr : Obligations.ValidatedWritesStoreOrSetVerr := by
  intro s p v ts hb hu put reject
  have hm := mustPoll_eq_false.2 ⟨hb, hu⟩
  have stored {r : Reg} {x : Port} (ht : s.env.turns = .host (.write r.addr 4 v) :: ts) (hr : writeAccepted r v = true)
      (hx : ∀ u : State, u.ports = s.ports → storeReg u v r = u.setPort p x) : step s = .next (put r.addr x) := by
    have e : writeReg r v { s with env := { s.env with turns := ts } } =
        State.setPort { s with env := { s.env with turns := ts } } p x := (if_pos hr).trans (hx _ rfl)
    rw [step_host_write hm ht, e, hr]; rfl
  have refused {r : Reg} (ht : s.env.turns = .host (.write r.addr 4 v) :: ts) (hr : writeAccepted r v = false) :
      step s = .next (reject r.addr) := by
    have e : writeReg r v { s with env := { s.env with turns := ts } } = _ := if_neg (Bool.eq_false_iff.1 hr)
    rw [step_host_write hm ht, e, hr]; rfl
  refine ⟨fun a ha ht => ?_, fun a ha ht => ?_⟩
  · obtain rfl : a = Reg.addr (.motorSpeed p) := ha.trans (congrArg (BitVec.ofNat 12)
      (show 0x104 + 0x80 * p.val = 0x100 + 0x80 * p.val + 0x04 by omega))
    refine ⟨fun h => stored ht (decide_eq_true (by unfold Config.speedMax; omega)) fun u hports => ?_,
      fun h => refused ht (decide_eq_false (by unfold Config.speedMax; omega))⟩
    rw [storeReg, port_congr hports]
  · obtain rfl : a = Reg.addr (.encOffset p) := ha.trans (congrArg (BitVec.ofNat 12)
      (show 0x108 + 0x80 * p.val = 0x100 + 0x80 * p.val + 0x08 by omega))
    refine ⟨fun h => stored ht (decide_eq_true h) fun u hports => ?_,
      fun h => refused ht (decide_eq_false (Nat.not_le.2 h))⟩
    rw [storeReg, port_congr hports]

/-! ## Words read back -/

section
variable {s : State}

theorem offset_injective {r r' : Reg} (h : r.offset = r'.offset) : r = r' :=
  Option.some.inj ((decodeReg_offset r).symm.trans ((congrArg decodeReg h).trans (decodeReg_offset r')))

/-- A word of a byte array written leaves every other word. -/
theorem readReg_writeWord_ne {r r' : Reg} (hw : s.mem.wf) (v : Word) (hr : r' ≠ r) :
    readReg (s.setMem (s.mem.writeWord r.offset v)) r' = readReg s r' := by
  have hne : r'.offset ≠ r.offset := fun h => hr (offset_injective h)
  have halign := offset_aligned r
  have halign' := offset_aligned r'
  have other : (s.mem.writeWord r.offset v).readWord r'.offset = s.mem.readWord r'.offset :=
    readWord_writeWord_ne hw _ _ v (by omega)
  cases r' with
  | i2cOut | i2cIn | txBuf | rxBuf => exact other
  | _ => rfl

/-- Writing a port leaves every word but those of the fields that change. -/
theorem readReg_setPort_ne {p : PortIx} {x : Port} {r : Reg} (hen : x.en = (s.port p).en ∨ r ≠ .motorEn p)
    (hcode : x.code = (s.port p).code ∨ r ≠ .sensorType p)
    (hcfg : (x.i2cSpeed = (s.port p).i2cSpeed ∧ x.devCount = (s.port p).devCount) ∨ r ≠ .i2cCfg p)
    (hdev : ∀ d : SlotIx, x.dev[d.val] = (s.port p).dev[d.val] ∨ r ≠ .i2cDev p d)
    (hrest : x.speed = (s.port p).speed ∧ x.encOffset = (s.port p).encOffset ∧ x.encoder = (s.port p).encoder ∧
      x.raw = (s.port p).raw ∧ x.color = (s.port p).color) : readReg (s.setPort p x) r = readReg s r := by
  obtain ⟨hspeed, hoff, henc, hraw, hcolor⟩ := hrest
  have word (f : Port → Word) (q : PortIx) (h : q = p → f x = f (s.port p)) :
      f ((s.setPort p x).port q) = f (s.port q) := by
    rw [State.port_setPort]
    split_ifs with e
    · rw [h e, e]
    · rfl
  cases r with
  | motorEn q =>
    exact word (fun y => (bit y.en).setWidth 32) q fun e => by
      rw [hen.resolve_right fun h => h (congrArg Reg.motorEn e)]
  | sensorType q =>
    exact word (fun y => y.code.setWidth 32) q fun e => by
      rw [hcode.resolve_right fun h => h (congrArg Reg.sensorType e)]
  | i2cCfg q =>
    refine word (fun y => 0#16 ++ y.devCount ++ y.i2cSpeed) q fun e => ?_
    obtain ⟨h1, h2⟩ := hcfg.resolve_right fun h => h (congrArg Reg.i2cCfg e)
    rw [h1, h2]
  | i2cDev q d =>
    exact word (fun y => (y.dev[d.val]).toWord) q fun e => by
      rw [(hdev d).resolve_right fun h => h (congrArg (Reg.i2cDev · d) e)]
  | motorSpeed q => exact word Port.speed q fun _ => hspeed
  | encOffset q => exact word Port.encOffset q fun _ => hoff
  | encoder q => exact word Port.encoder q fun _ => henc
  | rawValue q => exact word Port.raw q fun _ => hraw
  | color q i => exact word (fun y => (y.color[i.val]).setWidth 32) q fun _ => by rw [hcolor]
  | _ => rfl

/-- A field of the low `n` bits, stored and read back. -/
theorem setWidth_setWidth_and {n : Nat} (v mask : Word) (hmask : mask.toNat = 2 ^ n - 1) (hn : n ≤ 32) :
    (v.setWidth n).setWidth 32 = v &&& mask := by
  refine BitVec.eq_of_toNat_eq ?_
  rw [BitVec.toNat_setWidth_of_le hn, BitVec.toNat_setWidth, BitVec.toNat_and, hmask, Nat.and_two_pow_sub_one_eq_mod]

theorem getLsbD_devMask : ∀ i : Fin 32,
    (0x00FF03FF : Word).getLsbD i.val = (decide (i.val < 10) || (decide (16 ≤ i.val) && decide (i.val < 24))) := by decide

/-- A device slot, stored and read back (10_state.md R51). -/
theorem toWord_ofWord (v : Word) : (Dev.ofWord v).toWord = v &&& 0x00FF03FF := by
  refine BitVec.eq_of_getLsbD_eq fun i hi => ?_
  rw [BitVec.getLsbD_and, getLsbD_devMask ⟨i, hi⟩]
  change BitVec.getLsbD (w := 8 + 4 + 4 + 6 + 1 + 1 + 8) (0#8 ++ v.extractLsb' 20 4 ++ v.extractLsb' 16 4 ++ 0#6 ++
    bit (v.getLsbD 9) ++ bit (v.getLsbD 8) ++ v.extractLsb' 0 8) i = _
  have hbit (b : Bool) {k : Nat} (hk : k < 1) : (bit b).getLsbD k = b := by
    obtain rfl : k = 0 := by omega
    cases b <;> rfl
  simp only [BitVec.getLsbD_append, BitVec.getLsbD_extractLsb', BitVec.getLsbD_zero]
  split_ifs with h8 h9 h10 h16 h20 h24
  · grind
  · obtain rfl : i = 8 := by omega
    rw [hbit _ h9]
    grind
  · obtain rfl : i = 9 := by omega
    rw [hbit _ h10]
    grind
  · grind
  · grind
  · grind
  · grind

theorem eq_and_full (v : Word) : v = v &&& 0xFFFFFFFF := BitVec.and_allOnes.symm

theorem bit_getLsbD_zero (v : Word) : bit (v.getLsbD 0) = v.setWidth 1 := by
  refine BitVec.eq_of_toNat_eq ?_
  rw [toNat_bit, BitVec.toNat_setWidth, BitVec.getLsbD, Nat.testBit_zero]
  rcases Nat.mod_two_eq_zero_or_one v.toNat with h | h
  · simp only [h]; rfl
  · simp only [h]; rfl

/-- I2C_CFG, stored and read back (10_state.md R50). -/
theorem i2cCfg_and (v : Word) : 0#16 ++ v.extractLsb' 8 8 ++ v.extractLsb' 0 8 = v &&& 0x0000FFFF := by
  refine BitVec.eq_of_toNat_eq ?_
  rw [BitVec.toNat_and, show (0x0000FFFF : Word).toNat = 2 ^ 16 - 1 from rfl, Nat.and_two_pow_sub_one_eq_mod]
  simp only [toNat_append_add, BitVec.toNat_zero, BitVec.extractLsb'_toNat, Nat.shiftRight_eq_div_pow]
  omega

/-- A stored word: it reads as `w`, every other word and the hidden registers as before. -/
structure Stored (r : Reg) (w : Word) (s t : State) : Prop where
  word : readReg t r = w
  other : ∀ r', r' ≠ r → readReg t r' = readReg s r'
  fsm : t.fsm = s.fsm
  seg : t.seg = s.seg
  attempt : t.attempt = s.attempt
  rxChk : t.rxChk = s.rxChk
  rxLen : t.rxLen = s.rxLen
  rxIdx : t.rxIdx = s.rxIdx
  pt : t.pt = s.pt
  env : t.env = s.env

theorem Stored.setPort {r : Reg} {w : Word} {p : PortIx} {x : Port} (hw : readReg (s.setPort p x) r = w)
    (ho : ∀ r', r' ≠ r → readReg (s.setPort p x) r' = readReg s r') : Stored r w s (s.setPort p x) :=
  ⟨hw, ho, rfl, rfl, rfl, rfl, rfl, rfl, rfl, rfl⟩

theorem Stored.writeWord {r : Reg} (hm : s.mem.wf) (v : Word)
    (hr : ∀ t, readReg t r = t.mem.readWord r.offset) :
    Stored r (v &&& 0xFFFFFFFF) s (s.setMem (s.mem.writeWord r.offset v)) :=
  ⟨(hr _).trans ((readWord_writeWord hm _ _).trans (eq_and_full v)), fun _ h => readReg_writeWord_ne hm v h, rfl, rfl, rfl,
    rfl, rfl, rfl, rfl, rfl⟩

/-- What storing to each read/write word does (10_state.md R32, R39, R42, R47, R50, R51). -/
theorem storeReg_stored {v : Word} {p : PortIx} {d : SlotIx} {j : Fin 4} {k : Fin 64} {r : Reg} {mask : Word}
    (hm : s.mem.wf)
    (hr : (r = .arg0 ∧ mask = 0xFFFFFFFF) ∨ (r = .cursor ∧ mask = 0x00000FFF) ∨ (r = .motorEn p ∧ mask = 0x00000001) ∨
      (r = .sensorType p ∧ mask = 0x000000FF) ∨ (r = .i2cCfg p ∧ mask = 0x0000FFFF) ∨
      (r = .i2cDev p d ∧ mask = 0x00FF03FF) ∨ (r = .i2cOut p d j ∧ mask = 0xFFFFFFFF) ∨
      (r = .txBuf k ∧ mask = 0xFFFFFFFF)) : Stored r (v &&& mask) s (storeReg s v r) := by
  have at_p (x : Port) : (s.setPort p x).port p = x := (State.port_setPort ..).trans (if_pos rfl)
  have same : (s.port p).speed = (s.port p).speed ∧ (s.port p).encOffset = (s.port p).encOffset ∧
      (s.port p).encoder = (s.port p).encoder ∧ (s.port p).raw = (s.port p).raw ∧ (s.port p).color = (s.port p).color :=
    ⟨rfl, rfl, rfl, rfl, rfl⟩
  rcases hr with ⟨rfl, rfl⟩ | ⟨rfl, rfl⟩ | ⟨rfl, rfl⟩ | ⟨rfl, rfl⟩ | ⟨rfl, rfl⟩ | ⟨rfl, rfl⟩ | ⟨rfl, rfl⟩ | ⟨rfl, rfl⟩
  · refine ⟨eq_and_full v, fun r' h => ?_, rfl, rfl, rfl, rfl, rfl, rfl, rfl, rfl⟩
    cases r' with
    | arg0 => exact absurd rfl h
    | _ => rfl
  · refine ⟨setWidth_setWidth_and v 0xFFF rfl (by omega), fun r' h => ?_, rfl, rfl, rfl, rfl, rfl, rfl, rfl, rfl⟩
    cases r' with
    | cursor => exact absurd rfl h
    | _ => rfl
  · refine .setPort ?_ fun r' h => readReg_setPort_ne (.inr h) (.inl rfl) (.inl ⟨rfl, rfl⟩) (fun _ => .inl rfl) same
    rw [readReg, at_p, bit_getLsbD_zero]
    exact setWidth_setWidth_and v 1 rfl (by omega)
  · refine .setPort ?_ fun r' h => readReg_setPort_ne (.inl rfl) (.inr h) (.inl ⟨rfl, rfl⟩) (fun _ => .inl rfl) same
    rw [readReg, at_p]
    exact setWidth_setWidth_and v 0xFF rfl (by omega)
  · refine .setPort ?_ fun r' h => readReg_setPort_ne (.inl rfl) (.inl rfl) (.inr h) (fun _ => .inl rfl) same
    rw [readReg, at_p]
    exact i2cCfg_and v
  · refine .setPort ?_ fun r' h =>
      readReg_setPort_ne (.inl rfl) (.inl rfl) (.inl ⟨rfl, rfl⟩) (fun e => ?_) same
    · rw [readReg, at_p]
      dsimp only
      rw [Vector.getElem_set_self, toWord_ofWord]
    · by_cases he : e = d
      · rw [he]; exact .inr h
      · exact .inl (Vector.getElem_set_ne d.isLt e.isLt fun hv => he (Fin.ext hv.symm))
  · exact .writeWord hm v fun _ => rfl
  · exact .writeWord hm v fun _ => rfl

end

/-- Settles O53: the write is accepted, and what it stores is the word of its register alone. -/
theorem writtenRegistersReadBackMasked : Obligations.WrittenRegistersReadBackMasked := by
  intro s v p d j k r mask ts hw hb hu hr ht
  have haccepted : writeAccepted r v = true := by
    rcases hr with ⟨rfl, -⟩ | ⟨rfl, -⟩ | ⟨rfl, -⟩ | ⟨rfl, -⟩ | ⟨rfl, -⟩ | ⟨rfl, -⟩ | ⟨rfl, -⟩ | ⟨rfl, -⟩ <;> rfl
  generalize hu' : ({ s with env := { s.env with turns := ts } } : State) = u
  have hstored := storeReg_stored (s := u) (v := v) (by rw [← hu']; exact hw) hr
  have hstep := step_host_write (mustPoll_eq_false.2 ⟨hb, hu⟩) ht
  rw [hu', writeReg, if_pos haccepted, haccepted] at hstep
  have hread (r' : Reg) : readReg u r' = readReg s r' := by rw [← hu']; exact readReg_setEnv s _ r'
  refine ⟨_, hstep, (readReg_setEnv ..).trans hstored.word,
    fun r' h => (readReg_setEnv ..).trans ((hstored.other r' h).trans (hread r')), ?_, ?_, ?_, ?_, ?_, ?_, ?_, ?_⟩
  · rw [State.note, State.setEnv_fsm, hstored.fsm, ← hu']
  · rw [State.note, State.setEnv_seg, hstored.seg, ← hu']
  · rw [State.note, State.setEnv_attempt, hstored.attempt, ← hu']
  · rw [State.note, State.setEnv_rxChk, hstored.rxChk, ← hu']
  · rw [State.note, State.setEnv_rxLen, hstored.rxLen, ← hu']
  · rw [State.note, State.setEnv_rxIdx, hstored.rxIdx, ← hu']
  · rw [State.note, State.setEnv_pt, hstored.pt, ← hu']
  · rw [State.note, State.setEnv_env, hstored.env, ← hu']; rfl

end Sys2Proof.Machine
end
